-- ==== Sys2Proof/Word.lean ====
section
/-! DEFINITION. The word types of the engine. The spec has no arithmetic on words that wraps but BYTECNT's
(R8, R31), so registers are bit vectors of their spec'd widths and rules compute on naturals. -/

namespace Sys2Proof

/-- One byte of the stream or one frame-buffer cell (R61, R62). -/
abbrev Byte := BitVec 8

/-- A code, zero-extended to 12 bits for matching (R94, R109). -/
abbrev Code := BitVec 12

/-- One CSR word (R44). -/
abbrev CsrWord := BitVec 32

end Sys2Proof
end

