-- ==== Sys2Proof/Config.lean ====
section
/-! DEFINITION. What an implementation fixes (R7) and the free values: constants without a body, which no proof
can evaluate. -/

namespace Sys2Proof.Config

/-- `MIN_N` and `MAX_N`: the legal initial code sizes (R7, R91). -/
abbrev minN : Nat := 2
/-- See `minN`. -/
abbrev maxN : Nat := 8

/-- `TABLE_CAP`: the entry count at which the table freezes (R7, R148). -/
abbrev tableCap : Nat := 4096

/-- `TABLE_MEM_ENTRIES`, the default of the hardware parameter (R7, U13). State holds the parameter itself, so that
a reduced store can be run (DESIGN CHOICE, log 5). -/
def tableMemDefault : Nat := 4096

/-- `NONE`, the "no prefix" sentinel of a root entry (R40). -/
def noPrefix : Code := 0xFFF#12

/-- What PREV holds once it "becomes undefined" (R211, R24, U4: any value). A free value, drawn with the counter
`freeTick` of State (log 2). -/
opaque freePrev : Nat → Code

/-- The value a frame-buffer cell had at launch (R261, U6: a parameter, never zero). A free value of the cell's
address (log 3). -/
opaque launchCell : Nat → Byte

end Sys2Proof.Config
end

