-- ==== Sys2Proof/Syntax.lean ====
section
/-! DEFINITION. The items the engine executes: one constructor for each row of spec/opcode_table.json. -/

namespace Sys2Proof

/-- The thirty rows of the opcode table. CLR, STOP and LIT have one row for each initial code size N = 2..8 (R109);
a LIT carries its N-bit colour index (R103), REF, KWK and ILLEGAL the code itself (R104 to R106), CODESIZE and SUBLEN
their byte (R91, R92), ROW its two operands (R192: in the engine `y < h <= 65535`). -/
inductive Instr where
  | clrN2 | stopN2 | litN2 (k : BitVec 2)
  | clrN3 | stopN3 | litN3 (k : BitVec 3)
  | clrN4 | stopN4 | litN4 (k : BitVec 4)
  | clrN5 | stopN5 | litN5 (k : BitVec 5)
  | clrN6 | stopN6 | litN6 (k : BitVec 6)
  | clrN7 | stopN7 | litN7 (k : BitVec 7)
  | clrN8 | stopN8 | litN8 (k : BitVec 8)
  | ref (c : Code)
  | kwk (c : Code)
  | illegal (c : Code)
  | codesize (b : Byte)
  | sublen (l : Byte)
  | term
  | start
  | abort
  | row (y h : BitVec 16)
  deriving DecidableEq, Repr

/-- The word of an item in the format its table row names: CODE, BYTE or CSR; ROW has no encoding (R109). -/
inductive Encoding where
  | code (c : Code)
  | byte (b : Byte)
  | ctrl (v : CsrWord)
  | noEncoding
  deriving DecidableEq, Repr

/-- The machine state that decides the class of a code (R100): N, NENT, FROZEN and PREVV as they stand when the
code is read. -/
structure CodeCtx where
  n : Nat
  nent : Nat
  frozen : Bool
  prevv : Bool
  deriving DecidableEq, Repr

/-- Where an item stands, which decides what it can be: a code of `kw` bits in phase RUN, the first byte after START,
a byte where a length byte is due, or a write to CTRL (R90, R94, R112). -/
inductive Slot where
  | code (x : CodeCtx) (kw : Nat)
  | codeSize
  | length
  | ctrl
  deriving DecidableEq, Repr

end Sys2Proof
end

