-- ==== Sys2Proof/WellFormed.lean ====
section
/-! DEFINITION. Which instruction terms are items of the table at all, whatever the machine's state. -/

namespace Sys2Proof

/-- The static conditions of the table's rows: a code that is no root and no sentinel of any code size is at least
6, the least initial entry count (R109); a sub-block length is not 0 (R92); ROW is defined for `y < h` only (R192,
R194). Every other term is well-formed: its operand fields have exactly the widths of the encoding. -/
def Instr.wellFormed : Instr → Bool
  | .ref c => decide (6 ≤ c.toNat)
  | .kwk c => decide (6 ≤ c.toNat)
  | .illegal c => decide (6 ≤ c.toNat)
  | .sublen l => decide (l ≠ 0)
  | .row y h => decide (y.toNat < h.toNat)
  | .clrN2 | .stopN2 | .litN2 _ | .clrN3 | .stopN3 | .litN3 _ | .clrN4 | .stopN4 | .litN4 _
  | .clrN5 | .stopN5 | .litN5 _ | .clrN6 | .stopN6 | .litN6 _ | .clrN7 | .stopN7 | .litN7 _
  | .clrN8 | .stopN8 | .litN8 _ | .codesize _ | .term | .start | .abort => true

end Sys2Proof
end

