-- ==== Sys2Proof/Decode.lean ====
section
/-! DEFINITION. Decoding, total on any bytes, and the encoder written from the same tables (R91 to R112). -/

namespace Sys2Proof

/-! ### Bytes and bit fields -/

/-- Bytes as one number, the first byte lowest: the bit order of the stream (R64). -/
def leNat : List Byte → Nat
  | [] => 0
  | b :: bs => b.toNat + 256 * leNat bs

/-- The low `k` bytes of a number, lowest byte first. -/
def leBytes : Nat → Nat → List Byte
  | 0, _ => []
  | k + 1, w => BitVec.ofNat 8 w :: leBytes k (w / 256)

/-! ### The classes of codes (R100 to R106) -/

/-- `CLEAR = 2^N` (R25). -/
abbrev clearCode (n : Nat) : Nat := 2 ^ n
/-- `STOP = 2^N + 1` (R25). -/
abbrev stopCode (n : Nat) : Nat := 2 ^ n + 1
/-- The entry count of the initial table: the roots and the two sentinel codes (R109, R142). -/
abbrev initialCount (n : Nat) : Nat := 2 ^ n + 2

/-- The CLR row of code size `n` (R101). -/
def clrOf : Nat → Option Instr
  | 2 => some .clrN2 | 3 => some .clrN3 | 4 => some .clrN4 | 5 => some .clrN5
  | 6 => some .clrN6 | 7 => some .clrN7 | 8 => some .clrN8 | _ => none

/-- The STOP row of code size `n` (R102). -/
def stopOf : Nat → Option Instr
  | 2 => some .stopN2 | 3 => some .stopN3 | 4 => some .stopN4 | 5 => some .stopN5
  | 6 => some .stopN6 | 7 => some .stopN7 | 8 => some .stopN8 | _ => none

/-- The LIT row of code size `n`; its index is the code's low `n` bits (R103). -/
def litOf (n : Nat) (c : Code) : Option Instr :=
  match n with
  | 2 => some (.litN2 (c.setWidth 2)) | 3 => some (.litN3 (c.setWidth 3))
  | 4 => some (.litN4 (c.setWidth 4)) | 5 => some (.litN5 (c.setWidth 5))
  | 6 => some (.litN6 (c.setWidth 6)) | 7 => some (.litN7 (c.setWidth 7))
  | 8 => some (.litN8 (c.setWidth 8)) | _ => none

/-- The condition of class KWK: the code is the index of the entry about to be created (R105). -/
def isKwk (x : CodeCtx) (c : Code) : Bool :=
  decide (c.toNat = x.nent) && !x.frozen && x.prevv

/-- The class of a code, by the first line of R100 that matches. A context whose N is no legal code size (R91) gives
no instruction. -/
def decodeCode (x : CodeCtx) (c : Code) : Option Instr :=
  if x.n < Config.minN || Config.maxN < x.n then none
  else if c.toNat = clearCode x.n then clrOf x.n
  else if c.toNat = stopCode x.n then stopOf x.n
  else if c.toNat < clearCode x.n then litOf x.n c
  else if c.toNat < x.nent then some (.ref c)
  else if isKwk x c then some (.kwk c)
  else some (.illegal c)

/-- A byte where a length byte is due: the terminator or a sub-block length (R92, R93). -/
def decodeLength (b : Byte) : Instr := if b = 0 then .term else .sublen b

/-- A word written to CTRL: bit 1 is ABORT and wins, bit 0 is START, neither is no command (R45, R112). -/
def decodeCtrl (v : CsrWord) : Option Instr :=
  if v.getLsbD 1 then some .abort
  else if v.getLsbD 0 then some .start
  else none

/-- Decoding of the bytes at a slot. A code takes its low `kw` bits, zero-extended (R94, R95). -/
def decode : Slot → List Byte → Option Instr
  | .code x kw, bs =>
    if 8 * bs.length < kw then none else decodeCode x (BitVec.ofNat 12 (leNat bs % 2 ^ kw))
  | .codeSize, b :: _ => some (.codesize b)
  | .codeSize, [] => none
  | .length, b :: _ => some (decodeLength b)
  | .length, [] => none
  | .ctrl, bs => if bs.length < 4 then none else decodeCtrl (BitVec.ofNat 32 (leNat (bs.take 4)))

/-- The condition of the table row of a code item in a context: N, and for REF, KWK and ILLEGAL the range of the code
against NENT (R100). Items that are not codes have no such condition. -/
def fitsCode (x : CodeCtx) : Instr → Bool
  | .clrN2 | .stopN2 | .litN2 _ => x.n == 2
  | .clrN3 | .stopN3 | .litN3 _ => x.n == 3
  | .clrN4 | .stopN4 | .litN4 _ => x.n == 4
  | .clrN5 | .stopN5 | .litN5 _ => x.n == 5
  | .clrN6 | .stopN6 | .litN6 _ => x.n == 6
  | .clrN7 | .stopN7 | .litN7 _ => x.n == 7
  | .clrN8 | .stopN8 | .litN8 _ => x.n == 8
  | .ref c =>
    decide (Config.minN ≤ x.n) && decide (x.n ≤ Config.maxN) &&
      decide (initialCount x.n ≤ c.toNat) && decide (c.toNat < x.nent)
  | .kwk c =>
    decide (Config.minN ≤ x.n) && decide (x.n ≤ Config.maxN) &&
      decide (initialCount x.n ≤ c.toNat) && isKwk x c
  | .illegal c =>
    decide (Config.minN ≤ x.n) && decide (x.n ≤ Config.maxN) &&
      decide (initialCount x.n ≤ c.toNat) && decide (x.nent ≤ c.toNat) && !isKwk x c
  | .codesize _ | .sublen _ | .term | .start | .abort | .row _ _ => false

/-! ### Encoding -/

/-- The word of an item, from the `match` column of the table and R101 to R106, R91 to R93, R112. Reserved CTRL bits
and the START bit of an ABORT are written as 0. -/
def encode : Instr → Encoding
  | .clrN2 => .code 0x004 | .stopN2 => .code 0x005 | .litN2 k => .code (k.setWidth 12)
  | .clrN3 => .code 0x008 | .stopN3 => .code 0x009 | .litN3 k => .code (k.setWidth 12)
  | .clrN4 => .code 0x010 | .stopN4 => .code 0x011 | .litN4 k => .code (k.setWidth 12)
  | .clrN5 => .code 0x020 | .stopN5 => .code 0x021 | .litN5 k => .code (k.setWidth 12)
  | .clrN6 => .code 0x040 | .stopN6 => .code 0x041 | .litN6 k => .code (k.setWidth 12)
  | .clrN7 => .code 0x080 | .stopN7 => .code 0x081 | .litN7 k => .code (k.setWidth 12)
  | .clrN8 => .code 0x100 | .stopN8 => .code 0x101 | .litN8 k => .code (k.setWidth 12)
  | .ref c => .code c
  | .kwk c => .code c
  | .illegal c => .code c
  | .codesize b => .byte b
  | .sublen l => .byte l
  | .term => .byte 0
  | .start => .ctrl 1
  | .abort => .ctrl 2
  | .row _ _ => .noEncoding

/-- A word as bytes, the first byte lowest: a code in two bytes, a stream byte in one, a CTRL word in four. -/
def encodingBytes : Encoding → List Byte
  | .code c => leBytes 2 c.toNat
  | .byte b => [b]
  | .ctrl v => leBytes 4 v.toNat
  | .noEncoding => []

/-- The bytes of an item standing alone at bit offset 0. -/
def encodeBytes (i : Instr) : List Byte := encodingBytes (encode i)

/-- The item stands at a slot where its table row can be selected: the row's condition holds, and a code fits the
width it is read at. -/
def standsAt : Slot → Instr → Bool
  | .code x kw, i =>
    match encode i with
    | .code c => fitsCode x i && decide (c.toNat < 2 ^ kw) && decide (kw ≤ 12)
    | .byte _ | .ctrl _ | .noEncoding => false
  | .codeSize, .codesize _ => true
  | .length, .sublen l => decide (l ≠ 0)
  | .length, .term => true
  | .ctrl, .start => true
  | .ctrl, .abort => true
  | _, _ => false

/-! ### The packer (R111): code streams to bytes -/

/-- The packer's copy of the decoder's width state, its bit accumulator and the payload so far (R111). -/
structure Packer where
  kw : Nat
  nent : Nat
  frozen : Bool
  prevv : Bool
  acc : Nat
  nb : Nat
  payload : List Byte
  deriving DecidableEq, Repr

/-- The packer before the first code. -/
def packStart (n : Nat) : Packer :=
  { kw := n + 1, nent := initialCount n, frozen := false, prevv := false, acc := 0, nb := 0, payload := [] }

/-- Move whole bytes from the accumulator to the payload; `fuel` counts the bytes that may be moved (a code adds at
most 12 bits to fewer than 8, so two are enough). -/
def packFlush : Nat → Packer → Packer
  | 0, p => p
  | fuel + 1, p =>
    if p.nb < 8 then p
    else packFlush fuel
      { p with acc := p.acc / 256, nb := p.nb - 8, payload := p.payload ++ [BitVec.ofNat 8 p.acc] }

/-- The width state after a code (the last part of R111's loop). -/
def packWidth (n c : Nat) (p : Packer) : Packer :=
  if c = clearCode n then
    { p with kw := n + 1, nent := initialCount n, frozen := false, prevv := false }
  else if c = stopCode n then p
  else if !p.frozen && p.prevv then
    let m := p.nent + 1
    if m = Config.tableCap then { p with nent := m, frozen := true }
    else if m = 2 ^ p.kw then { p with nent := m, kw := p.kw + 1 }
    else { p with nent := m }
  else { p with prevv := true }

/-- One code: it must fit the width (`require c < 2^kw`). -/
def packCode (n c : Nat) (p : Packer) : Option Packer :=
  if c < 2 ^ p.kw then
    some (packWidth n c
      (packFlush 2 { p with acc := p.acc + c * 2 ^ p.nb, nb := p.nb + p.kw }))
  else none

/-- All codes in order. -/
def packCodes (n : Nat) : List Nat → Packer → Option Packer
  | [], p => some p
  | c :: cs, p =>
    match packCode n c p with
    | none => none
    | some q => packCodes n cs q

/-- Cut a payload into sub-blocks of at most `L` bytes, each with its length byte (R92); `fuel` bounds the number of
sub-blocks. -/
def packChunks (L : Nat) : Nat → List Byte → List Byte
  | 0, _ => []
  | _ + 1, [] => []
  | fuel + 1, b :: bs =>
    BitVec.ofNat 8 (min L (bs.length + 1)) :: ((b :: bs).take L ++ packChunks L fuel ((b :: bs).drop L))

/-- `Pack(N, codes, L)` (R111): the image data of a code stream. -/
def pack (n : Nat) (codes : List Nat) (L : Nat) : Option (List Byte) :=
  match packCodes n codes (packStart n) with
  | none => none
  | some p =>
    let payload := if 0 < p.nb then p.payload ++ [BitVec.ofNat 8 p.acc] else p.payload
    some (BitVec.ofNat 8 n :: (packChunks L payload.length payload ++ [0]))

/-! ### The opcode table's words (the host's numbering) -/

/-- The code size in whose fresh table a table word is read: the least one whose roots or sentinels hold it. A word
of the table has no context of its own, and LIT rows of different N share words (DESIGN CHOICE, log 8). -/
def tableCodeSize (w : Nat) : Nat :=
  if w ≤ 5 then 2 else if w ≤ 9 then 3 else if w ≤ 17 then 4 else if w ≤ 33 then 5
  else if w ≤ 65 then 6 else if w ≤ 129 then 7 else 8

/-- The width at which a table word is read: the initial one, or 12 for a word it cannot hold. -/
def tableWidth (w : Nat) : Nat := if w < 512 then tableCodeSize w + 1 else 12

/-- The context of a table just initialised (R142). -/
def freshCtx (n : Nat) : CodeCtx := { n := n, nent := initialCount n, frozen := false, prevv := false }

/-- A one-byte word that is a CTRL command and not a stream byte: the table gives START and ABORT two bits. -/
def isCtrlByte (w : Nat) : Bool := decide (1 ≤ w) && decide (w ≤ 3)

/-- The decoder on a table word: up to 8 bits a container byte or the low bits of a CTRL word, up to 16 bits a code,
more a CTRL word (log 8). -/
def decodeTableWord (nbits w : Nat) : Option Instr :=
  if nbits ≤ 8 then
    if isCtrlByte w then decode .ctrl (leBytes 4 w) else decode .length (leBytes 1 w)
  else if nbits ≤ 16 then
    decode (.code (freshCtx (tableCodeSize w)) (tableWidth w)) (leBytes 2 w)
  else decode .ctrl (leBytes 4 w)

end Sys2Proof
end

