-- ==== Sys2Proof/Machine/State.lean ====
section
/-! DEFINITION. The machine's state: everything R20 lists, the memories and agents outside the engine, and three
fields of the model's own. -/

namespace Sys2Proof.Machine

/-- PHASE (R39); the values 6 and 7 never occur. -/
inductive Phase where
  | idle | hdr | run | drain | done | fault
  deriving DecidableEq, Repr

/-- CAUSE (R230); the codes 8 to 15 are never produced. -/
inductive Cause where
  | none
  | badGeometry
  | badCodeSize
  | truncatedRead
  | dataExhausted
  | invalidCode
  | outputOverrun
  | outOfMemory
  deriving DecidableEq, Repr

/-- One entry of the code table (R40): `len` in bits 11:0, the prefix index `pre` in bits 23:12 (`Config.noPrefix` for a
root), the suffix `suf` in bits 31:24. Entries are read and written whole (R67). -/
structure Entry where
  len : BitVec 12
  pre : Code
  suf : Byte
  deriving DecidableEq, Repr

/-- Frame-buffer cells that hold a value, addresses strictly rising; a cell not listed holds its launch value. -/
abbrev Memory := List Host.Cell

/-- Table slots that hold an entry, indexes strictly rising; a slot not listed holds no value (R42). -/
abbrev Table := List (Nat × Entry)

/-- What the host can do between two engine steps (R52, R210, R218). -/
inductive HostOp where
  | csrRead (off : CsrWord)
  | csrWrite (off v : CsrWord)
  | fbRead (addr : CsrWord)
  | fbWrite (addr : CsrWord) (v : Byte)
  | positionSource (bytes : List Byte) (ended : Bool)
  | reset
  deriving DecidableEq, Repr

/-- Which agent moves (log 7): the engine, the host, or the byte source, which delivers a byte or reports end of
stream. -/
inductive Turn where
  | engine
  | host (op : HostOp)
  | deliver (b : Byte)
  | endOfStream
  deriving DecidableEq, Repr

/-- The whole system. -/
structure State where
  /-- N (R21) -/
  n : BitVec 4
  /-- KW (R22) -/
  kw : BitVec 4
  /-- NENT (R23) -/
  nent : BitVec 13
  /-- PREV (R24) -/
  prev : Code
  /-- OUTOFF, read by the host as PIXCNT (R26) -/
  outoff : BitVec 32
  /-- SUBREM (R28) -/
  subrem : BitVec 8
  /-- BITBUF (R29) -/
  bitbuf : BitVec 19
  /-- BITCNT (R30) -/
  bitcnt : BitVec 5
  /-- BYTECNT (R31) -/
  bytecnt : BitVec 32
  /-- CW (R33) -/
  cw : BitVec 16
  /-- CH (R33) -/
  ch : BitVec 16
  /-- FX (R34) -/
  fx : BitVec 16
  /-- FY (R34) -/
  fy : BitVec 16
  /-- FW (R34) -/
  fw : BitVec 16
  /-- FH (R34) -/
  fh : BitVec 16
  /-- INTERLACE (R35) -/
  interlace : Bool
  /-- FROZEN (R36) -/
  frozen : Bool
  /-- PREVV (R37) -/
  prevv : Bool
  /-- TERMSEEN (R38) -/
  termseen : Bool
  /-- PHASE (R39) -/
  phase : Phase
  /-- CAUSE (R39) -/
  cause : Cause
  /-- ERRINFO (R39) -/
  errinfo : BitVec 12
  /-- The store `T` (R40) -/
  table : Table
  /-- `TABLE_MEM_ENTRIES` (R7, U13): a parameter of the instance, written by no step (log 5) -/
  tableMem : Nat
  /-- The bytes the source will deliver, next first (R61) -/
  source : List Byte
  /-- End of stream follows `source`; otherwise the source has not answered yet (R61, R279, log 6) -/
  sourceEnded : Bool
  /-- The bytes a code step that waits has taken so far: gone from `source`, and lost with the step (R67, R216, U9, log 6) -/
  partway : List Byte
  /-- The frame buffer (R62) -/
  fb : Memory
  /-- The model's own: the moves still to come, next first (log 7) -/
  turns : List Turn
  /-- The model's own: what the last operation that returns a value gave back (log 12) -/
  returned : Option CsrWord
  /-- The model's own: counts the free values drawn (log 2) -/
  freeTick : Nat
  deriving DecidableEq, Repr

/-- Model errors: accesses no rule performs. None is reached from a state of the invariant (Safety.lean); stopping
is safe. -/
inductive Fault where
  /-- Raised by a table read of a slot that holds no value (U1 to U3, R42: "a model must make such a read an error of
  the model"). Safe. -/
  | undefinedEntry
  /-- Raised by `FbWrite` at an address not below `CW * CH` (R68). Safe. -/
  | frameBufferAddress
  /-- Raised by `PixelAddr` at an offset not below `FW * FH` (R194, R195). Safe. -/
  | pixelOutsideRectangle
  deriving DecidableEq, Repr

/-- Situations the model gives no meaning. -/
inductive Refusal where
  /-- An arm of `exec` whose instruction has no meaning yet; no arm is one. Safe. -/
  | notModelled (mnemonic : String)
  /-- Raised by `exec` for an item outside the condition of its table row (a CLR.N2 while N is 3, a code outside phase
  RUN); no step asks for one. Safe. -/
  | notEnabled
  /-- Raised by a code step while N is no legal code size, which no run reaches (R91). Safe. -/
  | noCodeSize
  /-- Raised by ROW for `y >= h` (U7, R194: "refuse"). Safe. -/
  | rowOutsideDomain
  /-- Raised by a host access to the frame buffer while BUSY (U5, R77: "refused"). Safe. -/
  | frameBufferWhileBusy
  /-- Raised by the host moving the byte source while BUSY (R218, R275: "must not"). Safe. -/
  | sourceWhileBusy
  deriving DecidableEq, Repr

/-- The system right after reset (R260): PHASE IDLE and every register 0. PREV, the frame buffer, the source and the
model's own fields hold the values of log 1, 2, 3, 6, 7 and 12; the table store holds no value. -/
def State.reset : State :=
  { n := 0, kw := 0, nent := 0, prev := 0, outoff := 0
    subrem := 0, bitbuf := 0, bitcnt := 0, bytecnt := 0
    cw := 0, ch := 0, fx := 0, fy := 0, fw := 0, fh := 0, interlace := false
    frozen := false, prevv := false, termseen := false
    phase := .idle, cause := .none, errinfo := 0
    table := [], tableMem := Config.tableMemDefault
    source := [], sourceEnded := false, partway := []
    fb := [], turns := [], returned := none, freeTick := 0 }

end Sys2Proof.Machine
end

