-- ==== Sys2Proof/Machine/Ops.lean ====
section
/-! DEFINITION. The named operations over memories, the byte source and the control registers; taking a fault. -/

namespace Sys2Proof.Machine

/-! ### Sorted lists of keyed values -/

/-- The value at key `k`, if one is listed. -/
def getKey {α : Type} (k : Nat) : List (Nat × α) → Option α
  | [] => none
  | (j, v) :: l => if j = k then some v else getKey k l

/-- Set the value at key `k`, keeping the keys strictly rising. -/
def setKey {α : Type} (k : Nat) (v : α) : List (Nat × α) → List (Nat × α)
  | [] => [(k, v)]
  | (j, w) :: l =>
    if k < j then (k, v) :: (j, w) :: l
    else if k = j then (k, v) :: l
    else (j, w) :: setKey k v l

/-- The canonical form: keys strictly rising. -/
abbrev sorted {α : Type} (l : List (Nat × α)) : Prop := l.Pairwise fun a b => a.1 < b.1

/-! ### The frame buffer (R62, R68) -/

/-- The canonical form of the frame buffer: addresses strictly rising. An unlisted cell reads as no value, so no entry
can equal it. -/
abbrev Memory.wf (m : Memory) : Prop := sorted m

/-- One cell; `none` while it holds its launch value. -/
def Memory.read (m : Memory) (a : Nat) : Option Byte := getKey a m

/-- Set one cell. -/
def Memory.write (m : Memory) (a : Nat) (v : Byte) : Memory := setKey a v m

/-- What a reader of the cell gets: its value, or the free launch value (U6, log 3). -/
def Memory.value (m : Memory) (a : Nat) : Byte :=
  match Memory.read m a with
  | some v => v
  | none => Config.launchCell a

/-- The cells of the frame buffer: `CW * CH` (R60, R68). -/
def fbCells (s : State) : Nat := s.cw.toNat * s.ch.toNat

/-- `FbWrite(addr, v)` (R68): sets one cell and touches nothing else. -/
def fbWrite (a : Nat) (v : Byte) (s : State) : State := { s with fb := Memory.write s.fb a v }

/-! ### The code table store (R40 to R42, R141) -/

/-- The canonical form of the store: indexes strictly rising and below 4096. -/
abbrev Table.wf (t : Table) : Prop := sorted t ∧ ∀ p ∈ t, p.1 < Config.tableCap

/-- Entry `i` is defined (R42): a root, or appended since the last clear. -/
def definedEntry (s : State) (i : Nat) : Bool :=
  decide (i < clearCode s.n.toNat) ||
    (decide (initialCount s.n.toNat ≤ i) && decide (i < s.nent.toNat))

/-- `T[i]` (R141): the entry most recently written, if slot `i` holds a value the rules may use. Stale entries above
NENT do not count (R274). -/
def tableRead (s : State) (i : Nat) : Option Entry :=
  if definedEntry s i then getKey i s.table else none

/-- `T[i] <- e`. -/
def tableWrite (i : Nat) (e : Entry) (s : State) : State := { s with table := setKey i e s.table }

/-- The root entry `(len 1, prefix NONE, suffix k)` (R41, R142). -/
def rootEntry (k : Nat) : Entry := { len := 1, pre := Config.noPrefix, suf := BitVec.ofNat 8 k }

/-- The `2^n` roots in index order, from index `k` on. -/
def rootsFrom : Nat → Nat → Table
  | _, 0 => []
  | k, m + 1 => (k, rootEntry k) :: rootsFrom (k + 1) m

/-- `T[k] <- root` for every `k` below `2^n`; slots from `2^n` upward are not written (R142). -/
def writeRoots (n : Nat) (t : Table) : Table :=
  rootsFrom 0 (2 ^ n) ++ t.filter fun p => decide (2 ^ n ≤ p.1)

/-! ### Control state -/

/-- BUSY (R46): a run is in progress. -/
def Phase.busy : Phase → Bool
  | .hdr | .run | .drain => true
  | .idle | .done | .fault => false

/-- `raise Cause(info)` (R240): the one way a fault is taken. PHASE, CAUSE and ERRINFO are written and nothing else;
nothing is saved, there is no vector and no return (R244): only START, ABORT and reset leave FAULT. -/
def raise (c : Cause) (info : BitVec 12) (s : State) : State :=
  { s with cause := c, errinfo := info, phase := .fault }

/-- PREV holds no value any more: PREVV is cleared and PREV becomes a free value (R24, R37, U4, log 2). -/
def forgetPrev (s : State) : State :=
  { s with prevv := false, prev := Config.freePrev s.freeTick, freeTick := s.freeTick + 1 }

/-- The part START and ABORT share (R211, R216): every working register and flag to 0 and the table undefined; the
configuration, the frame buffer and the bytes not yet taken from the source are kept. The bytes that a waiting step has
taken are gone. -/
def wipe (s : State) : State :=
  let s := forgetPrev s
  { s with
    cause := .none, errinfo := 0, n := 0, kw := 0, nent := 0
    frozen := false, termseen := false, outoff := 0, bytecnt := 0
    subrem := 0, bitbuf := 0, bitcnt := 0, table := [], partway := [] }

/-! ### The byte source (R61, R120) -/

/-- How an operation that takes bytes of the source ends. -/
inductive Fetch (α : Type) where
  /-- a result, and the state after it -/
  | got (a : α) (s : State)
  /-- a fault was taken: the step ends in this state -/
  | raised (s : State)
  /-- the terminator was taken where a payload byte was needed: TERM is executed in this state -/
  | terminated (s : State)
  /-- the source has neither delivered the byte nor reported end of stream: the engine waits -/
  | waiting

/-- Go on with the result; every other ending stands. -/
def Fetch.andThen {α β : Type} (x : Fetch α) (f : α → State → Fetch β) : Fetch β :=
  match x with
  | .got a s => f a s
  | .raised s => .raised s
  | .terminated s => .terminated s
  | .waiting => .waiting

/-- `SrcNext()` (R120): the next byte, counted in BYTECNT modulo 2^32; TruncatedRead at end of stream. -/
def srcNext (s : State) : Fetch Byte :=
  match s.source with
  | b :: rest => .got b { s with source := rest, bytecnt := s.bytecnt + 1 }
  | [] => if s.sourceEnded then .raised (raise .truncatedRead 0 s) else .waiting

end Sys2Proof.Machine
end

