-- ==== Sys2Proof/Machine/Operands.lean ====
section
/-! DEFINITION. Operands: sub-block traversal and code extraction (40_bit_reader.md), the context that classifies a
code, and the string a table entry stands for (R143 to R145). -/

namespace Sys2Proof.Machine

/-! ### The code reader -/

/-- A non-zero length byte opens a data sub-block of that many payload bytes (R122, R128). -/
def loadSubBlock (l : Byte) (s : State) : State := { s with subrem := l }

/-- One payload byte fewer remains in the sub-block. -/
def countPayload (s : State) : State := { s with subrem := s.subrem - 1 }

/-- The first half of `NextDataByte` (R122): with SUBREM 0 the next byte is a length byte, and a zero one is the
terminator. -/
def openSubBlock (s : State) : Fetch Unit :=
  if s.subrem = 0 then
    (srcNext s).andThen fun l s1 =>
      if l = 0 then .terminated s1 else .got () (loadSubBlock l s1)
  else .got () s

/-- `NextDataByte()` (R122). -/
def nextDataByte (s : State) : Fetch Byte :=
  (openSubBlock s).andThen fun _ s1 =>
    (srcNext s1).andThen fun b s2 => .got b (countPayload s2)

/-- A new byte goes above the bits already held (R124). -/
def mergeByte (b : Byte) (s : State) : State :=
  { s with
    bitbuf := s.bitbuf ||| (b.setWidth 19 <<< s.bitcnt.toNat)
    bitcnt := s.bitcnt + 8 }

/-- The loop of `GetCode` (R124): take payload bytes until `w` bits are held. `fuel` bounds the bytes; a code of at
most 15 bits never needs more than two. -/
def gather (w : Nat) : Nat → State → Fetch Unit
  | 0, s => .got () s
  | fuel + 1, s =>
    if s.bitcnt.toNat < w then
      (nextDataByte s).andThen fun b s1 => gather w fuel (mergeByte b s1)
    else .got () s

/-- `BITBUF[w-1:0]`, zero-extended (R95, R124). -/
def lowBits (w : Nat) (s : State) : Code := BitVec.ofNat 12 (s.bitbuf.toNat % 2 ^ w)

/-- The `w` bits of the code leave the buffer; the rest stay for the next code (R124, R127). -/
def dropBits (w : Nat) (s : State) : State :=
  { s with bitbuf := s.bitbuf >>> w, bitcnt := s.bitcnt - BitVec.ofNat 5 w }

/-- `GetCode(KW)` (R124): the width is KW as it stands when the code is read (R271). -/
def getCode (s : State) : Fetch Code :=
  let w := s.kw.toNat
  (gather w 2 s).andThen fun _ s1 => .got (lowBits w s1) (dropBits w s1)

/-- Where a code step begins or goes on: it reads the bytes it took before it had to wait, then those of the source. -/
def resume (s : State) : State := { s with source := s.partway ++ s.source, partway := [] }

/-- Where a code step waits (R120, U9). `getCode` waits only once it has taken every byte the source held, so they are
all with the step now; the registers stay those of before the step until it is completed (R52, R67). -/
def stall (s : State) : State := { s with source := [], partway := s.partway ++ s.source }

/-- The state that decides a code's class (R100). -/
def codeCtx (s : State) : CodeCtx :=
  { n := s.n.toNat, nent := s.nent.toNat, frozen := s.frozen, prevv := s.prevv }

/-! ### Strings of table entries -/

/-- The walk of `First` (R144): follow prefix links to a root. `fuel` bounds the links. -/
def firstFrom (s : State) : Nat → Code → Option Byte
  | 0, _ => none
  | fuel + 1, c =>
    match tableRead s c.toNat with
    | none => none
    | some e => if e.pre = Config.noPrefix then some e.suf else firstFrom s fuel e.pre

/-- `First(c)` (R144). Prefixes strictly decrease (R41), so at most `c` links are followed. -/
def firstSymbol (s : State) (c : Code) : Option Byte := firstFrom s (c.toNat + 1) c

/-- `Len(c)` (R145). -/
def stringLength (s : State) (c : Code) : Option Nat :=
  match tableRead s c.toNat with
  | none => none
  | some e => some e.len.toNat

/-- The recursion of `Str` (R143), with `fuel` bounding the links. -/
def stringFrom (s : State) : Nat → Code → Option (List Byte)
  | 0, _ => none
  | fuel + 1, c =>
    match tableRead s c.toNat with
    | none => none
    | some e =>
      if e.pre = Config.noPrefix then some [e.suf]
      else
        match stringFrom s fuel e.pre with
        | none => none
        | some l => some (l ++ [e.suf])

/-- `Str(c)` (R143): the colour indices entry `c` expands to. -/
def stringOf (s : State) (c : Code) : Option (List Byte) := stringFrom s (c.toNat + 1) c

/-- The first symbol and the length of a table entry's string (R165, first part). -/
def symbolAndLength (s : State) (c : Code) : Option (Byte × Nat) :=
  match firstSymbol s c, stringLength s c with
  | some f, some l => some (f, l)
  | _, _ => none

end Sys2Proof.Machine
end

