-- ==== Sys2Proof/Machine/Flags.lean ====
section
/-! DEFINITION. Every computation of a flag or status bit: FROZEN and KW at an append, the table's initial condition,
and the STATUS word. -/

namespace Sys2Proof.Machine

/-- The last part of `Append` (R146 to R148): NENT counts the new entry; at 4096 the table freezes and KW stays; at
`2^KW` the next code is one bit wider. -/
def countEntry (s : State) : State :=
  let m := s.nent.toNat + 1
  if m = Config.tableCap then { s with nent := BitVec.ofNat 13 m, frozen := true }
  else if m = 2 ^ s.kw.toNat then
    { s with nent := BitVec.ofNat 13 m, kw := BitVec.ofNat 4 (s.kw.toNat + 1) }
  else { s with nent := BitVec.ofNat 13 m }

/-- NENT, KW and FROZEN of the initial table of code size `n`, and no previous code (R142, R149). -/
def initialCounts (n : Nat) (s : State) : State :=
  let s := forgetPrev s
  { s with
    nent := BitVec.ofNat 13 (initialCount n), kw := BitVec.ofNat 4 (n + 1), frozen := false }

/-- `TableInit(n)` (R142). -/
def tableInit (n : Nat) (s : State) : State :=
  initialCounts n { s with table := writeRoots n s.table }

/-- `TableClear()` (R149): the store is not rewritten; entries from the new NENT upward become stale. -/
def tableClear (s : State) : State := initialCounts s.n.toNat s

/-- The code of a phase in STATUS (R39). -/
def Phase.code : Phase → Nat
  | .idle => 0 | .hdr => 1 | .run => 2 | .drain => 3 | .done => 4 | .fault => 5

/-- The code of a cause in STATUS (R230). -/
def Cause.code : Cause → Nat
  | .none => 0 | .badGeometry => 1 | .badCodeSize => 2 | .truncatedRead => 3
  | .dataExhausted => 4 | .invalidCode => 5 | .outputOverrun => 6 | .outOfMemory => 7

/-- The STATUS word (R44, R46): PHASE 2:0, BUSY 3, CAUSE 7:4, FROZEN 8, PREVV 9, TERMSEEN 10, KW 15:12, N 19:16;
the other bits are reserved and read 0. -/
def statusWord (s : State) : CsrWord :=
  BitVec.ofNat 32
    (s.phase.code + 2 ^ 3 * s.phase.busy.toNat + 2 ^ 4 * s.cause.code
      + 2 ^ 8 * s.frozen.toNat + 2 ^ 9 * s.prevv.toNat + 2 ^ 10 * s.termseen.toNat
      + 2 ^ 12 * s.kw.toNat + 2 ^ 16 * s.n.toNat)

end Sys2Proof.Machine
end

