-- ==== Sys2Proof/Machine/Interlace.lean ====
section
/-! DEFINITION. The interlace row mapper, the pixel address, and the meaning of ROW (43_interlace.md). -/

namespace Sys2Proof.Machine

/-- Rows of pass 1 (R191). -/
def pass1 (h : Nat) : Nat := (h + 7) / 8
/-- Rows of pass 2 (R191). -/
def pass2 (h : Nat) : Nat := (h + 3) / 8
/-- Rows of pass 3 (R191). -/
def pass3 (h : Nat) : Nat := (h + 1) / 4

/-- The four passes of R192, on the function's domain. -/
def rowOnDomain (y h : Nat) : Nat :=
  if y < pass1 h then 8 * y
  else
    let y := y - pass1 h
    if y < pass2 h then 8 * y + 4
    else
      let y := y - pass2 h
      if y < pass3 h then 4 * y + 2
      else
        let y := y - pass3 h
        2 * y + 1

/-- `Row(y, h)` (R192), partial: defined for `y < h` only (R194, U7). -/
def rowOf (y h : Nat) : Option Nat := if y < h then some (rowOnDomain y h) else none

/-- `PixelAddr(p)` (R195), partial: defined for `p < FW * FH`. The remap is of the row only. -/
def pixelAddr (s : State) (p : Nat) : Option Nat :=
  if p < s.fw.toNat * s.fh.toNat then
    let x := p % s.fw.toNat
    let y := p / s.fw.toNat
    match if s.interlace then rowOf y s.fh.toNat else some y with
    | none => none
    | some y' => some ((s.fy.toNat + y') * s.cw.toNat + (s.fx.toNat + x))
  else none

/-- ROW: the function of R192 on its own. It reads and writes no state of the engine; its value is what the model's
`returned` field holds afterwards (log 11). -/
def execRow (y h : BitVec 16) (s : State) : Host.Outcome State Fault Refusal :=
  match rowOf y.toNat h.toNat with
  | some r => .next { s with returned := some (BitVec.ofNat 32 r) }
  | none => .refused .rowOutsideDomain

end Sys2Proof.Machine
end

