-- ==== Sys2Proof/Machine/DataCodes.lean ====
section
/-! DEFINITION. Data codes: Append, Emit, DataCode and the meanings of LIT, REF, KWK and ILLEGAL
(41_code_table.md R146 to R148, 42_lzw_decoder.md R165 to R173). -/

namespace Sys2Proof.Machine

/-- A meaning of a code item runs when its table row's condition holds: phase RUN and the row's condition on N and the
code (R100, R161). -/
def whenCodeFits (i : Instr) (s : State) (meaning : Host.Outcome State Fault Refusal) :
    Host.Outcome State Fault Refusal :=
  if s.phase = .run ∧ fitsCode (codeCtx s) i then meaning else .refused .notEnabled

/-- How a part of a data-code step ends: it goes on, a fault is taken, or the model stops. -/
inductive Progress where
  | ok (s : State)
  | raised (s : State)
  | stop (f : Fault)

/-- `Append(f)` while code `c` is processed (R146): OutOfMemory before any write, else the entry `(T[PREV].len + 1,
PREV, f)` at index NENT. -/
def append (c : Code) (f : Byte) (s : State) : Progress :=
  if s.tableMem ≤ s.nent.toNat then .raised (raise .outOfMemory c s)
  else
    match tableRead s s.prev.toNat with
    | none => .stop .undefinedEntry
    | some p =>
      .ok (countEntry (tableWrite s.nent.toNat { len := p.len + 1, pre := s.prev, suf := f } s))

/-- Step (3) of R165: grow the table unless it is frozen or there is no previous code. -/
def grow (c : Code) (f : Byte) (s : State) : Progress :=
  if !s.frozen && s.prevv then append c f s else .ok s

/-- The walk of `Emit` (R172): `count` symbols from entry `e`, the last of the string at the highest offset first. -/
def emit (e : Code) : Nat → State → Progress
  | 0, s => .ok s
  | i + 1, s =>
    match tableRead s e.toNat with
    | none => .stop .undefinedEntry
    | some x =>
      match pixelAddr s (s.outoff.toNat + i) with
      | none => .stop .pixelOutsideRectangle
      | some a =>
        if a < fbCells s then emit x.pre i (fbWrite a x.suf s) else .stop .frameBufferAddress

/-- Step (5) of R165: the offset moves by the whole length, the code becomes the previous one. -/
def finishCode (c : Code) (len : Nat) (s : State) : State :=
  { s with outoff := BitVec.ofNat 32 (s.outoff.toNat + len), prev := c, prevv := true }

/-- Steps (3) to (5) of R165. -/
def growEmitFinish (c : Code) (f : Byte) (len : Nat) (s : State) : Host.Outcome State Fault Refusal :=
  match grow c f s with
  | .raised s1 => .next s1
  | .stop r => .fault r
  | .ok s1 =>
    match emit c len s1 with
    | .ok s2 => .next (finishCode c len s2)
    | .raised s2 => .next s2
    | .stop r => .fault r

/-- `DataCode(c)` after its classification (R162, R165): the overrun check before anything is written (R171), then
append, emission and bookkeeping. -/
def dataCode (c : Code) (fl : Option (Byte × Nat)) (s : State) : Host.Outcome State Fault Refusal :=
  match fl with
  | none => .fault .undefinedEntry
  | some (f, len) =>
    if s.fw.toNat * s.fh.toNat < s.outoff.toNat + len then .next (raise .outputOverrun c s)
    else growEmitFinish c f len s

/-- LIT with colour index `k`: `f = c`, `L = 1` (R166). -/
def literal (k : Byte) (s : State) : Host.Outcome State Fault Refusal :=
  dataCode (k.setWidth 12) (some (k, 1)) s

/-- LIT.N2 (R166). -/
def execLitN2 (k : BitVec 2) (s : State) : Host.Outcome State Fault Refusal :=
  whenCodeFits (.litN2 k) s (literal (k.setWidth 8) s)
/-- LIT.N3 (R166). -/
def execLitN3 (k : BitVec 3) (s : State) : Host.Outcome State Fault Refusal :=
  whenCodeFits (.litN3 k) s (literal (k.setWidth 8) s)
/-- LIT.N4 (R166). -/
def execLitN4 (k : BitVec 4) (s : State) : Host.Outcome State Fault Refusal :=
  whenCodeFits (.litN4 k) s (literal (k.setWidth 8) s)
/-- LIT.N5 (R166). -/
def execLitN5 (k : BitVec 5) (s : State) : Host.Outcome State Fault Refusal :=
  whenCodeFits (.litN5 k) s (literal (k.setWidth 8) s)
/-- LIT.N6 (R166). -/
def execLitN6 (k : BitVec 6) (s : State) : Host.Outcome State Fault Refusal :=
  whenCodeFits (.litN6 k) s (literal (k.setWidth 8) s)
/-- LIT.N7 (R166). -/
def execLitN7 (k : BitVec 7) (s : State) : Host.Outcome State Fault Refusal :=
  whenCodeFits (.litN7 k) s (literal (k.setWidth 8) s)
/-- LIT.N8 (R166). -/
def execLitN8 (k : BitVec 8) (s : State) : Host.Outcome State Fault Refusal :=
  whenCodeFits (.litN8 k) s (literal (k.setWidth 8) s)

/-- REF: `f = First(c)`, `L = T[c].len` (R167). -/
def execRef (c : Code) (s : State) : Host.Outcome State Fault Refusal :=
  whenCodeFits (.ref c) s (dataCode c (symbolAndLength s c) s)

/-- First symbol and length of the string of a KWK code: those of `Str(PREV) ++ [First(PREV)]` (R169). -/
def kwkSymbolAndLength (s : State) : Option (Byte × Nat) :=
  match symbolAndLength s s.prev with
  | none => none
  | some (f, l) => some (f, l + 1)

/-- KWK: `f = First(PREV)`, `L = T[PREV].len + 1`; the emission reads the entry just appended (R169, R273). -/
def execKwk (c : Code) (s : State) : Host.Outcome State Fault Refusal :=
  whenCodeFits (.kwk c) s (dataCode c (kwkSymbolAndLength s) s)

/-- ILLEGAL: `raise InvalidCode(c)` (R170). -/
def execIllegal (c : Code) (s : State) : Host.Outcome State Fault Refusal :=
  whenCodeFits (.illegal c) s (.next (raise .invalidCode c s))

end Sys2Proof.Machine
end

