-- ==== Sys2Proof/Machine/Sentinels.lean ====
section
/-! DEFINITION. The sentinel codes: the meanings of CLR (R163) and STOP (R164), one for each code size. -/

namespace Sys2Proof.Machine

/-- STOP (R164): the drain follows; nothing is emitted and the table is not changed. -/
def stopRun (s : State) : State := { s with phase := .drain }

/-- CLR.N2 (R163). -/
def execClrN2 (s : State) : Host.Outcome State Fault Refusal := whenCodeFits .clrN2 s (.next (tableClear s))
/-- CLR.N3 (R163). -/
def execClrN3 (s : State) : Host.Outcome State Fault Refusal := whenCodeFits .clrN3 s (.next (tableClear s))
/-- CLR.N4 (R163). -/
def execClrN4 (s : State) : Host.Outcome State Fault Refusal := whenCodeFits .clrN4 s (.next (tableClear s))
/-- CLR.N5 (R163). -/
def execClrN5 (s : State) : Host.Outcome State Fault Refusal := whenCodeFits .clrN5 s (.next (tableClear s))
/-- CLR.N6 (R163). -/
def execClrN6 (s : State) : Host.Outcome State Fault Refusal := whenCodeFits .clrN6 s (.next (tableClear s))
/-- CLR.N7 (R163). -/
def execClrN7 (s : State) : Host.Outcome State Fault Refusal := whenCodeFits .clrN7 s (.next (tableClear s))
/-- CLR.N8 (R163). -/
def execClrN8 (s : State) : Host.Outcome State Fault Refusal := whenCodeFits .clrN8 s (.next (tableClear s))

/-- STOP.N2 (R164). -/
def execStopN2 (s : State) : Host.Outcome State Fault Refusal := whenCodeFits .stopN2 s (.next (stopRun s))
/-- STOP.N3 (R164). -/
def execStopN3 (s : State) : Host.Outcome State Fault Refusal := whenCodeFits .stopN3 s (.next (stopRun s))
/-- STOP.N4 (R164). -/
def execStopN4 (s : State) : Host.Outcome State Fault Refusal := whenCodeFits .stopN4 s (.next (stopRun s))
/-- STOP.N5 (R164). -/
def execStopN5 (s : State) : Host.Outcome State Fault Refusal := whenCodeFits .stopN5 s (.next (stopRun s))
/-- STOP.N6 (R164). -/
def execStopN6 (s : State) : Host.Outcome State Fault Refusal := whenCodeFits .stopN6 s (.next (stopRun s))
/-- STOP.N7 (R164). -/
def execStopN7 (s : State) : Host.Outcome State Fault Refusal := whenCodeFits .stopN7 s (.next (stopRun s))
/-- STOP.N8 (R164). -/
def execStopN8 (s : State) : Host.Outcome State Fault Refusal := whenCodeFits .stopN8 s (.next (stopRun s))

end Sys2Proof.Machine
end

