-- ==== Sys2Proof/Machine/Container.lean ====
section
/-! DEFINITION. The container bytes: the meanings of CODESIZE (R213), SUBLEN and TERM (R122, R128), each applied after
`SrcNext` has taken the byte. -/

namespace Sys2Proof.Machine

/-- CODESIZE (R213): outside 2 to 8 BadCodeSize with the byte; else N, the initial table and phase RUN. -/
def execCodesize (b : Byte) (s : State) : Host.Outcome State Fault Refusal :=
  if s.phase = .hdr then
    if b.toNat < Config.minN ∨ Config.maxN < b.toNat then
      .next (raise .badCodeSize (b.setWidth 12) s)
    else
      .next { tableInit b.toNat { s with n := b.setWidth 4 } with phase := .run }
  else .refused .notEnabled

/-- A length byte is due: phase RUN or DRAIN with SUBREM 0 (R121). -/
def lengthDue (s : State) : Bool := (s.phase == .run || s.phase == .drain) && s.subrem == 0

/-- SUBLEN (R122, R128): the length byte opens a data sub-block. -/
def execSublen (l : Byte) (s : State) : Host.Outcome State Fault Refusal :=
  if lengthDue s ∧ l ≠ 0 then .next (loadSubBlock l s) else .refused .notEnabled

/-- TERM: TERMSEEN is set; in RUN payload was still needed, DataExhausted (R122); in DRAIN the run is done (R128). -/
def execTerm (s : State) : Host.Outcome State Fault Refusal :=
  if lengthDue s then
    let s1 := { s with termseen := true }
    if s.phase = .run then .next (raise .dataExhausted 0 s1) else .next { s1 with phase := .done }
  else .refused .notEnabled

end Sys2Proof.Machine
end

