-- ==== Sys2Proof/Machine/HostControl.lean ====
section
/-! DEFINITION. Host control (44_host_control.md): the meanings of START and ABORT, the CSR map (R44), and the host's
other accesses. -/

namespace Sys2Proof.Machine

/-- The frame rectangle lies in the canvas; sums on naturals (R212). -/
def geometryFits (s : State) : Bool :=
  decide (s.fx.toNat + s.fw.toNat ≤ s.cw.toNat) && decide (s.fy.toNat + s.fh.toNat ≤ s.ch.toNat)

/-- START (R211, R212): ignored while BUSY (R217). -/
def execStart (s : State) : Host.Outcome State Fault Refusal :=
  if s.phase.busy then .next s
  else if geometryFits s then .next { wipe s with phase := .hdr }
  else .next (raise .badGeometry 0 (wipe s))

/-- ABORT (R216): in every phase to IDLE. -/
def execAbort (s : State) : Host.Outcome State Fault Refusal := .next { wipe s with phase := .idle }

/-- Two 16-bit fields as one CSR word, the first in bits 15:0. -/
def pairWord (lo hi : BitVec 16) : CsrWord := hi ++ lo

/-- A CSR read (R44, R215): the register's value, reserved bits 0; CTRL and every other offset read 0. -/
def csrRead (off : CsrWord) (s : State) : CsrWord :=
  if off = 0x04 then statusWord s
  else if off = 0x08 then pairWord s.cw s.ch
  else if off = 0x0C then pairWord s.fx s.fy
  else if off = 0x10 then pairWord s.fw s.fh
  else if off = 0x14 then BitVec.ofNat 32 s.interlace.toNat
  else if off = 0x18 then s.outoff
  else if off = 0x1C then s.nent.setWidth 32
  else if off = 0x20 then s.errinfo.setWidth 32
  else if off = 0x24 then s.bytecnt
  else 0

/-- A CSR write other than a CTRL command (R44, R215): the four configuration registers take their fields when the
engine is not BUSY; every other write is ignored. -/
def csrWriteConfig (off v : CsrWord) (s : State) : State :=
  if s.phase.busy then s
  else if off = 0x08 then { s with cw := v.setWidth 16, ch := (v >>> 16).setWidth 16 }
  else if off = 0x0C then { s with fx := v.setWidth 16, fy := (v >>> 16).setWidth 16 }
  else if off = 0x10 then { s with fw := v.setWidth 16, fh := (v >>> 16).setWidth 16 }
  else if off = 0x14 then { s with interlace := v.getLsbD 0 }
  else s

/-- Hardware reset (R260, R261): the engine as `State.reset`, the bytes of a waiting step lost; the frame buffer, the
source, the agents' turns, the parameter of the instance and the model's own fields are not the engine's and are kept. -/
def hardReset (s : State) : State :=
  { State.reset with
    tableMem := s.tableMem, source := s.source, sourceEnded := s.sourceEnded
    fb := s.fb, turns := s.turns, returned := s.returned, freeTick := s.freeTick }

/-- A host frame-buffer read: allowed when the engine is not BUSY (R60, R76, R77). -/
def hostFbRead (addr : CsrWord) (s : State) : Host.Outcome State Fault Refusal :=
  if s.phase.busy then .refused .frameBufferWhileBusy
  else .next { s with returned := some ((Memory.value s.fb addr.toNat).setWidth 32) }

/-- A host frame-buffer write: allowed when the engine is not BUSY (R60, R77). -/
def hostFbWrite (addr : CsrWord) (v : Byte) (s : State) : Host.Outcome State Fault Refusal :=
  if s.phase.busy then .refused .frameBufferWhileBusy else .next (fbWrite addr.toNat v s)

/-- The host positions the byte source (R218, R262): what it will deliver from now on. -/
def positionSource (bytes : List Byte) (ended : Bool) (s : State) : Host.Outcome State Fault Refusal :=
  if s.phase.busy then .refused .sourceWhileBusy
  else .next { s with source := bytes, sourceEnded := ended }

end Sys2Proof.Machine
end

