-- ==== Sys2Proof/Machine/Dispatch.lean ====
section
/-! DEFINITION. One meaning for each row of the opcode table. -/

namespace Sys2Proof.Machine

/-- The meaning of every item, one arm each. -/
def exec (i : Instr) (s : State) : Host.Outcome State Fault Refusal :=
  match i with
  | .clrN2 => Sys2Proof.Machine.execClrN2 s
  | .stopN2 => Sys2Proof.Machine.execStopN2 s
  | .litN2 k => Sys2Proof.Machine.execLitN2 k s
  | .clrN3 => Sys2Proof.Machine.execClrN3 s
  | .stopN3 => Sys2Proof.Machine.execStopN3 s
  | .litN3 k => Sys2Proof.Machine.execLitN3 k s
  | .clrN4 => Sys2Proof.Machine.execClrN4 s
  | .stopN4 => Sys2Proof.Machine.execStopN4 s
  | .litN4 k => Sys2Proof.Machine.execLitN4 k s
  | .clrN5 => Sys2Proof.Machine.execClrN5 s
  | .stopN5 => Sys2Proof.Machine.execStopN5 s
  | .litN5 k => Sys2Proof.Machine.execLitN5 k s
  | .clrN6 => Sys2Proof.Machine.execClrN6 s
  | .stopN6 => Sys2Proof.Machine.execStopN6 s
  | .litN6 k => Sys2Proof.Machine.execLitN6 k s
  | .clrN7 => Sys2Proof.Machine.execClrN7 s
  | .stopN7 => Sys2Proof.Machine.execStopN7 s
  | .litN7 k => Sys2Proof.Machine.execLitN7 k s
  | .clrN8 => Sys2Proof.Machine.execClrN8 s
  | .stopN8 => Sys2Proof.Machine.execStopN8 s
  | .litN8 k => Sys2Proof.Machine.execLitN8 k s
  | .ref c => Sys2Proof.Machine.execRef c s
  | .kwk c => Sys2Proof.Machine.execKwk c s
  | .illegal c => Sys2Proof.Machine.execIllegal c s
  | .codesize b => Sys2Proof.Machine.execCodesize b s
  | .sublen l => Sys2Proof.Machine.execSublen l s
  | .term => Sys2Proof.Machine.execTerm s
  | .start => Sys2Proof.Machine.execStart s
  | .abort => Sys2Proof.Machine.execAbort s
  | .row y h => Sys2Proof.Machine.execRow y h s

end Sys2Proof.Machine
end

