-- ==== Sys2Proof/Machine/Engine.lean ====
section
/-! DEFINITION. One move of an agent: the engine's header, code and drain steps with their fetch, the host's accesses,
the byte source; and where a table word is placed to be fetched. -/

namespace Sys2Proof.Machine

/-- Finish an engine step: go on with what was fetched, end in a fault taken, execute TERM where the terminator was
taken, or wait in state `w` (R120, R122, U9). -/
def Fetch.finish {α : Type} (x : Fetch α) (w : State)
    (k : α → State → Host.Outcome State Fault Refusal) : Host.Outcome State Fault Refusal :=
  match x with
  | .got a s => k a s
  | .raised s => .next s
  | .terminated s => exec .term s
  | .waiting => .next w

/-- The header step (R213). It takes one byte, so a step that waits has taken none. -/
def headerStep (s : State) : Host.Outcome State Fault Refusal :=
  (srcNext s).finish s fun b s1 => exec (.codesize b) s1

/-- The code step (R161): read one code, classify it, carry it out. A step that has to wait keeps the bytes it took. -/
def codeStep (s : State) : Host.Outcome State Fault Refusal :=
  (getCode (resume s)).finish (stall s) fun c s1 =>
    match decodeCode (codeCtx s1) c with
    | some i => exec i s1
    | none => .refused .noCodeSize

/-- The drain step (R128): one byte of the source, discarded payload or a length byte. -/
def drainStep (s : State) : Host.Outcome State Fault Refusal :=
  (srcNext s).finish s fun b s1 =>
    if s.subrem = 0 then exec (decodeLength b) s1 else .next (countPayload s1)

/-- The engine's move: a function of PHASE alone; in IDLE, DONE and FAULT no engine step is enabled and the engine
stays as it is (R175, R251). -/
def engineStep (s : State) : Host.Outcome State Fault Refusal :=
  match s.phase with
  | .hdr => headerStep s
  | .run => codeStep s
  | .drain => drainStep s
  | .idle | .done | .fault => .next s

/-- A CSR write (R44, R45): to CTRL a command, if the word holds one; elsewhere `csrWriteConfig`. -/
def csrWrite (off v : CsrWord) (s : State) : Host.Outcome State Fault Refusal :=
  if off = 0 then
    match decodeCtrl v with
    | some i => exec i s
    | none => .next s
  else .next (csrWriteConfig off v s)

/-- The host's move. -/
def hostStep (op : HostOp) (s : State) : Host.Outcome State Fault Refusal :=
  match op with
  | .csrRead off => .next { s with returned := some (csrRead off s) }
  | .csrWrite off v => csrWrite off v s
  | .fbRead addr => hostFbRead addr s
  | .fbWrite addr v => hostFbWrite addr v s
  | .positionSource bytes ended => positionSource bytes ended s
  | .reset => .next (hardReset s)

/-- The byte source makes one more byte available; after end of stream there is none (log 16). -/
def deliver (b : Byte) (s : State) : State :=
  if s.sourceEnded then s else { s with source := s.source ++ [b] }

/-- One move of the agent whose turn it is. -/
def takeTurn (t : Turn) (s : State) : Host.Outcome State Fault Refusal :=
  match t with
  | .engine => engineStep s
  | .host op => hostStep op s
  | .deliver b => .next (deliver b s)
  | .endOfStream => .next { s with sourceEnded := true }

/-- The next move: the head of the turns, or the engine when none is listed (log 7). -/
def nextMove (s : State) : Host.Outcome State Fault Refusal :=
  match s.turns with
  | [] => engineStep s
  | t :: rest => takeTurn t { s with turns := rest }

/-- A code of the opcode table placed to be the next thing the engine executes: phase RUN with the initial table of
the code size it is decoded in, and a two-byte sub-block holding it at bit 0 (log 8). -/
def placeCode (w : Nat) (s : State) : State :=
  let n := tableCodeSize w
  { s with
    phase := .run, n := BitVec.ofNat 4 n, kw := BitVec.ofNat 4 (tableWidth w)
    nent := BitVec.ofNat 13 (initialCount n), frozen := false, prevv := false
    table := writeRoots n s.table
    subrem := 0, bitbuf := 0, bitcnt := 0
    source := 2 :: (leBytes 2 w ++ s.source), partway := [], turns := [] }

/-- A container byte placed to be drained: phase DRAIN with a length byte due (log 8). -/
def placeLengthByte (w : Nat) (s : State) : State :=
  { s with phase := .drain, subrem := 0, source := leBytes 1 w ++ s.source, turns := [] }

/-- A CTRL word placed as the host's next move (log 8). -/
def placeCtrl (w : Nat) (s : State) : State :=
  { s with turns := [.host (.csrWrite 0 (BitVec.ofNat 32 w))] }

/-- A table word placed where the next step finds it, by the same case split as `decodeTableWord`. -/
def placeTableWord (nbits w : Nat) (s : State) : State :=
  if nbits ≤ 8 then if isCtrlByte w then placeCtrl w s else placeLengthByte w s
  else if nbits ≤ 16 then placeCode w s
  else placeCtrl w s

end Sys2Proof.Machine
end

