-- ==== Sys2Proof/Machine/Step.lean ====
section
/-! DEFINITION. One step of the system. -/

namespace Sys2Proof.Machine

/-- One atomic step (R12): the next move of the agents. -/
def step (s : State) : Host.Outcome State Fault Refusal := nextMove s

/-- `s` with a word of the opcode table placed so that the next step runs it (log 8). -/
def State.withFetchWord (s : State) (nbits w : Nat) : State := placeTableWord nbits w s

end Sys2Proof.Machine
end

