-- ==== Sys2Proof/Safety.lean ====
section
/-! DEFINITION. What claims speak about: the invariant of the machine (R22 to R42, R150, R270), the payload a cursor
still has before it (R32, R123), and which agent moves next. -/

namespace Sys2Proof.Machine

/-- `k` is `PREV`-worthy or a prefix: a defined entry whose slot holds a value (R42). -/
def holdsEntry (s : State) (k : Nat) : Prop := ∃ e, tableRead s k = some e

/-- The table registers and the store after the header step (R21 to R24, R36, R37, R41, R42, R147, R168, R270). -/
structure Built (s : State) : Prop where
  codeSize : 2 ≤ s.n.toNat ∧ s.n.toNat ≤ 8
  width : s.n.toNat + 1 ≤ s.kw.toNat ∧ s.kw.toNat ≤ 12
  count : initialCount s.n.toNat ≤ s.nent.toNat ∧ s.nent.toNat ≤ 4096
  frozenFull : s.frozen = true ↔ s.nent.toNat = 4096
  frozenWidth : s.frozen = true → s.kw.toNat = 12
  openWidth : s.frozen = false → 2 ^ (s.kw.toNat - 1) ≤ s.nent.toNat ∧ s.nent.toNat < 2 ^ s.kw.toNat
  roots : ∀ k, k < clearCode s.n.toNat → getKey k s.table = some (rootEntry k)
  appended : ∀ k, initialCount s.n.toNat ≤ k → k < s.nent.toNat →
    ∃ e p, getKey k s.table = some e ∧ tableRead s e.pre.toNat = some p ∧ e.pre.toNat < k ∧
      e.len.toNat = p.len.toNat + 1 ∧ e.len.toNat + clearCode s.n.toNat ≤ k ∧
      e.suf.toNat < clearCode s.n.toNat
  sentinelSlots : getKey (clearCode s.n.toNat) s.table = none ∧ getKey (stopCode s.n.toNat) s.table = none
  previous : s.prevv = true → holdsEntry s s.prev.toNat
  noPrevious : s.prevv = false → s.nent.toNat = initialCount s.n.toNat

/-- No table yet: the registers of the table are 0 and no slot holds a value (10_state.md section 9, U3). -/
structure Unbuilt (s : State) : Prop where
  registers : s.n = 0 ∧ s.kw = 0 ∧ s.nent = 0
  flags : s.frozen = false ∧ s.prevv = false
  store : s.table = []
  nothingOut : s.outoff = 0

/-- The cursor has not moved since START, ABORT or reset. -/
structure Rewound (s : State) : Prop where
  cursor : s.subrem = 0 ∧ s.bitbuf = 0 ∧ s.bitcnt = 0
  taken : s.bytecnt = 0
  terminator : s.termseen = false

/-- The invariant every step keeps. -/
structure Inv (s : State) : Prop where
  frameBuffer : Memory.wf s.fb
  store : Table.wf s.table
  parameter : 258 ≤ s.tableMem ∧ s.tableMem ≤ 4096
  causeInFault : s.cause = .none ↔ s.phase ≠ .fault
  infoWithCause : s.cause = .none → s.errinfo = 0
  beforeHeader : s.phase = .idle ∨ s.phase = .hdr → Unbuilt s ∧ Rewound s
  afterHeader : s.phase = .run ∨ s.phase = .drain ∨ s.phase = .done → Built s
  inFault : s.phase = .fault → Built s ∨ Unbuilt s
  geometry : s.phase.busy = true → geometryFits s = true
  offset : s.phase.busy = true → s.outoff.toNat ≤ s.fw.toNat * s.fh.toNat
  bitsHeld : s.bitbuf.toNat < 2 ^ s.bitcnt.toNat
  bitCount : s.bitcnt.toNat ≤ 11 ∧ (s.phase ≠ .fault → s.bitcnt.toNat ≤ 7)
  /-- Only a code step takes bytes it may have to keep while it waits. -/
  notPartway : s.phase ≠ .run → s.partway = []
  terminator : (s.phase = .done → s.termseen = true) ∧ (s.phase.busy = true → s.termseen = false)

/-- The payload bytes of the sub-blocks still before the cursor, `r` of them left in the current sub-block: the
concatenation R123 speaks of, up to the terminator or the end of the bytes. -/
def payloadFrom : Nat → List Byte → List Byte
  | _, [] => []
  | 0, l :: rest => if l = 0 then [] else payloadFrom l.toNat rest
  | r + 1, b :: rest => b :: payloadFrom r rest

/-- The payload before the cursor of a state. -/
def payload (s : State) : List Byte := payloadFrom s.subrem.toNat s.source

/-- Whether the terminator stands after that payload; without it the bytes end first. -/
def terminatorAfter : Nat → List Byte → Bool
  | _, [] => false
  | 0, l :: rest => if l = 0 then true else terminatorAfter l.toNat rest
  | r + 1, _ :: rest => terminatorAfter r rest

/-- See `terminatorAfter`, for the cursor of a state. -/
def terminatorStands (s : State) : Bool := terminatorAfter s.subrem.toNat s.source

/-- The unread bits as one number, the next bit lowest (R32, R64): the bits held, then the payload. -/
def unreadBits (s : State) : Nat := s.bitbuf.toNat + 2 ^ s.bitcnt.toNat * leNat (payload s)

/-- How many bits `unreadBits` has. -/
def unreadCount (s : State) : Nat := s.bitcnt.toNat + 8 * (payload s).length

/-- Everything but the stream cursor and the source is the same (R129, R241). -/
def sameBesidesCursor (s t : State) : Prop :=
  { t with
    subrem := s.subrem, bitbuf := s.bitbuf, bitcnt := s.bitcnt, bytecnt := s.bytecnt, source := s.source } = s

/-- The host's move is one the spec forbids while a run is in progress (R77, R218, R275). -/
def forbiddenWhileBusy : Turn → Bool
  | .host (.fbRead _) | .host (.fbWrite _ _) | .host (.positionSource _ _) => true
  | .host (.csrRead _) | .host (.csrWrite _ _) | .host .reset | .engine | .deliver _ | .endOfStream => false

/-- The next move is the engine's. -/
def engineMoves (s : State) : Bool :=
  match s.turns with
  | [] => true
  | t :: _ => t == .engine

/-- The state an engine move acts on: `s` without the turn it takes. -/
def afterTurn (s : State) : State := { s with turns := s.turns.tail }

end Sys2Proof.Machine
end

