-- ==== Sys2Proof/Certificates/Slice0/Obligations.lean ====
section
/-! DEFINITION. The statements about the engine for the provers. Each docstring names the rule it follows and what is
the model's own choice in it. -/

namespace Sys2Proof.Claims

open Sys2Proof.Machine

/-! ### What a data code does (R165, R162) -/

/-- One entry was appended (R146 to R148): `(T[PREV].len + 1, PREV, f)` at index NENT, the count one higher, FROZEN set
exactly at 4096, KW one wider exactly when the count reaches `2^KW` below 4096; every other slot is as before. -/
structure Grows (f : Byte) (s t : State) : Prop where
  count : t.nent.toNat = s.nent.toNat + 1
  entry : ∃ p, tableRead s s.prev.toNat = some p ∧
    getKey s.nent.toNat t.table = some { len := p.len + 1, pre := s.prev, suf := f }
  others : ∀ k, k ≠ s.nent.toNat → getKey k t.table = getKey k s.table
  frozen : t.frozen = true ↔ s.nent.toNat + 1 = 4096
  width : t.kw.toNat =
    if s.nent.toNat + 1 = 2 ^ s.kw.toNat ∧ s.nent.toNat + 1 ≠ 4096 then s.kw.toNat + 1 else s.kw.toNat

/-- The table is as before. -/
structure TableKept (s t : State) : Prop where
  registers : t.nent = s.nent ∧ t.kw = s.kw ∧ t.frozen = s.frozen
  store : t.table = s.table

/-- Symbol `j` of the string stands in the cell of output offset `OUTOFF + j`; every other cell is as before (R172,
R68). -/
structure PixelsWritten (str : List Byte) (s t : State) : Prop where
  written : ∀ j v, str[j]? = some v →
    ∃ a, pixelAddr s (s.outoff.toNat + j) = some a ∧ Memory.read t.fb a = some v
  kept : ∀ a, (∀ j, j < str.length → pixelAddr s (s.outoff.toNat + j) ≠ some a) →
    Memory.read t.fb a = Memory.read s.fb a

/-- A data code `c` with string `str` and first symbol `f` took effect: the table grew unless frozen or without a
previous code, the string was written, OUTOFF moved by its length, `c` is the previous code, and nothing else
changed. -/
structure DataCodeDone (c : Code) (str : List Byte) (f : Byte) (s t : State) : Prop where
  grown : s.frozen = false ∧ s.prevv = true → Grows f s t
  notGrown : ¬(s.frozen = false ∧ s.prevv = true) → TableKept s t
  pixels : PixelsWritten str s t
  offset : t.outoff.toNat = s.outoff.toNat + str.length
  previous : t.prev = c ∧ t.prevv = true
  rest : { t with
    nent := s.nent, kw := s.kw, frozen := s.frozen, table := s.table, fb := s.fb
    outoff := s.outoff, prev := s.prev, prevv := s.prevv } = s

/-- `L` more pixels fit in the frame rectangle (R171). -/
def roomFor (s : State) (L : Nat) : Prop := s.outoff.toNat + L ≤ s.fw.toNat * s.fh.toNat

/-- An append finds a slot in the store, if this code makes one (R146). -/
def storeHasRoom (s : State) : Prop := s.frozen = false → s.prevv = true → s.nent.toNat < s.tableMem

/-- A code of class LIT, REF or KWK at `s`, with the string it stands for and the string's first symbol (R165 to R169):
a LIT its index, a REF the string of its entry, a KWK the previous string and its own first symbol. -/
inductive DataCodeAt (s : State) : Instr → Code → List Byte → Byte → Prop
  | litN2 (k : BitVec 2) (h : s.n.toNat = 2) : DataCodeAt s (.litN2 k) (k.setWidth 12) [k.setWidth 8] (k.setWidth 8)
  | litN3 (k : BitVec 3) (h : s.n.toNat = 3) : DataCodeAt s (.litN3 k) (k.setWidth 12) [k.setWidth 8] (k.setWidth 8)
  | litN4 (k : BitVec 4) (h : s.n.toNat = 4) : DataCodeAt s (.litN4 k) (k.setWidth 12) [k.setWidth 8] (k.setWidth 8)
  | litN5 (k : BitVec 5) (h : s.n.toNat = 5) : DataCodeAt s (.litN5 k) (k.setWidth 12) [k.setWidth 8] (k.setWidth 8)
  | litN6 (k : BitVec 6) (h : s.n.toNat = 6) : DataCodeAt s (.litN6 k) (k.setWidth 12) [k.setWidth 8] (k.setWidth 8)
  | litN7 (k : BitVec 7) (h : s.n.toNat = 7) : DataCodeAt s (.litN7 k) (k.setWidth 12) [k.setWidth 8] (k.setWidth 8)
  | litN8 (k : BitVec 8) (h : s.n.toNat = 8) : DataCodeAt s (.litN8 k) (k.setWidth 12) [k] k
  | ref (c : Code) (f : Byte) (l : List Byte) (low : 2 ^ s.n.toNat + 2 ≤ c.toNat) (high : c.toNat < s.nent.toNat)
      (str : stringOf s c = some (f :: l)) : DataCodeAt s (.ref c) c (f :: l) f
  | kwk (c : Code) (f : Byte) (l : List Byte) (next : c.toNat = s.nent.toNat) (notFrozen : s.frozen = false)
      (hasPrev : s.prevv = true) (str : stringOf s s.prev = some (f :: l)) :
      DataCodeAt s (.kwk c) c (f :: l ++ [f]) f

/-! ### The other items -/

/-- CLR took effect (R163, R149): the counts of the initial table of code size `n`, no previous code, and nothing else
changed; PREV and the model's counter of free values are not constrained. -/
def ClearDone (n : Nat) (s t : State) : Prop :=
  t.nent.toNat = 2 ^ n + 2 ∧ t.kw.toNat = n + 1 ∧ t.frozen = false ∧ t.prevv = false ∧
  { t with
    nent := s.nent, kw := s.kw, frozen := s.frozen, prevv := s.prevv, prev := s.prev, freeTick := s.freeTick } = s

/-- The initial table of code size `n` was built (R142, R213): roots, counts, no previous code, N and PHASE; the slots
from `2^n` on and everything else are as before. -/
def HeaderDone (n : Nat) (s t : State) : Prop :=
  t.n.toNat = n ∧ t.phase = .run ∧
  t.nent.toNat = 2 ^ n + 2 ∧ t.kw.toNat = n + 1 ∧ t.frozen = false ∧ t.prevv = false ∧
  (∀ k, k < 2 ^ n → getKey k t.table = some { len := 1, pre := 0xFFF, suf := BitVec.ofNat 8 k }) ∧
  (∀ k, 2 ^ n ≤ k → getKey k t.table = getKey k s.table) ∧
  { t with
    n := s.n, phase := s.phase, nent := s.nent, kw := s.kw, frozen := s.frozen, prevv := s.prevv, prev := s.prev
    freeTick := s.freeTick, table := s.table } = s

/-- The part START and ABORT share (R211, R216): the phase and cause given, every working register and flag 0, no slot
of the table with a value, the bytes a waiting code step took gone, and nothing else changed; PREV and the counter of
free values are not constrained. -/
def Wiped (p : Phase) (c : Cause) (s t : State) : Prop :=
  t = { s with
    phase := p, cause := c, errinfo := 0
    n := 0, kw := 0, nent := 0, prevv := false, frozen := false, termseen := false
    outoff := 0, bytecnt := 0, subrem := 0, bitbuf := 0, bitcnt := 0, table := [], partway := []
    prev := t.prev, freeTick := t.freeTick }

/-- The same but for how the payload is cut into sub-blocks and for BYTECNT (R126). -/
def sameButCut (s t : State) : Prop :=
  { t with subrem := s.subrem, source := s.source, partway := s.partway, bytecnt := s.bytecnt } = s

/-- The same payload is before both cursors where a code step begins or goes on, and the same end after it. -/
def samePayload (s t : State) : Prop :=
  payload (resume t) = payload (resume s) ∧ terminatorStands (resume t) = terminatorStands (resume s)

/-- The codes of the notation of R110 as one number, each at the width the packer's state gives it, the first lowest
(R64, R111). -/
def packedNumber (n : Nat) : List Nat → Packer → Nat
  | [], _ => 0
  | c :: cs, p => c + 2 ^ p.kw * packedNumber n cs (packWidth n c p)

/-- The phases an engine step can lead to (R39); a step that waits leaves the phase. -/
def engineEdge : Phase → Phase → Bool
  | .idle, q => q == .idle
  | .hdr, q => q == .hdr || q == .run || q == .fault
  | .run, q => q == .run || q == .drain || q == .fault
  | .drain, q => q == .drain || q == .done || q == .fault
  | .done, q => q == .done
  | .fault, q => q == .fault

/-- The phases any other move can lead to (R39): START from IDLE, DONE or FAULT, ABORT and reset from every phase. -/
def hostEdge : Phase → Phase → Bool
  | .idle, q => q == .idle || q == .hdr || q == .fault
  | .hdr, q => q == .hdr || q == .idle
  | .run, q => q == .run || q == .idle
  | .drain, q => q == .drain || q == .idle
  | .done, q => q == .done || q == .hdr || q == .fault || q == .idle
  | .fault, q => q == .fault || q == .hdr || q == .idle

/-- The move is a command or a reset: the ways out of FAULT (R244). -/
def leavesFault : Turn → Bool
  | .host (.csrWrite off v) => off == 0 && (v.getLsbD 0 || v.getLsbD 1)
  | .host .reset => true
  | .host (.csrRead _) | .host (.fbRead _) | .host (.fbWrite _ _) | .host (.positionSource _ _)
  | .engine | .deliver _ | .endOfStream => false

end Sys2Proof.Claims

open Sys2Proof Sys2Proof.Machine Sys2Proof.Claims

/-! ### Encoding -/

/-- Words written out from R101 to R106, R91 to R93 and R45 decode to their items: codes at their widths, least
significant bit first, container bytes and CTRL words. -/
def Obligations.WordsOfTheTableDecode : Prop :=
  decode (.code (freshCtx 2) 3) [0x8C, 0x0B] = some .clrN2 ∧
  decode (.code (freshCtx 2) 3) [0x05, 0x00] = some .stopN2 ∧
  decode (.code (freshCtx 8) 9) [0x00, 0x01] = some .clrN8 ∧
  decode (.code (freshCtx 8) 9) [0x01, 0xFF] = some .stopN8 ∧
  decode (.code (freshCtx 8) 9) [0xAB, 0xFE] = some (.litN8 0xAB) ∧
  decode (.code { n := 2, nent := 7, frozen := false, prevv := true } 3) [0x06] = some (.ref 6) ∧
  decode (.code { n := 2, nent := 6, frozen := false, prevv := true } 3) [0xFE] = some (.kwk 6) ∧
  decode (.code { n := 2, nent := 6, frozen := false, prevv := false } 3) [0x06] = some (.illegal 6) ∧
  decode .codeSize [0x08] = some (.codesize 8) ∧
  decode .length [0xFF] = some (.sublen 255) ∧
  decode .length [0x00] = some .term ∧
  decode .ctrl [0x01, 0, 0, 0] = some .start ∧
  decode .ctrl [0x03, 0, 0, 0] = some .abort

/-- Decoding inverts encoding: an item encoded at a slot where its table row can be selected decodes to itself there;
and every well-formed item but ROW, which R109 gives no encoding, has such a slot. -/
def Obligations.DecodeInvertsEncode : Prop :=
  (∀ slot i, standsAt slot i = true → decode slot (encodeBytes i) = some i) ∧
  (∀ i, i.wellFormed = true → (∃ y h, i = .row y h) ∨ ∃ slot, standsAt slot i = true)

/-- R100: with N legal every code falls in exactly one class, by the first line of the table that matches, and the item
decoded carries the code itself. -/
def Obligations.EveryCodeFallsInOneClass : Prop :=
  ∀ (x : CodeCtx) (c : Code), 2 ≤ x.n → x.n ≤ 8 →
    (c.toNat = 2 ^ x.n → decodeCode x c = clrOf x.n) ∧
    (c.toNat = 2 ^ x.n + 1 → decodeCode x c = stopOf x.n) ∧
    (c.toNat < 2 ^ x.n → decodeCode x c = litOf x.n c) ∧
    (2 ^ x.n + 1 < c.toNat → c.toNat < x.nent → decodeCode x c = some (.ref c)) ∧
    (2 ^ x.n + 1 < c.toNat → c.toNat = x.nent → x.frozen = false → x.prevv = true →
      decodeCode x c = some (.kwk c)) ∧
    (2 ^ x.n + 1 < c.toNat → x.nent < c.toNat ∨ (c.toNat = x.nent ∧ (x.frozen = true ∨ x.prevv = false)) →
      decodeCode x c = some (.illegal c)) ∧
    ∃ i, decodeCode x c = some i ∧ encode i = .code c ∧ fitsCode x i = true ∧
      ∀ j, encode j = .code c → fitsCode x j = true → j = i

/-- R92, R123: cutting a payload into sub-blocks of 1 to 255 bytes and putting the terminator after them leaves exactly
that payload before the cursor. -/
def Obligations.CuttingIntoSubBlocksKeepsThePayload : Prop :=
  ∀ (L : Nat) (bytes rest : List Byte), 1 ≤ L → L ≤ 255 →
    payloadFrom 0 (packChunks L bytes.length bytes ++ 0 :: rest) = bytes

/-- R64, R111: the packer lays the codes out as consecutive fields from bit 0 upward, each at the width its state gives:
the payload bytes, with the accumulator's bits above them, are the number `packedNumber`. -/
def Obligations.PackerLaysCodesOutLowBitFirst : Prop :=
  ∀ (n : Nat) (codes : List Nat) (p : Packer), 2 ≤ n → n ≤ 8 → packCodes n codes (packStart n) = some p →
    leNat p.payload + 2 ^ (8 * p.payload.length) * p.acc = packedNumber n codes (packStart n) ∧
    p.nb < 8 ∧ p.acc < 2 ^ p.nb

/-! ### The code reader -/

/-- R120: `SrcNext` takes the next byte and counts it modulo 2^32; at end of stream it raises TruncatedRead and counts
nothing; where the source has not answered it waits. -/
def Obligations.SrcNextTakesOneByte : Prop :=
  ∀ s : State,
    (∀ b rest, s.source = b :: rest →
      srcNext s = .got b { s with source := rest, bytecnt := s.bytecnt + 1 } ∧
      (s.bytecnt + 1).toNat = (s.bytecnt.toNat + 1) % 2 ^ 32) ∧
    (s.source = [] → s.sourceEnded = true →
      srcNext s = .raised { s with cause := .truncatedRead, errinfo := 0, phase := .fault }) ∧
    (s.source = [] → s.sourceEnded = false → srcNext s = .waiting)

/-- R122: the next payload byte, crossing a sub-block boundary where SUBREM is 0; a zero length byte is the terminator,
which in phase RUN sets TERMSEEN and raises DataExhausted; a source that ends after the length byte leaves SUBREM
loaded. -/
def Obligations.NextDataByteCrossesSubBlocks : Prop :=
  ∀ s : State,
    (∀ b rest, s.subrem ≠ 0 → s.source = b :: rest →
      nextDataByte s =
        .got b { s with source := rest, bytecnt := s.bytecnt + 1, subrem := s.subrem - 1 }) ∧
    (∀ l b rest, s.subrem = 0 → l ≠ 0 → s.source = l :: b :: rest →
      nextDataByte s =
        .got b { s with source := rest, bytecnt := s.bytecnt + 2, subrem := l - 1 }) ∧
    (∀ rest, s.subrem = 0 → s.source = 0 :: rest →
      ∃ t, nextDataByte s = .terminated t ∧ t = { s with source := rest, bytecnt := s.bytecnt + 1 } ∧
        (s.phase = .run → exec .term t = .next
          { t with termseen := true, cause := .dataExhausted, errinfo := 0, phase := .fault })) ∧
    (s.source = [] → s.sourceEnded = true → nextDataByte s = .raised (raise .truncatedRead 0 s)) ∧
    (∀ l, s.subrem = 0 → l ≠ 0 → s.source = [l] → s.sourceEnded = true →
      nextDataByte s = .raised
        (raise .truncatedRead 0 { s with source := [], bytecnt := s.bytecnt + 1, subrem := l }))

/-- R32, R64, R124: where the payload holds the KW bits, `GetCode` returns the next KW unread bits, the first lowest, and
leaves the others; at most 7 bits stay held, and nothing but the cursor changes. -/
def Obligations.GetCodeReturnsTheNextBits : Prop :=
  ∀ s : State, s.kw.toNat ≤ 12 → s.bitcnt.toNat ≤ 7 → s.bitbuf.toNat < 2 ^ s.bitcnt.toNat →
    s.kw.toNat ≤ unreadCount s →
    ∃ c t, getCode s = .got c t ∧
      c.toNat = unreadBits s % 2 ^ s.kw.toNat ∧
      unreadBits t = unreadBits s / 2 ^ s.kw.toNat ∧
      unreadCount t + s.kw.toNat = unreadCount s ∧
      t.bitcnt.toNat ≤ 7 ∧ t.bitbuf.toNat < 2 ^ t.bitcnt.toNat ∧
      sameBesidesCursor s t

/-- R129: where the payload is short of KW bits no code is returned: the source ended and TruncatedRead is raised, or
the terminator was taken, or (the model's own, log 6) the source has not answered and the step waits; the bytes
delivered have been merged into the bits held. -/
def Obligations.GetCodeWithoutTheBits : Prop :=
  ∀ s : State, s.kw.toNat ≤ 12 → s.bitcnt.toNat ≤ 7 → s.bitbuf.toNat < 2 ^ s.bitcnt.toNat →
    unreadCount s < s.kw.toNat →
    (∃ t, getCode s = .raised (raise .truncatedRead 0 t) ∧ sameBesidesCursor s t ∧ s.sourceEnded = true ∧
      t.source = [] ∧ t.bitbuf.toNat = unreadBits s ∧ t.bitcnt.toNat = unreadCount s) ∨
    (∃ t, getCode s = .terminated t ∧ sameBesidesCursor s t ∧ t.subrem = 0 ∧
      t.bitbuf.toNat = unreadBits s ∧ t.bitcnt.toNat = unreadCount s) ∨
    (getCode s = .waiting ∧ s.sourceEnded = false)

/-- R125: `GetCode` takes `k` payload bytes where it needs them and no more: after it fewer than 8 bits are held, it
takes none at all where the bits held are enough, and each payload byte costs at most one length byte; BYTECNT counts
every byte taken. -/
def Obligations.GetCodeReadsNothingAhead : Prop :=
  ∀ (s t : State) (c : Code), s.kw.toNat ≤ 12 → s.bitcnt.toNat ≤ 7 → s.bitbuf.toNat < 2 ^ s.bitcnt.toNat →
    getCode s = .got c t →
    ∃ taken k, s.source = taken ++ t.source ∧ k ≤ taken.length ∧ taken.length ≤ 2 * k ∧
      t.bitcnt.toNat + s.kw.toNat = s.bitcnt.toNat + 8 * k ∧ t.bitcnt.toNat ≤ 7 ∧
      (s.kw.toNat ≤ s.bitcnt.toNat → taken = []) ∧
      t.bytecnt.toNat = (s.bytecnt.toNat + taken.length) % 2 ^ 32

/-- R126: how the payload is cut into sub-blocks has no effect. Two states in phase RUN that differ only in the cut and
in BYTECNT take the same code step, and differ again only so; while the run goes on the payload before the cursors is
the same too. -/
def Obligations.SplitOfThePayloadHasNoEffect : Prop :=
  ∀ s t s' : State, Inv s → Inv t → s.phase = .run → sameButCut s t → samePayload s t →
    engineStep s = .next s' →
    ∃ t', engineStep t = .next t' ∧ sameButCut s' t' ∧ (s'.phase ≠ .fault → samePayload s' t')

/-- U9, R67, R216: a code step that waits leaves every register as it was and has taken all the source held: those bytes
are gone from the source. The step goes on as if the bytes had come at once, however the source delivers them; and after
an ABORT or a reset none of them is left anywhere. That the registers stay those of before the step until it is completed
is log 6. -/
def Obligations.WaitingStepKeepsItsBytes : Prop :=
  ∀ s : State, s.phase = .run →
    (getCode (resume s) = .waiting → ∃ t, engineStep s = .next t ∧
      { t with source := s.source, partway := s.partway } = s ∧
      t.source = [] ∧ t.partway = s.partway ++ s.source) ∧
    (∀ more ended, engineStep { stall s with source := more, sourceEnded := ended } =
      engineStep { s with source := s.source ++ more, sourceEnded := ended }) ∧
    (∃ t, exec .abort (stall s) = .next t ∧ t.source = [] ∧ t.partway = []) ∧
    (∀ rest, s.turns = .host .reset :: rest →
      ∃ t, step (stall s) = .next t ∧ t.source = [] ∧ t.partway = [])

/-! ### A step runs the decoded item -/

/-- A step is `exec` of the item at the cursor, of the code size byte, of the byte where a length byte is due, of TERM
where the terminator was taken, or of the command the host wrote; a fault met while fetching ends it, where the source
has not answered a code step waits with the bytes it took and any other leaves the state, and in IDLE, DONE and FAULT the
engine does nothing. A code step reads on from the bytes it took before it had to wait (log 6). Which agent moves is
the model's own (log 7). -/
def Obligations.StepRunsTheDecodedItem : Prop :=
  ∀ s : State,
    (engineMoves s = true →
      (s.phase = .run →
        (∀ c s1 i, getCode (resume (afterTurn s)) = .got c s1 → decodeCode (codeCtx s1) c = some i →
          step s = exec i s1) ∧
        (∀ s1, getCode (resume (afterTurn s)) = .terminated s1 → step s = exec .term s1) ∧
        (∀ s1, getCode (resume (afterTurn s)) = .raised s1 → step s = .next s1) ∧
        (getCode (resume (afterTurn s)) = .waiting → step s = .next (stall (afterTurn s)))) ∧
      (s.phase = .hdr →
        (∀ b s1, srcNext (afterTurn s) = .got b s1 → step s = exec (.codesize b) s1) ∧
        (∀ s1, srcNext (afterTurn s) = .raised s1 → step s = .next s1) ∧
        (srcNext (afterTurn s) = .waiting → step s = .next (afterTurn s))) ∧
      (s.phase = .drain →
        (∀ b s1, srcNext (afterTurn s) = .got b s1 → s.subrem = 0 → step s = exec (decodeLength b) s1) ∧
        (∀ b s1, srcNext (afterTurn s) = .got b s1 → s.subrem ≠ 0 →
          step s = .next { s1 with subrem := s1.subrem - 1 }) ∧
        (∀ s1, srcNext (afterTurn s) = .raised s1 → step s = .next s1) ∧
        (srcNext (afterTurn s) = .waiting → step s = .next (afterTurn s))) ∧
      (s.phase = .idle ∨ s.phase = .done ∨ s.phase = .fault → step s = .next (afterTurn s))) ∧
    (∀ v rest i, s.turns = .host (.csrWrite 0 v) :: rest → decodeCtrl v = some i →
      step s = exec i { s with turns := rest })

/-! ### The sentinel codes -/

/-- R163, R149: CLR of each code size restores NENT, KW, FROZEN and PREVV of the initial table; nothing is emitted, and
OUTOFF, the cursor, the store, the frame buffer and PHASE are untouched. -/
def Obligations.ClearCodeRestoresTheInitialTable : Prop :=
  ∀ s : State, s.phase = .run →
    (s.n.toNat = 2 → ∃ t, exec .clrN2 s = .next t ∧ ClearDone 2 s t) ∧
    (s.n.toNat = 3 → ∃ t, exec .clrN3 s = .next t ∧ ClearDone 3 s t) ∧
    (s.n.toNat = 4 → ∃ t, exec .clrN4 s = .next t ∧ ClearDone 4 s t) ∧
    (s.n.toNat = 5 → ∃ t, exec .clrN5 s = .next t ∧ ClearDone 5 s t) ∧
    (s.n.toNat = 6 → ∃ t, exec .clrN6 s = .next t ∧ ClearDone 6 s t) ∧
    (s.n.toNat = 7 → ∃ t, exec .clrN7 s = .next t ∧ ClearDone 7 s t) ∧
    (s.n.toNat = 8 → ∃ t, exec .clrN8 s = .next t ∧ ClearDone 8 s t)

/-- R164: STOP of each code size writes PHASE DRAIN and nothing else, however many pixels have been written. -/
def Obligations.StopCodeEntersTheDrain : Prop :=
  ∀ s : State, s.phase = .run →
    (s.n.toNat = 2 → exec .stopN2 s = .next { s with phase := .drain }) ∧
    (s.n.toNat = 3 → exec .stopN3 s = .next { s with phase := .drain }) ∧
    (s.n.toNat = 4 → exec .stopN4 s = .next { s with phase := .drain }) ∧
    (s.n.toNat = 5 → exec .stopN5 s = .next { s with phase := .drain }) ∧
    (s.n.toNat = 6 → exec .stopN6 s = .next { s with phase := .drain }) ∧
    (s.n.toNat = 7 → exec .stopN7 s = .next { s with phase := .drain }) ∧
    (s.n.toNat = 8 → exec .stopN8 s = .next { s with phase := .drain })

/-! ### Data codes -/

/-- R166: a LIT of each code size, with room for one pixel, completes: it writes the one pixel `k`, grows the table by
`(T[PREV].len + 1, PREV, k)` unless it is frozen or there is no previous code, and becomes the previous code. -/
def Obligations.LiteralCodeEmitsItsIndex : Prop :=
  ∀ s : State, Inv s → s.phase = .run → roomFor s 1 → storeHasRoom s →
    (∀ k : BitVec 2, s.n.toNat = 2 → ∃ t, exec (.litN2 k) s = .next t ∧
      DataCodeDone (k.setWidth 12) [k.setWidth 8] (k.setWidth 8) s t) ∧
    (∀ k : BitVec 3, s.n.toNat = 3 → ∃ t, exec (.litN3 k) s = .next t ∧
      DataCodeDone (k.setWidth 12) [k.setWidth 8] (k.setWidth 8) s t) ∧
    (∀ k : BitVec 4, s.n.toNat = 4 → ∃ t, exec (.litN4 k) s = .next t ∧
      DataCodeDone (k.setWidth 12) [k.setWidth 8] (k.setWidth 8) s t) ∧
    (∀ k : BitVec 5, s.n.toNat = 5 → ∃ t, exec (.litN5 k) s = .next t ∧
      DataCodeDone (k.setWidth 12) [k.setWidth 8] (k.setWidth 8) s t) ∧
    (∀ k : BitVec 6, s.n.toNat = 6 → ∃ t, exec (.litN6 k) s = .next t ∧
      DataCodeDone (k.setWidth 12) [k.setWidth 8] (k.setWidth 8) s t) ∧
    (∀ k : BitVec 7, s.n.toNat = 7 → ∃ t, exec (.litN7 k) s = .next t ∧
      DataCodeDone (k.setWidth 12) [k.setWidth 8] (k.setWidth 8) s t) ∧
    (∀ k : BitVec 8, s.n.toNat = 8 → ∃ t, exec (.litN8 k) s = .next t ∧
      DataCodeDone (k.setWidth 12) [k] k s t)

/-- R167: a REF with room for its string completes: it writes the string of its entry, grows the table by
`(T[PREV].len + 1, PREV, First(c))` unless frozen or without a previous code, and becomes the previous code. -/
def Obligations.ReferenceCodeEmitsItsString : Prop :=
  ∀ (s : State) (c : Code) (f : Byte) (l : List Byte), Inv s → s.phase = .run →
    2 ^ s.n.toNat + 2 ≤ c.toNat → c.toNat < s.nent.toNat → stringOf s c = some (f :: l) →
    roomFor s (l.length + 1) → storeHasRoom s →
    ∃ t, exec (.ref c) s = .next t ∧ DataCodeDone c (f :: l) f s t

/-- R169: a KWK with room for its string completes: its string is that of the previous code and that string's first
symbol once more; the entry it appends is its own. -/
def Obligations.KwkCodeEmitsThePreviousStringAndItsFirst : Prop :=
  ∀ (s : State) (c : Code) (f : Byte) (l : List Byte), Inv s → s.phase = .run →
    c.toNat = s.nent.toNat → s.frozen = false → s.prevv = true → stringOf s s.prev = some (f :: l) →
    roomFor s (l.length + 2) → s.nent.toNat < s.tableMem →
    ∃ t, exec (.kwk c) s = .next t ∧ DataCodeDone c (f :: l ++ [f]) f s t

/-- R143 to R145, R41, R270: in phase RUN every defined entry has its string, of the entry's length and non-empty, its
first symbol is `First(c)`, its symbols are below `2^N`, and the length is 1 for a root and at most `c - 2^N` for an
appended entry. So the premise of the REF and KWK statements is met by every such code. -/
def Obligations.DefinedEntriesHaveTheirStrings : Prop :=
  ∀ (s : State) (c : Code), Inv s → s.phase = .run → definedEntry s c.toNat = true →
    ∃ f l e, stringOf s c = some (f :: l) ∧ tableRead s c.toNat = some e ∧ e.len.toNat = l.length + 1 ∧
      firstSymbol s c = some f ∧ (∀ v ∈ f :: l, v.toNat < 2 ^ s.n.toNat) ∧
      (c.toNat < 2 ^ s.n.toNat → f.toNat = c.toNat ∧ l = []) ∧
      (2 ^ s.n.toNat ≤ c.toNat → l.length + 1 + 2 ^ s.n.toNat ≤ c.toNat)

/-- R171: a LIT, REF or KWK whose string does not fit in the rectangle raises OutputOverrun with the code before
anything is written, whatever room the store has. -/
def Obligations.StringPastTheRectangleFaults : Prop :=
  ∀ (s : State) (i : Instr) (c : Code) (str : List Byte) (f : Byte), Inv s → s.phase = .run →
    DataCodeAt s i c str f → s.fw.toNat * s.fh.toNat < s.outoff.toNat + str.length →
    exec i s = .next { s with cause := .outputOverrun, errinfo := c, phase := .fault }

/-- R146, R237: in a reduced store, a LIT, REF or KWK whose string fits but whose entry finds no slot raises OutOfMemory
with the code before any write. -/
def Obligations.FullStoreFaults : Prop :=
  ∀ (s : State) (i : Instr) (c : Code) (str : List Byte) (f : Byte), Inv s → s.phase = .run →
    DataCodeAt s i c str f → roomFor s str.length → s.frozen = false → s.prevv = true →
    s.tableMem ≤ s.nent.toNat →
    exec i s = .next { s with cause := .outOfMemory, errinfo := c, phase := .fault }

/-- R170, R106: a code above NENT, or equal to it while the table is frozen or without a previous code, raises InvalidCode
with the code and writes nothing else. -/
def Obligations.IllegalCodeFaults : Prop :=
  ∀ (s : State) (c : Code), s.phase = .run → 2 ≤ s.n.toNat → s.n.toNat ≤ 8 → 2 ^ s.n.toNat + 2 ≤ c.toNat →
    s.nent.toNat < c.toNat ∨ (c.toNat = s.nent.toNat ∧ (s.frozen = true ∨ s.prevv = false)) →
    exec (.illegal c) s = .next { s with cause := .invalidCode, errinfo := c, phase := .fault }

/-- R148: while the table is frozen no code item but CLR changes NENT, KW, FROZEN or the store. -/
def Obligations.FrozenTableStaysUntilClear : Prop :=
  ∀ (s t : State) (i : Instr) (c : Code), s.phase = .run → s.frozen = true → encode i = .code c →
    (∀ k, clrOf k ≠ some i) → exec i s = .next t →
    t.nent = s.nent ∧ t.kw = s.kw ∧ t.frozen = true ∧ t.table = s.table

/-! ### Container bytes -/

/-- R213, R142: the legal code-size byte becomes N and builds the initial table, and phase RUN follows. -/
def Obligations.CodeSizeByteBuildsTheInitialTable : Prop :=
  ∀ (s : State) (b : Byte), s.phase = .hdr → 2 ≤ b.toNat → b.toNat ≤ 8 →
    ∃ t, exec (.codesize b) s = .next t ∧ HeaderDone b.toNat s t

/-- R234, R213: any other code-size byte raises BadCodeSize with the byte, and nothing else is written. -/
def Obligations.OtherCodeSizeByteFaults : Prop :=
  ∀ (s : State) (b : Byte), s.phase = .hdr → b.toNat < 2 ∨ 8 < b.toNat →
    ∃ info : BitVec 12, info.toNat = b.toNat ∧
      exec (.codesize b) s = .next { s with cause := .badCodeSize, errinfo := info, phase := .fault }

/-- R122, R128: a non-zero length byte, in RUN or DRAIN with SUBREM 0, loads SUBREM and changes nothing else. -/
def Obligations.LengthByteLoadsSubrem : Prop :=
  ∀ (s : State) (l : Byte), s.phase = .run ∨ s.phase = .drain → s.subrem = 0 → l ≠ 0 →
    exec (.sublen l) s = .next { s with subrem := l }

/-- R122, R128, R232: the terminator sets TERMSEEN; met in DRAIN the run is done, met in RUN it raises DataExhausted. -/
def Obligations.TerminatorEndsTheRun : Prop :=
  ∀ s : State, s.subrem = 0 →
    (s.phase = .drain → exec .term s = .next { s with termseen := true, phase := .done }) ∧
    (s.phase = .run →
      exec .term s = .next { s with termseen := true, cause := .dataExhausted, errinfo := 0, phase := .fault })

/-- R128: the drain step takes one byte of the source: payload is discarded, a length byte loads SUBREM, the terminator
sets TERMSEEN and ends in DONE, and end of stream raises TruncatedRead. The bits held and all else are untouched. -/
def Obligations.DrainStepDiscardsOneByte : Prop :=
  ∀ s : State, s.phase = .drain →
    (∀ b rest, s.source = b :: rest → s.subrem ≠ 0 →
      engineStep s = .next { s with source := rest, bytecnt := s.bytecnt + 1, subrem := s.subrem - 1 }) ∧
    (∀ b rest, s.source = b :: rest → s.subrem = 0 → b ≠ 0 →
      engineStep s = .next { s with source := rest, bytecnt := s.bytecnt + 1, subrem := b }) ∧
    (∀ rest, s.source = 0 :: rest → s.subrem = 0 →
      engineStep s = .next
        { s with source := rest, bytecnt := s.bytecnt + 1, termseen := true, phase := .done }) ∧
    (s.source = [] → s.sourceEnded = true →
      engineStep s = .next { s with cause := .truncatedRead, errinfo := 0, phase := .fault })

/-! ### Host commands -/

/-- R211: START in IDLE, DONE or FAULT with a rectangle inside the canvas clears every working register and flag,
un-defines the table, keeps the configuration, the frame buffer and the source, and enters HDR. -/
def Obligations.StartBeginsARun : Prop :=
  ∀ s : State, s.phase = .idle ∨ s.phase = .done ∨ s.phase = .fault →
    s.fx.toNat + s.fw.toNat ≤ s.cw.toNat → s.fy.toNat + s.fh.toNat ≤ s.ch.toNat →
    ∃ t, exec .start s = .next t ∧ Wiped .hdr .none s t

/-- R212, R233: START with a rectangle that leaves the canvas raises BadGeometry after the same clearing. -/
def Obligations.StartChecksTheGeometry : Prop :=
  ∀ s : State, s.phase = .idle ∨ s.phase = .done ∨ s.phase = .fault →
    s.cw.toNat < s.fx.toNat + s.fw.toNat ∨ s.ch.toNat < s.fy.toNat + s.fh.toNat →
    ∃ t, exec .start s = .next t ∧ Wiped .fault .badGeometry s t

/-- R217: START while BUSY is ignored. -/
def Obligations.StartWhileBusyIsIgnored : Prop :=
  ∀ s : State, s.phase = .hdr ∨ s.phase = .run ∨ s.phase = .drain → exec .start s = .next s

/-- R216: ABORT, in every phase, clears every working register and flag, un-defines the table and enters IDLE; the
configuration, the frame buffer and the source are kept. -/
def Obligations.AbortReturnsToIdle : Prop :=
  ∀ s : State, ∃ t, exec .abort s = .next t ∧ Wiped .idle .none s t

/-- R45: a word written to CTRL with bit 1 set is ABORT whatever bit 0 is, else with bit 0 set START, which is ignored
while BUSY; with both clear nothing happens. -/
def Obligations.CtrlWordsAreCommands : Prop :=
  ∀ (s : State) (v : CsrWord) (rest : List Turn), s.turns = .host (.csrWrite 0 v) :: rest →
    (v.getLsbD 1 = true → step s = exec .abort { s with turns := rest }) ∧
    (v.getLsbD 1 = false → v.getLsbD 0 = true → s.phase.busy = false →
      step s = exec .start { s with turns := rest }) ∧
    (v.getLsbD 1 = false → v.getLsbD 0 = true → s.phase.busy = true → step s = .next { s with turns := rest }) ∧
    (v.getLsbD 1 = false → v.getLsbD 0 = false → step s = .next { s with turns := rest })

/-- R44, R46: what STATUS reads as, field by field. -/
def Obligations.StatusShowsItsFields : Prop :=
  ∀ s : State, ∃ w : Nat, (csrRead 0x04 s).toNat = w ∧ w < 2 ^ 20 ∧
    (w % 8 = 0 ↔ s.phase = .idle) ∧ (w % 8 = 1 ↔ s.phase = .hdr) ∧ (w % 8 = 2 ↔ s.phase = .run) ∧
    (w % 8 = 3 ↔ s.phase = .drain) ∧ (w % 8 = 4 ↔ s.phase = .done) ∧ (w % 8 = 5 ↔ s.phase = .fault) ∧
    (w / 2 ^ 3 % 2 = 1 ↔ s.phase = .hdr ∨ s.phase = .run ∨ s.phase = .drain) ∧
    (w / 2 ^ 4 % 16 = 0 ↔ s.cause = .none) ∧ (w / 2 ^ 4 % 16 = 1 ↔ s.cause = .badGeometry) ∧
    (w / 2 ^ 4 % 16 = 2 ↔ s.cause = .badCodeSize) ∧ (w / 2 ^ 4 % 16 = 3 ↔ s.cause = .truncatedRead) ∧
    (w / 2 ^ 4 % 16 = 4 ↔ s.cause = .dataExhausted) ∧ (w / 2 ^ 4 % 16 = 5 ↔ s.cause = .invalidCode) ∧
    (w / 2 ^ 4 % 16 = 6 ↔ s.cause = .outputOverrun) ∧ (w / 2 ^ 4 % 16 = 7 ↔ s.cause = .outOfMemory) ∧
    (w / 2 ^ 8 % 2 = 1 ↔ s.frozen = true) ∧ (w / 2 ^ 9 % 2 = 1 ↔ s.prevv = true) ∧
    (w / 2 ^ 10 % 2 = 1 ↔ s.termseen = true) ∧ w / 2 ^ 11 % 2 = 0 ∧
    w / 2 ^ 12 % 16 = s.kw.toNat ∧ w / 2 ^ 16 = s.n.toNat

/-- R44, R51, R215: what every other offset reads as; a read by the host changes nothing (what it gives back is the
model's field `returned`, log 12). -/
def Obligations.CsrReadsShowTheRegisters : Prop :=
  ∀ s : State,
    csrRead 0x00 s = 0 ∧
    (csrRead 0x08 s).toNat = s.cw.toNat + 2 ^ 16 * s.ch.toNat ∧
    (csrRead 0x0C s).toNat = s.fx.toNat + 2 ^ 16 * s.fy.toNat ∧
    (csrRead 0x10 s).toNat = s.fw.toNat + 2 ^ 16 * s.fh.toNat ∧
    (csrRead 0x14 s).toNat = s.interlace.toNat ∧
    csrRead 0x18 s = s.outoff ∧ (csrRead 0x1C s).toNat = s.nent.toNat ∧
    (csrRead 0x20 s).toNat = s.errinfo.toNat ∧ csrRead 0x24 s = s.bytecnt ∧
    (∀ off : CsrWord, (0x24 < off.toNat ∨ off.toNat % 4 ≠ 0) → csrRead off s = 0) ∧
    (∀ off rest, s.turns = .host (.csrRead off) :: rest →
      step s = .next { s with turns := rest, returned := some (csrRead off s) })

/-- R47 to R50, R215: a write to CANVAS, FRAME_POS, FRAME_SIZE or MODE stores its fields when the engine is not BUSY; while
BUSY it is ignored; a write to any other offset but CTRL is ignored always. -/
def Obligations.ConfigurationWritesWhenIdle : Prop :=
  ∀ (s : State) (off v : CsrWord) (rest : List Turn), s.turns = .host (.csrWrite off v) :: rest → off ≠ 0 →
    (s.phase.busy = true → step s = .next { s with turns := rest }) ∧
    (s.phase.busy = false →
      (off = 0x08 → step s = .next { s with
        turns := rest, cw := BitVec.ofNat 16 (v.toNat % 2 ^ 16), ch := BitVec.ofNat 16 (v.toNat / 2 ^ 16) }) ∧
      (off = 0x0C → step s = .next { s with
        turns := rest, fx := BitVec.ofNat 16 (v.toNat % 2 ^ 16), fy := BitVec.ofNat 16 (v.toNat / 2 ^ 16) }) ∧
      (off = 0x10 → step s = .next { s with
        turns := rest, fw := BitVec.ofNat 16 (v.toNat % 2 ^ 16), fh := BitVec.ofNat 16 (v.toNat / 2 ^ 16) }) ∧
      (off = 0x14 → step s = .next { s with turns := rest, interlace := decide (v.toNat % 2 = 1) }) ∧
      (off ≠ 0x08 → off ≠ 0x0C → off ≠ 0x10 → off ≠ 0x14 → step s = .next { s with turns := rest }))

/-- R60, R76, R77: the host reads and writes frame-buffer cells while the engine is not BUSY; while it is, the model
refuses (U5). A cell without a value reads as its launch value, a free value (log 3). The read leaves the value in the
model's field `returned` (log 12). `addr` is any 32-bit word: that an address not below `CW * CH`, where R60 has no cell,
is read and written like a cell is the model's choice (log 15). -/
def Obligations.HostReachesTheFrameBufferWhenIdle : Prop :=
  ∀ (s : State) (addr : CsrWord) (v : Byte) (rest : List Turn),
    (s.turns = .host (.fbWrite addr v) :: rest → s.phase.busy = false →
      ∃ t, step s = .next t ∧ { t with fb := s.fb, turns := s.turns } = s ∧ t.turns = rest ∧
        ∀ a, Memory.read t.fb a = if a = addr.toNat then some v else Memory.read s.fb a) ∧
    (s.turns = .host (.fbRead addr) :: rest → s.phase.busy = false →
      ∃ w : CsrWord, step s = .next { s with turns := rest, returned := some w } ∧
        ∀ x, Memory.read s.fb addr.toNat = some x → w.toNat = x.toNat) ∧
    (s.phase.busy = true →
      (s.turns = .host (.fbWrite addr v) :: rest → step s = .refused .frameBufferWhileBusy) ∧
      (s.turns = .host (.fbRead addr) :: rest → step s = .refused .frameBufferWhileBusy))

/-- R218, R61: the host positions the byte source while the engine is not BUSY; the source delivers bytes in order, none
after end of stream; and no such move touches anything else. Moving the source while BUSY is refused (log 10); what the
source's moves look like is the model's own (log 6, log 7, log 16). -/
def Obligations.SourceIsMovedByHostAndSource : Prop :=
  ∀ (s : State) (bytes : List Byte) (ended : Bool) (b : Byte) (rest : List Turn),
    (s.turns = .host (.positionSource bytes ended) :: rest →
      (s.phase.busy = false → step s = .next { s with turns := rest, source := bytes, sourceEnded := ended }) ∧
      (s.phase.busy = true → step s = .refused .sourceWhileBusy)) ∧
    (s.turns = .deliver b :: rest →
      (s.sourceEnded = false → step s = .next { s with turns := rest, source := s.source ++ [b] }) ∧
      (s.sourceEnded = true → step s = .next { s with turns := rest })) ∧
    (s.turns = .endOfStream :: rest → step s = .next { s with turns := rest, sourceEnded := true })

/-- R260, R261: hardware reset, in every phase, leaves the engine's registers 0 and PHASE IDLE with no table, the bytes a
waiting step took gone, and does not touch the frame buffer or the source. PREV after it is the model's choice (log 1)
and not stated; that the parameter of the instance and the model's own fields are kept is log 20. -/
def Obligations.HardwareResetClearsTheEngine : Prop :=
  ∀ (s : State) (rest : List Turn), s.turns = .host .reset :: rest →
    ∃ t, step s = .next t ∧ t = { s with
      turns := rest, phase := .idle, cause := .none, errinfo := 0
      cw := 0, ch := 0, fx := 0, fy := 0, fw := 0, fh := 0, interlace := false
      n := 0, kw := 0, nent := 0, prevv := false, frozen := false, termseen := false
      outoff := 0, bytecnt := 0, subrem := 0, bitbuf := 0, bitcnt := 0, table := [], partway := []
      prev := t.prev }

/-! ### The row mapper and the pixel address -/

/-- R192: ROW with `y < h` answers the row of the pass `y` lies in, and changes nothing (its value is what the model's field
`returned` holds, log 11). -/
def Obligations.RowFollowsTheFourPasses : Prop :=
  ∀ (y h : BitVec 16) (s : State), y.toNat < h.toNat →
    ∃ r : Nat, exec (.row y h) s = .next { s with returned := some (BitVec.ofNat 32 r) } ∧
      r < h.toNat ∧ rowOf y.toNat h.toNat = some r ∧
      (y.toNat < (h.toNat + 7) / 8 → r = 8 * y.toNat) ∧
      ((h.toNat + 7) / 8 ≤ y.toNat → y.toNat < (h.toNat + 7) / 8 + (h.toNat + 3) / 8 →
        r = 8 * (y.toNat - (h.toNat + 7) / 8) + 4) ∧
      ((h.toNat + 7) / 8 + (h.toNat + 3) / 8 ≤ y.toNat →
        y.toNat < (h.toNat + 7) / 8 + (h.toNat + 3) / 8 + (h.toNat + 1) / 4 →
        r = 4 * (y.toNat - (h.toNat + 7) / 8 - (h.toNat + 3) / 8) + 2) ∧
      ((h.toNat + 7) / 8 + (h.toNat + 3) / 8 + (h.toNat + 1) / 4 ≤ y.toNat →
        r = 2 * (y.toNat - (h.toNat + 7) / 8 - (h.toNat + 3) / 8 - (h.toNat + 1) / 4) + 1)

/-- R194, U7: outside its domain ROW has no meaning; the model refuses it. -/
def Obligations.RowOutsideItsDomainIsRefused : Prop :=
  ∀ (y h : BitVec 16) (s : State), h.toNat ≤ y.toNat → exec (.row y h) s = .refused .rowOutsideDomain

/-- R193: `Row(., h)` is a bijection of the rows below `h`, and its inverse is by residue of the physical row. -/
def Obligations.RowIsABijection : Prop :=
  ∀ h : Nat, 1 ≤ h →
    (∀ y, y < h → ∃ r, r < h ∧ rowOf y h = some r) ∧
    (∀ y z r, rowOf y h = some r → rowOf z h = some r → y = z) ∧
    (∀ r, r < h →
      (r % 8 = 0 → rowOf (r / 8) h = some r) ∧
      (r % 8 = 4 → rowOf ((h + 7) / 8 + r / 8) h = some r) ∧
      (r % 4 = 2 → rowOf ((h + 7) / 8 + (h + 3) / 8 + r / 4) h = some r) ∧
      (r % 2 = 1 → rowOf ((h + 7) / 8 + (h + 3) / 8 + (h + 1) / 4 + r / 2) h = some r))

/-- R195: the cell of output offset `p` is row-major with stride CW from the rectangle's corner, the row remapped when
INTERLACE is 1 and the column never. (The layout is one of the passages the spec takes from general knowledge, log 18.) -/
def Obligations.PixelAddressIsRowMajor : Prop :=
  ∀ (s : State) (p : Nat), p < s.fw.toNat * s.fh.toNat →
    (s.interlace = false → pixelAddr s p =
      some ((s.fy.toNat + p / s.fw.toNat) * s.cw.toNat + (s.fx.toNat + p % s.fw.toNat))) ∧
    (s.interlace = true → ∃ r, rowOf (p / s.fw.toNat) s.fh.toNat = some r ∧
      pixelAddr s p = some ((s.fy.toNat + r) * s.cw.toNat + (s.fx.toNat + p % s.fw.toNat)))

/-- R196: with the rectangle in the canvas, every pixel address lies inside the rectangle and inside the buffer. -/
def Obligations.PixelAddressStaysInside : Prop :=
  ∀ (s : State) (p : Nat), geometryFits s = true → p < s.fw.toNat * s.fh.toNat →
    ∃ a x y, pixelAddr s p = some a ∧ a = y * s.cw.toNat + x ∧
      s.fx.toNat ≤ x ∧ x < s.fx.toNat + s.fw.toNat ∧ x < s.cw.toNat ∧
      s.fy.toNat ≤ y ∧ y < s.fy.toNat + s.fh.toNat ∧ y < s.ch.toNat ∧
      a < s.cw.toNat * s.ch.toNat

/-- R197: with the rectangle in the canvas, distinct output offsets have distinct cells. -/
def Obligations.PixelAddressIsInjective : Prop :=
  ∀ (s : State) (p q a : Nat), geometryFits s = true → pixelAddr s p = some a → pixelAddr s q = some a → p = q

/-- R68: a frame-buffer write sets one cell, keeps the memory's canonical form and touches nothing else. -/
def Obligations.FrameBufferWriteSetsOneCell : Prop :=
  ∀ (s : State) (a : Nat) (v : Byte),
    (∀ b, Memory.read (fbWrite a v s).fb b = if b = a then some v else Memory.read s.fb b) ∧
    (Memory.wf s.fb → Memory.wf (fbWrite a v s).fb) ∧
    { fbWrite a v s with fb := s.fb } = s

/-! ### Faults -/

/-- R240: raising a fault writes PHASE, CAUSE and ERRINFO and nothing else. -/
def Obligations.RaiseWritesOnlyTheControlState : Prop :=
  ∀ (s : State) (c : Cause) (info : BitVec 12),
    (raise c info s).phase = .fault ∧ (raise c info s).cause = c ∧ (raise c info s).errinfo = info ∧
    { raise c info s with phase := s.phase, cause := s.cause, errinfo := s.errinfo } = s

/-- R241: a code step that raises has no effect on the table, the frame buffer, OUTOFF, PREV, PREVV, KW, NENT or FROZEN.
For InvalidCode, OutputOverrun and OutOfMemory the code's bits have been consumed, as by a successful `GetCode`; for
TruncatedRead and DataExhausted the bytes delivered have been merged into the bits held. The cursor is that of a step
which reads the bytes it took before it had to wait, then the source (`resume`, log 6). -/
def Obligations.CodeStepFaultsArePrecise : Prop :=
  ∀ s t : State, Inv s → s.phase = .run → engineStep s = .next t → t.phase = .fault →
    (t.cause = .invalidCode ∨ t.cause = .outputOverrun ∨ t.cause = .outOfMemory →
      ∃ c s1, getCode (resume s) = .got c s1 ∧ sameBesidesCursor (resume s) s1 ∧ t = raise t.cause c s1) ∧
    (t.cause = .truncatedRead ∨ t.cause = .dataExhausted →
      ∃ s1, sameBesidesCursor (resume s) s1 ∧ s1.bitbuf.toNat = unreadBits (resume s) ∧
        s1.bitcnt.toNat = unreadCount (resume s) ∧
        t = raise t.cause 0 { s1 with termseen := decide (t.cause = .dataExhausted) }) ∧
    (t.cause = .invalidCode ∨ t.cause = .outputOverrun ∨ t.cause = .outOfMemory ∨
      t.cause = .truncatedRead ∨ t.cause = .dataExhausted)

/-- R243, R244: FAULT is final: whatever moves, unless it is START, ABORT or reset, leaves PHASE, CAUSE and ERRINFO, the
counters and the table as they are, and the engine itself changes nothing at all. -/
def Obligations.FaultStaysUntilCommandOrReset : Prop :=
  ∀ s t : State, s.phase = .fault → step s = .next t →
    (engineMoves s = true → t = afterTurn s) ∧
    ((∀ u rest, s.turns = u :: rest → leavesFault u = false) →
      t.phase = .fault ∧ t.cause = s.cause ∧ t.errinfo = s.errinfo ∧ t.outoff = s.outoff ∧
      t.bytecnt = s.bytecnt ∧ t.nent = s.nent ∧ t.table = s.table)

/-- R39: the phases a step can lead to, for the engine and for the other agents. -/
def Obligations.PhasesFollowTheirTransitions : Prop :=
  ∀ s t : State, step s = .next t →
    (engineMoves s = true → engineEdge s.phase t.phase = true) ∧
    (engineMoves s = false → hostEdge s.phase t.phase = true)

/-! ### Reset, invariant, safety, termination -/

/-- R260: right after reset PHASE is IDLE, every register the rule lists is 0, no table slot holds a value and all CSRs
read 0. -/
def Obligations.ResetStateIsAllZero : Prop :=
  State.reset.phase = .idle ∧ State.reset.cause = .none ∧ State.reset.errinfo = 0 ∧
  State.reset.cw = 0 ∧ State.reset.ch = 0 ∧ State.reset.fx = 0 ∧ State.reset.fy = 0 ∧
  State.reset.fw = 0 ∧ State.reset.fh = 0 ∧ State.reset.interlace = false ∧
  State.reset.n = 0 ∧ State.reset.kw = 0 ∧ State.reset.nent = 0 ∧
  State.reset.prevv = false ∧ State.reset.frozen = false ∧ State.reset.termseen = false ∧
  State.reset.outoff = 0 ∧ State.reset.bytecnt = 0 ∧
  State.reset.subrem = 0 ∧ State.reset.bitbuf = 0 ∧ State.reset.bitcnt = 0 ∧
  (∀ k, tableRead State.reset k = none) ∧
  (∀ off : CsrWord, csrRead off State.reset = 0)

/-- The reset state meets the invariant. -/
def Obligations.ResetMeetsTheInvariant : Prop := Inv State.reset

/-- Every step, whoever moves, keeps the invariant: memories canonical, the table's entries and registers as R22 to R42,
R147 and R270 say, at most 7 bits held, the rectangle in the canvas and OUTOFF within it during a run. -/
def Obligations.StepKeepsTheInvariant : Prop :=
  ∀ s t : State, Inv s → step s = .next t → Inv t

/-- From a state of the invariant no step ends in a fault of the model or a refusal, unless the host makes a move that R77,
R218 and R275 forbid while the engine is BUSY: no table slot without a value is read (R141, R42), no pixel leaves the
rectangle (R68, R196), every code has a class (R100). -/
def Obligations.StepNeverStops : Prop :=
  ∀ s : State, Inv s →
    (∀ u rest, s.turns = u :: rest → forbiddenWhileBusy u = true → s.phase.busy = false) →
    ∃ t, step s = .next t

/-- R279, R175: with a finite source every run ends, in DONE or FAULT, after at most `8 * bytes / 3 + bytes + 2` engine
steps. The run starts in HDR, where START leaves the engine, with no other agent moving. -/
def Obligations.EveryRunEndsInTime : Prop :=
  ∀ s : State, Inv s → s.phase = .hdr → s.turns = [] → s.sourceEnded = true →
    ∃ k t, k ≤ 8 * s.source.length / 3 + s.source.length + 2 ∧
      Host.Core.run Sys2Proof.core k s = .next t ∧ (t.phase = .done ∨ t.phase = .fault)

/-- R52, R33 to R35: no move of the engine changes the configuration or the parameter of the instance, and no move at all
changes the configuration while BUSY, but for a reset. -/
def Obligations.RunKeepsItsConfiguration : Prop :=
  ∀ s t : State, step s = .next t →
    engineMoves s = true ∨ (s.phase.busy = true ∧ ∀ rest, s.turns ≠ .host .reset :: rest) →
    t.cw = s.cw ∧ t.ch = s.ch ∧ t.fx = s.fx ∧ t.fy = s.fy ∧ t.fw = s.fw ∧ t.fh = s.fh ∧
    t.interlace = s.interlace ∧ t.tableMem = s.tableMem

/-- R62, R82, R174: a move of the engine writes exactly the cells of the output offsets it adds: OUTOFF never decreases,
every offset from the old to the new OUTOFF has its cell written, and every other cell is as before. -/
def Obligations.EngineWritesOnlyTheNewPixels : Prop :=
  ∀ s t : State, Inv s → engineMoves s = true → step s = .next t →
    s.outoff.toNat ≤ t.outoff.toNat ∧
    (∀ p, s.outoff.toNat ≤ p → p < t.outoff.toNat →
      ∃ a v, pixelAddr s p = some a ∧ Memory.read t.fb a = some v) ∧
    (∀ a, (∀ p, s.outoff.toNat ≤ p → p < t.outoff.toNat → pixelAddr s p ≠ some a) →
      Memory.read t.fb a = Memory.read s.fb a)
end

