-- ==== Sys2Proof/Laws/State.lean ====
section
/-! SUPPORT. One lemma for each field of State under each named update, true by rfl. -/

namespace Sys2Proof.Machine

variable (s : State)

/-! ### `raise` -/

@[simp] theorem raise_n (c : Cause) (info : BitVec 12) : (raise c info s).n = s.n := rfl
@[simp] theorem raise_kw (c : Cause) (info : BitVec 12) : (raise c info s).kw = s.kw := rfl
@[simp] theorem raise_nent (c : Cause) (info : BitVec 12) : (raise c info s).nent = s.nent := rfl
@[simp] theorem raise_prev (c : Cause) (info : BitVec 12) : (raise c info s).prev = s.prev := rfl
@[simp] theorem raise_outoff (c : Cause) (info : BitVec 12) : (raise c info s).outoff = s.outoff := rfl
@[simp] theorem raise_subrem (c : Cause) (info : BitVec 12) : (raise c info s).subrem = s.subrem := rfl
@[simp] theorem raise_bitbuf (c : Cause) (info : BitVec 12) : (raise c info s).bitbuf = s.bitbuf := rfl
@[simp] theorem raise_bitcnt (c : Cause) (info : BitVec 12) : (raise c info s).bitcnt = s.bitcnt := rfl
@[simp] theorem raise_bytecnt (c : Cause) (info : BitVec 12) : (raise c info s).bytecnt = s.bytecnt := rfl
@[simp] theorem raise_cw (c : Cause) (info : BitVec 12) : (raise c info s).cw = s.cw := rfl
@[simp] theorem raise_ch (c : Cause) (info : BitVec 12) : (raise c info s).ch = s.ch := rfl
@[simp] theorem raise_fx (c : Cause) (info : BitVec 12) : (raise c info s).fx = s.fx := rfl
@[simp] theorem raise_fy (c : Cause) (info : BitVec 12) : (raise c info s).fy = s.fy := rfl
@[simp] theorem raise_fw (c : Cause) (info : BitVec 12) : (raise c info s).fw = s.fw := rfl
@[simp] theorem raise_fh (c : Cause) (info : BitVec 12) : (raise c info s).fh = s.fh := rfl
@[simp] theorem raise_interlace (c : Cause) (info : BitVec 12) : (raise c info s).interlace = s.interlace := rfl
@[simp] theorem raise_frozen (c : Cause) (info : BitVec 12) : (raise c info s).frozen = s.frozen := rfl
@[simp] theorem raise_prevv (c : Cause) (info : BitVec 12) : (raise c info s).prevv = s.prevv := rfl
@[simp] theorem raise_termseen (c : Cause) (info : BitVec 12) : (raise c info s).termseen = s.termseen := rfl
@[simp] theorem raise_phase (c : Cause) (info : BitVec 12) : (raise c info s).phase = .fault := rfl
@[simp] theorem raise_cause (c : Cause) (info : BitVec 12) : (raise c info s).cause = c := rfl
@[simp] theorem raise_errinfo (c : Cause) (info : BitVec 12) : (raise c info s).errinfo = info := rfl
@[simp] theorem raise_table (c : Cause) (info : BitVec 12) : (raise c info s).table = s.table := rfl
@[simp] theorem raise_tableMem (c : Cause) (info : BitVec 12) : (raise c info s).tableMem = s.tableMem := rfl
@[simp] theorem raise_source (c : Cause) (info : BitVec 12) : (raise c info s).source = s.source := rfl
@[simp] theorem raise_sourceEnded (c : Cause) (info : BitVec 12) : (raise c info s).sourceEnded = s.sourceEnded := rfl
@[simp] theorem raise_partway (c : Cause) (info : BitVec 12) : (raise c info s).partway = s.partway := rfl
@[simp] theorem raise_fb (c : Cause) (info : BitVec 12) : (raise c info s).fb = s.fb := rfl
@[simp] theorem raise_turns (c : Cause) (info : BitVec 12) : (raise c info s).turns = s.turns := rfl
@[simp] theorem raise_returned (c : Cause) (info : BitVec 12) : (raise c info s).returned = s.returned := rfl
@[simp] theorem raise_freeTick (c : Cause) (info : BitVec 12) : (raise c info s).freeTick = s.freeTick := rfl

/-! ### `forgetPrev` -/

@[simp] theorem forgetPrev_n : (forgetPrev s).n = s.n := rfl
@[simp] theorem forgetPrev_kw : (forgetPrev s).kw = s.kw := rfl
@[simp] theorem forgetPrev_nent : (forgetPrev s).nent = s.nent := rfl
@[simp] theorem forgetPrev_prev : (forgetPrev s).prev = Config.freePrev s.freeTick := rfl
@[simp] theorem forgetPrev_outoff : (forgetPrev s).outoff = s.outoff := rfl
@[simp] theorem forgetPrev_subrem : (forgetPrev s).subrem = s.subrem := rfl
@[simp] theorem forgetPrev_bitbuf : (forgetPrev s).bitbuf = s.bitbuf := rfl
@[simp] theorem forgetPrev_bitcnt : (forgetPrev s).bitcnt = s.bitcnt := rfl
@[simp] theorem forgetPrev_bytecnt : (forgetPrev s).bytecnt = s.bytecnt := rfl
@[simp] theorem forgetPrev_cw : (forgetPrev s).cw = s.cw := rfl
@[simp] theorem forgetPrev_ch : (forgetPrev s).ch = s.ch := rfl
@[simp] theorem forgetPrev_fx : (forgetPrev s).fx = s.fx := rfl
@[simp] theorem forgetPrev_fy : (forgetPrev s).fy = s.fy := rfl
@[simp] theorem forgetPrev_fw : (forgetPrev s).fw = s.fw := rfl
@[simp] theorem forgetPrev_fh : (forgetPrev s).fh = s.fh := rfl
@[simp] theorem forgetPrev_interlace : (forgetPrev s).interlace = s.interlace := rfl
@[simp] theorem forgetPrev_frozen : (forgetPrev s).frozen = s.frozen := rfl
@[simp] theorem forgetPrev_prevv : (forgetPrev s).prevv = false := rfl
@[simp] theorem forgetPrev_termseen : (forgetPrev s).termseen = s.termseen := rfl
@[simp] theorem forgetPrev_phase : (forgetPrev s).phase = s.phase := rfl
@[simp] theorem forgetPrev_cause : (forgetPrev s).cause = s.cause := rfl
@[simp] theorem forgetPrev_errinfo : (forgetPrev s).errinfo = s.errinfo := rfl
@[simp] theorem forgetPrev_table : (forgetPrev s).table = s.table := rfl
@[simp] theorem forgetPrev_tableMem : (forgetPrev s).tableMem = s.tableMem := rfl
@[simp] theorem forgetPrev_source : (forgetPrev s).source = s.source := rfl
@[simp] theorem forgetPrev_sourceEnded : (forgetPrev s).sourceEnded = s.sourceEnded := rfl
@[simp] theorem forgetPrev_partway : (forgetPrev s).partway = s.partway := rfl
@[simp] theorem forgetPrev_fb : (forgetPrev s).fb = s.fb := rfl
@[simp] theorem forgetPrev_turns : (forgetPrev s).turns = s.turns := rfl
@[simp] theorem forgetPrev_returned : (forgetPrev s).returned = s.returned := rfl
@[simp] theorem forgetPrev_freeTick : (forgetPrev s).freeTick = s.freeTick + 1 := rfl

/-! ### `wipe` -/

@[simp] theorem wipe_n : (wipe s).n = 0 := rfl
@[simp] theorem wipe_kw : (wipe s).kw = 0 := rfl
@[simp] theorem wipe_nent : (wipe s).nent = 0 := rfl
@[simp] theorem wipe_prev : (wipe s).prev = Config.freePrev s.freeTick := rfl
@[simp] theorem wipe_outoff : (wipe s).outoff = 0 := rfl
@[simp] theorem wipe_subrem : (wipe s).subrem = 0 := rfl
@[simp] theorem wipe_bitbuf : (wipe s).bitbuf = 0 := rfl
@[simp] theorem wipe_bitcnt : (wipe s).bitcnt = 0 := rfl
@[simp] theorem wipe_bytecnt : (wipe s).bytecnt = 0 := rfl
@[simp] theorem wipe_cw : (wipe s).cw = s.cw := rfl
@[simp] theorem wipe_ch : (wipe s).ch = s.ch := rfl
@[simp] theorem wipe_fx : (wipe s).fx = s.fx := rfl
@[simp] theorem wipe_fy : (wipe s).fy = s.fy := rfl
@[simp] theorem wipe_fw : (wipe s).fw = s.fw := rfl
@[simp] theorem wipe_fh : (wipe s).fh = s.fh := rfl
@[simp] theorem wipe_interlace : (wipe s).interlace = s.interlace := rfl
@[simp] theorem wipe_frozen : (wipe s).frozen = false := rfl
@[simp] theorem wipe_prevv : (wipe s).prevv = false := rfl
@[simp] theorem wipe_termseen : (wipe s).termseen = false := rfl
@[simp] theorem wipe_phase : (wipe s).phase = s.phase := rfl
@[simp] theorem wipe_cause : (wipe s).cause = .none := rfl
@[simp] theorem wipe_errinfo : (wipe s).errinfo = 0 := rfl
@[simp] theorem wipe_table : (wipe s).table = [] := rfl
@[simp] theorem wipe_tableMem : (wipe s).tableMem = s.tableMem := rfl
@[simp] theorem wipe_source : (wipe s).source = s.source := rfl
@[simp] theorem wipe_sourceEnded : (wipe s).sourceEnded = s.sourceEnded := rfl
@[simp] theorem wipe_partway : (wipe s).partway = [] := rfl
@[simp] theorem wipe_fb : (wipe s).fb = s.fb := rfl
@[simp] theorem wipe_turns : (wipe s).turns = s.turns := rfl
@[simp] theorem wipe_returned : (wipe s).returned = s.returned := rfl
@[simp] theorem wipe_freeTick : (wipe s).freeTick = s.freeTick + 1 := rfl

/-! ### `fbWrite` -/

@[simp] theorem fbWrite_n (a : Nat) (v : Byte) : (fbWrite a v s).n = s.n := rfl
@[simp] theorem fbWrite_kw (a : Nat) (v : Byte) : (fbWrite a v s).kw = s.kw := rfl
@[simp] theorem fbWrite_nent (a : Nat) (v : Byte) : (fbWrite a v s).nent = s.nent := rfl
@[simp] theorem fbWrite_prev (a : Nat) (v : Byte) : (fbWrite a v s).prev = s.prev := rfl
@[simp] theorem fbWrite_outoff (a : Nat) (v : Byte) : (fbWrite a v s).outoff = s.outoff := rfl
@[simp] theorem fbWrite_subrem (a : Nat) (v : Byte) : (fbWrite a v s).subrem = s.subrem := rfl
@[simp] theorem fbWrite_bitbuf (a : Nat) (v : Byte) : (fbWrite a v s).bitbuf = s.bitbuf := rfl
@[simp] theorem fbWrite_bitcnt (a : Nat) (v : Byte) : (fbWrite a v s).bitcnt = s.bitcnt := rfl
@[simp] theorem fbWrite_bytecnt (a : Nat) (v : Byte) : (fbWrite a v s).bytecnt = s.bytecnt := rfl
@[simp] theorem fbWrite_cw (a : Nat) (v : Byte) : (fbWrite a v s).cw = s.cw := rfl
@[simp] theorem fbWrite_ch (a : Nat) (v : Byte) : (fbWrite a v s).ch = s.ch := rfl
@[simp] theorem fbWrite_fx (a : Nat) (v : Byte) : (fbWrite a v s).fx = s.fx := rfl
@[simp] theorem fbWrite_fy (a : Nat) (v : Byte) : (fbWrite a v s).fy = s.fy := rfl
@[simp] theorem fbWrite_fw (a : Nat) (v : Byte) : (fbWrite a v s).fw = s.fw := rfl
@[simp] theorem fbWrite_fh (a : Nat) (v : Byte) : (fbWrite a v s).fh = s.fh := rfl
@[simp] theorem fbWrite_interlace (a : Nat) (v : Byte) : (fbWrite a v s).interlace = s.interlace := rfl
@[simp] theorem fbWrite_frozen (a : Nat) (v : Byte) : (fbWrite a v s).frozen = s.frozen := rfl
@[simp] theorem fbWrite_prevv (a : Nat) (v : Byte) : (fbWrite a v s).prevv = s.prevv := rfl
@[simp] theorem fbWrite_termseen (a : Nat) (v : Byte) : (fbWrite a v s).termseen = s.termseen := rfl
@[simp] theorem fbWrite_phase (a : Nat) (v : Byte) : (fbWrite a v s).phase = s.phase := rfl
@[simp] theorem fbWrite_cause (a : Nat) (v : Byte) : (fbWrite a v s).cause = s.cause := rfl
@[simp] theorem fbWrite_errinfo (a : Nat) (v : Byte) : (fbWrite a v s).errinfo = s.errinfo := rfl
@[simp] theorem fbWrite_table (a : Nat) (v : Byte) : (fbWrite a v s).table = s.table := rfl
@[simp] theorem fbWrite_tableMem (a : Nat) (v : Byte) : (fbWrite a v s).tableMem = s.tableMem := rfl
@[simp] theorem fbWrite_source (a : Nat) (v : Byte) : (fbWrite a v s).source = s.source := rfl
@[simp] theorem fbWrite_sourceEnded (a : Nat) (v : Byte) : (fbWrite a v s).sourceEnded = s.sourceEnded := rfl
@[simp] theorem fbWrite_partway (a : Nat) (v : Byte) : (fbWrite a v s).partway = s.partway := rfl
@[simp] theorem fbWrite_fb (a : Nat) (v : Byte) : (fbWrite a v s).fb = Memory.write s.fb a v := rfl
@[simp] theorem fbWrite_turns (a : Nat) (v : Byte) : (fbWrite a v s).turns = s.turns := rfl
@[simp] theorem fbWrite_returned (a : Nat) (v : Byte) : (fbWrite a v s).returned = s.returned := rfl
@[simp] theorem fbWrite_freeTick (a : Nat) (v : Byte) : (fbWrite a v s).freeTick = s.freeTick := rfl

/-! ### `tableWrite` -/

@[simp] theorem tableWrite_n (i : Nat) (e : Entry) : (tableWrite i e s).n = s.n := rfl
@[simp] theorem tableWrite_kw (i : Nat) (e : Entry) : (tableWrite i e s).kw = s.kw := rfl
@[simp] theorem tableWrite_nent (i : Nat) (e : Entry) : (tableWrite i e s).nent = s.nent := rfl
@[simp] theorem tableWrite_prev (i : Nat) (e : Entry) : (tableWrite i e s).prev = s.prev := rfl
@[simp] theorem tableWrite_outoff (i : Nat) (e : Entry) : (tableWrite i e s).outoff = s.outoff := rfl
@[simp] theorem tableWrite_subrem (i : Nat) (e : Entry) : (tableWrite i e s).subrem = s.subrem := rfl
@[simp] theorem tableWrite_bitbuf (i : Nat) (e : Entry) : (tableWrite i e s).bitbuf = s.bitbuf := rfl
@[simp] theorem tableWrite_bitcnt (i : Nat) (e : Entry) : (tableWrite i e s).bitcnt = s.bitcnt := rfl
@[simp] theorem tableWrite_bytecnt (i : Nat) (e : Entry) : (tableWrite i e s).bytecnt = s.bytecnt := rfl
@[simp] theorem tableWrite_cw (i : Nat) (e : Entry) : (tableWrite i e s).cw = s.cw := rfl
@[simp] theorem tableWrite_ch (i : Nat) (e : Entry) : (tableWrite i e s).ch = s.ch := rfl
@[simp] theorem tableWrite_fx (i : Nat) (e : Entry) : (tableWrite i e s).fx = s.fx := rfl
@[simp] theorem tableWrite_fy (i : Nat) (e : Entry) : (tableWrite i e s).fy = s.fy := rfl
@[simp] theorem tableWrite_fw (i : Nat) (e : Entry) : (tableWrite i e s).fw = s.fw := rfl
@[simp] theorem tableWrite_fh (i : Nat) (e : Entry) : (tableWrite i e s).fh = s.fh := rfl
@[simp] theorem tableWrite_interlace (i : Nat) (e : Entry) : (tableWrite i e s).interlace = s.interlace := rfl
@[simp] theorem tableWrite_frozen (i : Nat) (e : Entry) : (tableWrite i e s).frozen = s.frozen := rfl
@[simp] theorem tableWrite_prevv (i : Nat) (e : Entry) : (tableWrite i e s).prevv = s.prevv := rfl
@[simp] theorem tableWrite_termseen (i : Nat) (e : Entry) : (tableWrite i e s).termseen = s.termseen := rfl
@[simp] theorem tableWrite_phase (i : Nat) (e : Entry) : (tableWrite i e s).phase = s.phase := rfl
@[simp] theorem tableWrite_cause (i : Nat) (e : Entry) : (tableWrite i e s).cause = s.cause := rfl
@[simp] theorem tableWrite_errinfo (i : Nat) (e : Entry) : (tableWrite i e s).errinfo = s.errinfo := rfl
@[simp] theorem tableWrite_table (i : Nat) (e : Entry) : (tableWrite i e s).table = setKey i e s.table := rfl
@[simp] theorem tableWrite_tableMem (i : Nat) (e : Entry) : (tableWrite i e s).tableMem = s.tableMem := rfl
@[simp] theorem tableWrite_source (i : Nat) (e : Entry) : (tableWrite i e s).source = s.source := rfl
@[simp] theorem tableWrite_sourceEnded (i : Nat) (e : Entry) : (tableWrite i e s).sourceEnded = s.sourceEnded := rfl
@[simp] theorem tableWrite_partway (i : Nat) (e : Entry) : (tableWrite i e s).partway = s.partway := rfl
@[simp] theorem tableWrite_fb (i : Nat) (e : Entry) : (tableWrite i e s).fb = s.fb := rfl
@[simp] theorem tableWrite_turns (i : Nat) (e : Entry) : (tableWrite i e s).turns = s.turns := rfl
@[simp] theorem tableWrite_returned (i : Nat) (e : Entry) : (tableWrite i e s).returned = s.returned := rfl
@[simp] theorem tableWrite_freeTick (i : Nat) (e : Entry) : (tableWrite i e s).freeTick = s.freeTick := rfl

/-! ### `loadSubBlock` -/

@[simp] theorem loadSubBlock_n (l : Byte) : (loadSubBlock l s).n = s.n := rfl
@[simp] theorem loadSubBlock_kw (l : Byte) : (loadSubBlock l s).kw = s.kw := rfl
@[simp] theorem loadSubBlock_nent (l : Byte) : (loadSubBlock l s).nent = s.nent := rfl
@[simp] theorem loadSubBlock_prev (l : Byte) : (loadSubBlock l s).prev = s.prev := rfl
@[simp] theorem loadSubBlock_outoff (l : Byte) : (loadSubBlock l s).outoff = s.outoff := rfl
@[simp] theorem loadSubBlock_subrem (l : Byte) : (loadSubBlock l s).subrem = l := rfl
@[simp] theorem loadSubBlock_bitbuf (l : Byte) : (loadSubBlock l s).bitbuf = s.bitbuf := rfl
@[simp] theorem loadSubBlock_bitcnt (l : Byte) : (loadSubBlock l s).bitcnt = s.bitcnt := rfl
@[simp] theorem loadSubBlock_bytecnt (l : Byte) : (loadSubBlock l s).bytecnt = s.bytecnt := rfl
@[simp] theorem loadSubBlock_cw (l : Byte) : (loadSubBlock l s).cw = s.cw := rfl
@[simp] theorem loadSubBlock_ch (l : Byte) : (loadSubBlock l s).ch = s.ch := rfl
@[simp] theorem loadSubBlock_fx (l : Byte) : (loadSubBlock l s).fx = s.fx := rfl
@[simp] theorem loadSubBlock_fy (l : Byte) : (loadSubBlock l s).fy = s.fy := rfl
@[simp] theorem loadSubBlock_fw (l : Byte) : (loadSubBlock l s).fw = s.fw := rfl
@[simp] theorem loadSubBlock_fh (l : Byte) : (loadSubBlock l s).fh = s.fh := rfl
@[simp] theorem loadSubBlock_interlace (l : Byte) : (loadSubBlock l s).interlace = s.interlace := rfl
@[simp] theorem loadSubBlock_frozen (l : Byte) : (loadSubBlock l s).frozen = s.frozen := rfl
@[simp] theorem loadSubBlock_prevv (l : Byte) : (loadSubBlock l s).prevv = s.prevv := rfl
@[simp] theorem loadSubBlock_termseen (l : Byte) : (loadSubBlock l s).termseen = s.termseen := rfl
@[simp] theorem loadSubBlock_phase (l : Byte) : (loadSubBlock l s).phase = s.phase := rfl
@[simp] theorem loadSubBlock_cause (l : Byte) : (loadSubBlock l s).cause = s.cause := rfl
@[simp] theorem loadSubBlock_errinfo (l : Byte) : (loadSubBlock l s).errinfo = s.errinfo := rfl
@[simp] theorem loadSubBlock_table (l : Byte) : (loadSubBlock l s).table = s.table := rfl
@[simp] theorem loadSubBlock_tableMem (l : Byte) : (loadSubBlock l s).tableMem = s.tableMem := rfl
@[simp] theorem loadSubBlock_source (l : Byte) : (loadSubBlock l s).source = s.source := rfl
@[simp] theorem loadSubBlock_sourceEnded (l : Byte) : (loadSubBlock l s).sourceEnded = s.sourceEnded := rfl
@[simp] theorem loadSubBlock_partway (l : Byte) : (loadSubBlock l s).partway = s.partway := rfl
@[simp] theorem loadSubBlock_fb (l : Byte) : (loadSubBlock l s).fb = s.fb := rfl
@[simp] theorem loadSubBlock_turns (l : Byte) : (loadSubBlock l s).turns = s.turns := rfl
@[simp] theorem loadSubBlock_returned (l : Byte) : (loadSubBlock l s).returned = s.returned := rfl
@[simp] theorem loadSubBlock_freeTick (l : Byte) : (loadSubBlock l s).freeTick = s.freeTick := rfl

/-! ### `countPayload` -/

@[simp] theorem countPayload_n : (countPayload s).n = s.n := rfl
@[simp] theorem countPayload_kw : (countPayload s).kw = s.kw := rfl
@[simp] theorem countPayload_nent : (countPayload s).nent = s.nent := rfl
@[simp] theorem countPayload_prev : (countPayload s).prev = s.prev := rfl
@[simp] theorem countPayload_outoff : (countPayload s).outoff = s.outoff := rfl
@[simp] theorem countPayload_subrem : (countPayload s).subrem = s.subrem - 1 := rfl
@[simp] theorem countPayload_bitbuf : (countPayload s).bitbuf = s.bitbuf := rfl
@[simp] theorem countPayload_bitcnt : (countPayload s).bitcnt = s.bitcnt := rfl
@[simp] theorem countPayload_bytecnt : (countPayload s).bytecnt = s.bytecnt := rfl
@[simp] theorem countPayload_cw : (countPayload s).cw = s.cw := rfl
@[simp] theorem countPayload_ch : (countPayload s).ch = s.ch := rfl
@[simp] theorem countPayload_fx : (countPayload s).fx = s.fx := rfl
@[simp] theorem countPayload_fy : (countPayload s).fy = s.fy := rfl
@[simp] theorem countPayload_fw : (countPayload s).fw = s.fw := rfl
@[simp] theorem countPayload_fh : (countPayload s).fh = s.fh := rfl
@[simp] theorem countPayload_interlace : (countPayload s).interlace = s.interlace := rfl
@[simp] theorem countPayload_frozen : (countPayload s).frozen = s.frozen := rfl
@[simp] theorem countPayload_prevv : (countPayload s).prevv = s.prevv := rfl
@[simp] theorem countPayload_termseen : (countPayload s).termseen = s.termseen := rfl
@[simp] theorem countPayload_phase : (countPayload s).phase = s.phase := rfl
@[simp] theorem countPayload_cause : (countPayload s).cause = s.cause := rfl
@[simp] theorem countPayload_errinfo : (countPayload s).errinfo = s.errinfo := rfl
@[simp] theorem countPayload_table : (countPayload s).table = s.table := rfl
@[simp] theorem countPayload_tableMem : (countPayload s).tableMem = s.tableMem := rfl
@[simp] theorem countPayload_source : (countPayload s).source = s.source := rfl
@[simp] theorem countPayload_sourceEnded : (countPayload s).sourceEnded = s.sourceEnded := rfl
@[simp] theorem countPayload_partway : (countPayload s).partway = s.partway := rfl
@[simp] theorem countPayload_fb : (countPayload s).fb = s.fb := rfl
@[simp] theorem countPayload_turns : (countPayload s).turns = s.turns := rfl
@[simp] theorem countPayload_returned : (countPayload s).returned = s.returned := rfl
@[simp] theorem countPayload_freeTick : (countPayload s).freeTick = s.freeTick := rfl

/-! ### `mergeByte` -/

@[simp] theorem mergeByte_n (b : Byte) : (mergeByte b s).n = s.n := rfl
@[simp] theorem mergeByte_kw (b : Byte) : (mergeByte b s).kw = s.kw := rfl
@[simp] theorem mergeByte_nent (b : Byte) : (mergeByte b s).nent = s.nent := rfl
@[simp] theorem mergeByte_prev (b : Byte) : (mergeByte b s).prev = s.prev := rfl
@[simp] theorem mergeByte_outoff (b : Byte) : (mergeByte b s).outoff = s.outoff := rfl
@[simp] theorem mergeByte_subrem (b : Byte) : (mergeByte b s).subrem = s.subrem := rfl
@[simp] theorem mergeByte_bitbuf (b : Byte) : (mergeByte b s).bitbuf = s.bitbuf ||| (b.setWidth 19 <<< s.bitcnt.toNat) := rfl
@[simp] theorem mergeByte_bitcnt (b : Byte) : (mergeByte b s).bitcnt = s.bitcnt + 8 := rfl
@[simp] theorem mergeByte_bytecnt (b : Byte) : (mergeByte b s).bytecnt = s.bytecnt := rfl
@[simp] theorem mergeByte_cw (b : Byte) : (mergeByte b s).cw = s.cw := rfl
@[simp] theorem mergeByte_ch (b : Byte) : (mergeByte b s).ch = s.ch := rfl
@[simp] theorem mergeByte_fx (b : Byte) : (mergeByte b s).fx = s.fx := rfl
@[simp] theorem mergeByte_fy (b : Byte) : (mergeByte b s).fy = s.fy := rfl
@[simp] theorem mergeByte_fw (b : Byte) : (mergeByte b s).fw = s.fw := rfl
@[simp] theorem mergeByte_fh (b : Byte) : (mergeByte b s).fh = s.fh := rfl
@[simp] theorem mergeByte_interlace (b : Byte) : (mergeByte b s).interlace = s.interlace := rfl
@[simp] theorem mergeByte_frozen (b : Byte) : (mergeByte b s).frozen = s.frozen := rfl
@[simp] theorem mergeByte_prevv (b : Byte) : (mergeByte b s).prevv = s.prevv := rfl
@[simp] theorem mergeByte_termseen (b : Byte) : (mergeByte b s).termseen = s.termseen := rfl
@[simp] theorem mergeByte_phase (b : Byte) : (mergeByte b s).phase = s.phase := rfl
@[simp] theorem mergeByte_cause (b : Byte) : (mergeByte b s).cause = s.cause := rfl
@[simp] theorem mergeByte_errinfo (b : Byte) : (mergeByte b s).errinfo = s.errinfo := rfl
@[simp] theorem mergeByte_table (b : Byte) : (mergeByte b s).table = s.table := rfl
@[simp] theorem mergeByte_tableMem (b : Byte) : (mergeByte b s).tableMem = s.tableMem := rfl
@[simp] theorem mergeByte_source (b : Byte) : (mergeByte b s).source = s.source := rfl
@[simp] theorem mergeByte_sourceEnded (b : Byte) : (mergeByte b s).sourceEnded = s.sourceEnded := rfl
@[simp] theorem mergeByte_partway (b : Byte) : (mergeByte b s).partway = s.partway := rfl
@[simp] theorem mergeByte_fb (b : Byte) : (mergeByte b s).fb = s.fb := rfl
@[simp] theorem mergeByte_turns (b : Byte) : (mergeByte b s).turns = s.turns := rfl
@[simp] theorem mergeByte_returned (b : Byte) : (mergeByte b s).returned = s.returned := rfl
@[simp] theorem mergeByte_freeTick (b : Byte) : (mergeByte b s).freeTick = s.freeTick := rfl

/-! ### `dropBits` -/

@[simp] theorem dropBits_n (w : Nat) : (dropBits w s).n = s.n := rfl
@[simp] theorem dropBits_kw (w : Nat) : (dropBits w s).kw = s.kw := rfl
@[simp] theorem dropBits_nent (w : Nat) : (dropBits w s).nent = s.nent := rfl
@[simp] theorem dropBits_prev (w : Nat) : (dropBits w s).prev = s.prev := rfl
@[simp] theorem dropBits_outoff (w : Nat) : (dropBits w s).outoff = s.outoff := rfl
@[simp] theorem dropBits_subrem (w : Nat) : (dropBits w s).subrem = s.subrem := rfl
@[simp] theorem dropBits_bitbuf (w : Nat) : (dropBits w s).bitbuf = s.bitbuf >>> w := rfl
@[simp] theorem dropBits_bitcnt (w : Nat) : (dropBits w s).bitcnt = s.bitcnt - BitVec.ofNat 5 w := rfl
@[simp] theorem dropBits_bytecnt (w : Nat) : (dropBits w s).bytecnt = s.bytecnt := rfl
@[simp] theorem dropBits_cw (w : Nat) : (dropBits w s).cw = s.cw := rfl
@[simp] theorem dropBits_ch (w : Nat) : (dropBits w s).ch = s.ch := rfl
@[simp] theorem dropBits_fx (w : Nat) : (dropBits w s).fx = s.fx := rfl
@[simp] theorem dropBits_fy (w : Nat) : (dropBits w s).fy = s.fy := rfl
@[simp] theorem dropBits_fw (w : Nat) : (dropBits w s).fw = s.fw := rfl
@[simp] theorem dropBits_fh (w : Nat) : (dropBits w s).fh = s.fh := rfl
@[simp] theorem dropBits_interlace (w : Nat) : (dropBits w s).interlace = s.interlace := rfl
@[simp] theorem dropBits_frozen (w : Nat) : (dropBits w s).frozen = s.frozen := rfl
@[simp] theorem dropBits_prevv (w : Nat) : (dropBits w s).prevv = s.prevv := rfl
@[simp] theorem dropBits_termseen (w : Nat) : (dropBits w s).termseen = s.termseen := rfl
@[simp] theorem dropBits_phase (w : Nat) : (dropBits w s).phase = s.phase := rfl
@[simp] theorem dropBits_cause (w : Nat) : (dropBits w s).cause = s.cause := rfl
@[simp] theorem dropBits_errinfo (w : Nat) : (dropBits w s).errinfo = s.errinfo := rfl
@[simp] theorem dropBits_table (w : Nat) : (dropBits w s).table = s.table := rfl
@[simp] theorem dropBits_tableMem (w : Nat) : (dropBits w s).tableMem = s.tableMem := rfl
@[simp] theorem dropBits_source (w : Nat) : (dropBits w s).source = s.source := rfl
@[simp] theorem dropBits_sourceEnded (w : Nat) : (dropBits w s).sourceEnded = s.sourceEnded := rfl
@[simp] theorem dropBits_partway (w : Nat) : (dropBits w s).partway = s.partway := rfl
@[simp] theorem dropBits_fb (w : Nat) : (dropBits w s).fb = s.fb := rfl
@[simp] theorem dropBits_turns (w : Nat) : (dropBits w s).turns = s.turns := rfl
@[simp] theorem dropBits_returned (w : Nat) : (dropBits w s).returned = s.returned := rfl
@[simp] theorem dropBits_freeTick (w : Nat) : (dropBits w s).freeTick = s.freeTick := rfl

/-! ### `initialCounts` -/

@[simp] theorem initialCounts_n (n : Nat) : (initialCounts n s).n = s.n := rfl
@[simp] theorem initialCounts_kw (n : Nat) : (initialCounts n s).kw = BitVec.ofNat 4 (n + 1) := rfl
@[simp] theorem initialCounts_nent (n : Nat) : (initialCounts n s).nent = BitVec.ofNat 13 (initialCount n) := rfl
@[simp] theorem initialCounts_prev (n : Nat) : (initialCounts n s).prev = Config.freePrev s.freeTick := rfl
@[simp] theorem initialCounts_outoff (n : Nat) : (initialCounts n s).outoff = s.outoff := rfl
@[simp] theorem initialCounts_subrem (n : Nat) : (initialCounts n s).subrem = s.subrem := rfl
@[simp] theorem initialCounts_bitbuf (n : Nat) : (initialCounts n s).bitbuf = s.bitbuf := rfl
@[simp] theorem initialCounts_bitcnt (n : Nat) : (initialCounts n s).bitcnt = s.bitcnt := rfl
@[simp] theorem initialCounts_bytecnt (n : Nat) : (initialCounts n s).bytecnt = s.bytecnt := rfl
@[simp] theorem initialCounts_cw (n : Nat) : (initialCounts n s).cw = s.cw := rfl
@[simp] theorem initialCounts_ch (n : Nat) : (initialCounts n s).ch = s.ch := rfl
@[simp] theorem initialCounts_fx (n : Nat) : (initialCounts n s).fx = s.fx := rfl
@[simp] theorem initialCounts_fy (n : Nat) : (initialCounts n s).fy = s.fy := rfl
@[simp] theorem initialCounts_fw (n : Nat) : (initialCounts n s).fw = s.fw := rfl
@[simp] theorem initialCounts_fh (n : Nat) : (initialCounts n s).fh = s.fh := rfl
@[simp] theorem initialCounts_interlace (n : Nat) : (initialCounts n s).interlace = s.interlace := rfl
@[simp] theorem initialCounts_frozen (n : Nat) : (initialCounts n s).frozen = false := rfl
@[simp] theorem initialCounts_prevv (n : Nat) : (initialCounts n s).prevv = false := rfl
@[simp] theorem initialCounts_termseen (n : Nat) : (initialCounts n s).termseen = s.termseen := rfl
@[simp] theorem initialCounts_phase (n : Nat) : (initialCounts n s).phase = s.phase := rfl
@[simp] theorem initialCounts_cause (n : Nat) : (initialCounts n s).cause = s.cause := rfl
@[simp] theorem initialCounts_errinfo (n : Nat) : (initialCounts n s).errinfo = s.errinfo := rfl
@[simp] theorem initialCounts_table (n : Nat) : (initialCounts n s).table = s.table := rfl
@[simp] theorem initialCounts_tableMem (n : Nat) : (initialCounts n s).tableMem = s.tableMem := rfl
@[simp] theorem initialCounts_source (n : Nat) : (initialCounts n s).source = s.source := rfl
@[simp] theorem initialCounts_sourceEnded (n : Nat) : (initialCounts n s).sourceEnded = s.sourceEnded := rfl
@[simp] theorem initialCounts_partway (n : Nat) : (initialCounts n s).partway = s.partway := rfl
@[simp] theorem initialCounts_fb (n : Nat) : (initialCounts n s).fb = s.fb := rfl
@[simp] theorem initialCounts_turns (n : Nat) : (initialCounts n s).turns = s.turns := rfl
@[simp] theorem initialCounts_returned (n : Nat) : (initialCounts n s).returned = s.returned := rfl
@[simp] theorem initialCounts_freeTick (n : Nat) : (initialCounts n s).freeTick = s.freeTick + 1 := rfl

/-! ### `tableInit` -/

@[simp] theorem tableInit_n (n : Nat) : (tableInit n s).n = s.n := rfl
@[simp] theorem tableInit_kw (n : Nat) : (tableInit n s).kw = BitVec.ofNat 4 (n + 1) := rfl
@[simp] theorem tableInit_nent (n : Nat) : (tableInit n s).nent = BitVec.ofNat 13 (initialCount n) := rfl
@[simp] theorem tableInit_prev (n : Nat) : (tableInit n s).prev = Config.freePrev s.freeTick := rfl
@[simp] theorem tableInit_outoff (n : Nat) : (tableInit n s).outoff = s.outoff := rfl
@[simp] theorem tableInit_subrem (n : Nat) : (tableInit n s).subrem = s.subrem := rfl
@[simp] theorem tableInit_bitbuf (n : Nat) : (tableInit n s).bitbuf = s.bitbuf := rfl
@[simp] theorem tableInit_bitcnt (n : Nat) : (tableInit n s).bitcnt = s.bitcnt := rfl
@[simp] theorem tableInit_bytecnt (n : Nat) : (tableInit n s).bytecnt = s.bytecnt := rfl
@[simp] theorem tableInit_cw (n : Nat) : (tableInit n s).cw = s.cw := rfl
@[simp] theorem tableInit_ch (n : Nat) : (tableInit n s).ch = s.ch := rfl
@[simp] theorem tableInit_fx (n : Nat) : (tableInit n s).fx = s.fx := rfl
@[simp] theorem tableInit_fy (n : Nat) : (tableInit n s).fy = s.fy := rfl
@[simp] theorem tableInit_fw (n : Nat) : (tableInit n s).fw = s.fw := rfl
@[simp] theorem tableInit_fh (n : Nat) : (tableInit n s).fh = s.fh := rfl
@[simp] theorem tableInit_interlace (n : Nat) : (tableInit n s).interlace = s.interlace := rfl
@[simp] theorem tableInit_frozen (n : Nat) : (tableInit n s).frozen = false := rfl
@[simp] theorem tableInit_prevv (n : Nat) : (tableInit n s).prevv = false := rfl
@[simp] theorem tableInit_termseen (n : Nat) : (tableInit n s).termseen = s.termseen := rfl
@[simp] theorem tableInit_phase (n : Nat) : (tableInit n s).phase = s.phase := rfl
@[simp] theorem tableInit_cause (n : Nat) : (tableInit n s).cause = s.cause := rfl
@[simp] theorem tableInit_errinfo (n : Nat) : (tableInit n s).errinfo = s.errinfo := rfl
@[simp] theorem tableInit_table (n : Nat) : (tableInit n s).table = writeRoots n s.table := rfl
@[simp] theorem tableInit_tableMem (n : Nat) : (tableInit n s).tableMem = s.tableMem := rfl
@[simp] theorem tableInit_source (n : Nat) : (tableInit n s).source = s.source := rfl
@[simp] theorem tableInit_sourceEnded (n : Nat) : (tableInit n s).sourceEnded = s.sourceEnded := rfl
@[simp] theorem tableInit_partway (n : Nat) : (tableInit n s).partway = s.partway := rfl
@[simp] theorem tableInit_fb (n : Nat) : (tableInit n s).fb = s.fb := rfl
@[simp] theorem tableInit_turns (n : Nat) : (tableInit n s).turns = s.turns := rfl
@[simp] theorem tableInit_returned (n : Nat) : (tableInit n s).returned = s.returned := rfl
@[simp] theorem tableInit_freeTick (n : Nat) : (tableInit n s).freeTick = s.freeTick + 1 := rfl

/-! ### `tableClear` -/

@[simp] theorem tableClear_n : (tableClear s).n = s.n := rfl
@[simp] theorem tableClear_kw : (tableClear s).kw = BitVec.ofNat 4 (s.n.toNat + 1) := rfl
@[simp] theorem tableClear_nent : (tableClear s).nent = BitVec.ofNat 13 (initialCount s.n.toNat) := rfl
@[simp] theorem tableClear_prev : (tableClear s).prev = Config.freePrev s.freeTick := rfl
@[simp] theorem tableClear_outoff : (tableClear s).outoff = s.outoff := rfl
@[simp] theorem tableClear_subrem : (tableClear s).subrem = s.subrem := rfl
@[simp] theorem tableClear_bitbuf : (tableClear s).bitbuf = s.bitbuf := rfl
@[simp] theorem tableClear_bitcnt : (tableClear s).bitcnt = s.bitcnt := rfl
@[simp] theorem tableClear_bytecnt : (tableClear s).bytecnt = s.bytecnt := rfl
@[simp] theorem tableClear_cw : (tableClear s).cw = s.cw := rfl
@[simp] theorem tableClear_ch : (tableClear s).ch = s.ch := rfl
@[simp] theorem tableClear_fx : (tableClear s).fx = s.fx := rfl
@[simp] theorem tableClear_fy : (tableClear s).fy = s.fy := rfl
@[simp] theorem tableClear_fw : (tableClear s).fw = s.fw := rfl
@[simp] theorem tableClear_fh : (tableClear s).fh = s.fh := rfl
@[simp] theorem tableClear_interlace : (tableClear s).interlace = s.interlace := rfl
@[simp] theorem tableClear_frozen : (tableClear s).frozen = false := rfl
@[simp] theorem tableClear_prevv : (tableClear s).prevv = false := rfl
@[simp] theorem tableClear_termseen : (tableClear s).termseen = s.termseen := rfl
@[simp] theorem tableClear_phase : (tableClear s).phase = s.phase := rfl
@[simp] theorem tableClear_cause : (tableClear s).cause = s.cause := rfl
@[simp] theorem tableClear_errinfo : (tableClear s).errinfo = s.errinfo := rfl
@[simp] theorem tableClear_table : (tableClear s).table = s.table := rfl
@[simp] theorem tableClear_tableMem : (tableClear s).tableMem = s.tableMem := rfl
@[simp] theorem tableClear_source : (tableClear s).source = s.source := rfl
@[simp] theorem tableClear_sourceEnded : (tableClear s).sourceEnded = s.sourceEnded := rfl
@[simp] theorem tableClear_partway : (tableClear s).partway = s.partway := rfl
@[simp] theorem tableClear_fb : (tableClear s).fb = s.fb := rfl
@[simp] theorem tableClear_turns : (tableClear s).turns = s.turns := rfl
@[simp] theorem tableClear_returned : (tableClear s).returned = s.returned := rfl
@[simp] theorem tableClear_freeTick : (tableClear s).freeTick = s.freeTick + 1 := rfl

/-! ### `finishCode` -/

@[simp] theorem finishCode_n (c : Code) (len : Nat) : (finishCode c len s).n = s.n := rfl
@[simp] theorem finishCode_kw (c : Code) (len : Nat) : (finishCode c len s).kw = s.kw := rfl
@[simp] theorem finishCode_nent (c : Code) (len : Nat) : (finishCode c len s).nent = s.nent := rfl
@[simp] theorem finishCode_prev (c : Code) (len : Nat) : (finishCode c len s).prev = c := rfl
@[simp] theorem finishCode_outoff (c : Code) (len : Nat) : (finishCode c len s).outoff = BitVec.ofNat 32 (s.outoff.toNat + len) := rfl
@[simp] theorem finishCode_subrem (c : Code) (len : Nat) : (finishCode c len s).subrem = s.subrem := rfl
@[simp] theorem finishCode_bitbuf (c : Code) (len : Nat) : (finishCode c len s).bitbuf = s.bitbuf := rfl
@[simp] theorem finishCode_bitcnt (c : Code) (len : Nat) : (finishCode c len s).bitcnt = s.bitcnt := rfl
@[simp] theorem finishCode_bytecnt (c : Code) (len : Nat) : (finishCode c len s).bytecnt = s.bytecnt := rfl
@[simp] theorem finishCode_cw (c : Code) (len : Nat) : (finishCode c len s).cw = s.cw := rfl
@[simp] theorem finishCode_ch (c : Code) (len : Nat) : (finishCode c len s).ch = s.ch := rfl
@[simp] theorem finishCode_fx (c : Code) (len : Nat) : (finishCode c len s).fx = s.fx := rfl
@[simp] theorem finishCode_fy (c : Code) (len : Nat) : (finishCode c len s).fy = s.fy := rfl
@[simp] theorem finishCode_fw (c : Code) (len : Nat) : (finishCode c len s).fw = s.fw := rfl
@[simp] theorem finishCode_fh (c : Code) (len : Nat) : (finishCode c len s).fh = s.fh := rfl
@[simp] theorem finishCode_interlace (c : Code) (len : Nat) : (finishCode c len s).interlace = s.interlace := rfl
@[simp] theorem finishCode_frozen (c : Code) (len : Nat) : (finishCode c len s).frozen = s.frozen := rfl
@[simp] theorem finishCode_prevv (c : Code) (len : Nat) : (finishCode c len s).prevv = true := rfl
@[simp] theorem finishCode_termseen (c : Code) (len : Nat) : (finishCode c len s).termseen = s.termseen := rfl
@[simp] theorem finishCode_phase (c : Code) (len : Nat) : (finishCode c len s).phase = s.phase := rfl
@[simp] theorem finishCode_cause (c : Code) (len : Nat) : (finishCode c len s).cause = s.cause := rfl
@[simp] theorem finishCode_errinfo (c : Code) (len : Nat) : (finishCode c len s).errinfo = s.errinfo := rfl
@[simp] theorem finishCode_table (c : Code) (len : Nat) : (finishCode c len s).table = s.table := rfl
@[simp] theorem finishCode_tableMem (c : Code) (len : Nat) : (finishCode c len s).tableMem = s.tableMem := rfl
@[simp] theorem finishCode_source (c : Code) (len : Nat) : (finishCode c len s).source = s.source := rfl
@[simp] theorem finishCode_sourceEnded (c : Code) (len : Nat) : (finishCode c len s).sourceEnded = s.sourceEnded := rfl
@[simp] theorem finishCode_partway (c : Code) (len : Nat) : (finishCode c len s).partway = s.partway := rfl
@[simp] theorem finishCode_fb (c : Code) (len : Nat) : (finishCode c len s).fb = s.fb := rfl
@[simp] theorem finishCode_turns (c : Code) (len : Nat) : (finishCode c len s).turns = s.turns := rfl
@[simp] theorem finishCode_returned (c : Code) (len : Nat) : (finishCode c len s).returned = s.returned := rfl
@[simp] theorem finishCode_freeTick (c : Code) (len : Nat) : (finishCode c len s).freeTick = s.freeTick := rfl

/-! ### `stopRun` -/

@[simp] theorem stopRun_n : (stopRun s).n = s.n := rfl
@[simp] theorem stopRun_kw : (stopRun s).kw = s.kw := rfl
@[simp] theorem stopRun_nent : (stopRun s).nent = s.nent := rfl
@[simp] theorem stopRun_prev : (stopRun s).prev = s.prev := rfl
@[simp] theorem stopRun_outoff : (stopRun s).outoff = s.outoff := rfl
@[simp] theorem stopRun_subrem : (stopRun s).subrem = s.subrem := rfl
@[simp] theorem stopRun_bitbuf : (stopRun s).bitbuf = s.bitbuf := rfl
@[simp] theorem stopRun_bitcnt : (stopRun s).bitcnt = s.bitcnt := rfl
@[simp] theorem stopRun_bytecnt : (stopRun s).bytecnt = s.bytecnt := rfl
@[simp] theorem stopRun_cw : (stopRun s).cw = s.cw := rfl
@[simp] theorem stopRun_ch : (stopRun s).ch = s.ch := rfl
@[simp] theorem stopRun_fx : (stopRun s).fx = s.fx := rfl
@[simp] theorem stopRun_fy : (stopRun s).fy = s.fy := rfl
@[simp] theorem stopRun_fw : (stopRun s).fw = s.fw := rfl
@[simp] theorem stopRun_fh : (stopRun s).fh = s.fh := rfl
@[simp] theorem stopRun_interlace : (stopRun s).interlace = s.interlace := rfl
@[simp] theorem stopRun_frozen : (stopRun s).frozen = s.frozen := rfl
@[simp] theorem stopRun_prevv : (stopRun s).prevv = s.prevv := rfl
@[simp] theorem stopRun_termseen : (stopRun s).termseen = s.termseen := rfl
@[simp] theorem stopRun_phase : (stopRun s).phase = .drain := rfl
@[simp] theorem stopRun_cause : (stopRun s).cause = s.cause := rfl
@[simp] theorem stopRun_errinfo : (stopRun s).errinfo = s.errinfo := rfl
@[simp] theorem stopRun_table : (stopRun s).table = s.table := rfl
@[simp] theorem stopRun_tableMem : (stopRun s).tableMem = s.tableMem := rfl
@[simp] theorem stopRun_source : (stopRun s).source = s.source := rfl
@[simp] theorem stopRun_sourceEnded : (stopRun s).sourceEnded = s.sourceEnded := rfl
@[simp] theorem stopRun_partway : (stopRun s).partway = s.partway := rfl
@[simp] theorem stopRun_fb : (stopRun s).fb = s.fb := rfl
@[simp] theorem stopRun_turns : (stopRun s).turns = s.turns := rfl
@[simp] theorem stopRun_returned : (stopRun s).returned = s.returned := rfl
@[simp] theorem stopRun_freeTick : (stopRun s).freeTick = s.freeTick := rfl

/-! ### `resume` -/

@[simp] theorem resume_n : (resume s).n = s.n := rfl
@[simp] theorem resume_kw : (resume s).kw = s.kw := rfl
@[simp] theorem resume_nent : (resume s).nent = s.nent := rfl
@[simp] theorem resume_prev : (resume s).prev = s.prev := rfl
@[simp] theorem resume_outoff : (resume s).outoff = s.outoff := rfl
@[simp] theorem resume_subrem : (resume s).subrem = s.subrem := rfl
@[simp] theorem resume_bitbuf : (resume s).bitbuf = s.bitbuf := rfl
@[simp] theorem resume_bitcnt : (resume s).bitcnt = s.bitcnt := rfl
@[simp] theorem resume_bytecnt : (resume s).bytecnt = s.bytecnt := rfl
@[simp] theorem resume_cw : (resume s).cw = s.cw := rfl
@[simp] theorem resume_ch : (resume s).ch = s.ch := rfl
@[simp] theorem resume_fx : (resume s).fx = s.fx := rfl
@[simp] theorem resume_fy : (resume s).fy = s.fy := rfl
@[simp] theorem resume_fw : (resume s).fw = s.fw := rfl
@[simp] theorem resume_fh : (resume s).fh = s.fh := rfl
@[simp] theorem resume_interlace : (resume s).interlace = s.interlace := rfl
@[simp] theorem resume_frozen : (resume s).frozen = s.frozen := rfl
@[simp] theorem resume_prevv : (resume s).prevv = s.prevv := rfl
@[simp] theorem resume_termseen : (resume s).termseen = s.termseen := rfl
@[simp] theorem resume_phase : (resume s).phase = s.phase := rfl
@[simp] theorem resume_cause : (resume s).cause = s.cause := rfl
@[simp] theorem resume_errinfo : (resume s).errinfo = s.errinfo := rfl
@[simp] theorem resume_table : (resume s).table = s.table := rfl
@[simp] theorem resume_tableMem : (resume s).tableMem = s.tableMem := rfl
@[simp] theorem resume_source : (resume s).source = s.partway ++ s.source := rfl
@[simp] theorem resume_sourceEnded : (resume s).sourceEnded = s.sourceEnded := rfl
@[simp] theorem resume_partway : (resume s).partway = [] := rfl
@[simp] theorem resume_fb : (resume s).fb = s.fb := rfl
@[simp] theorem resume_turns : (resume s).turns = s.turns := rfl
@[simp] theorem resume_returned : (resume s).returned = s.returned := rfl
@[simp] theorem resume_freeTick : (resume s).freeTick = s.freeTick := rfl

/-! ### `stall` -/

@[simp] theorem stall_n : (stall s).n = s.n := rfl
@[simp] theorem stall_kw : (stall s).kw = s.kw := rfl
@[simp] theorem stall_nent : (stall s).nent = s.nent := rfl
@[simp] theorem stall_prev : (stall s).prev = s.prev := rfl
@[simp] theorem stall_outoff : (stall s).outoff = s.outoff := rfl
@[simp] theorem stall_subrem : (stall s).subrem = s.subrem := rfl
@[simp] theorem stall_bitbuf : (stall s).bitbuf = s.bitbuf := rfl
@[simp] theorem stall_bitcnt : (stall s).bitcnt = s.bitcnt := rfl
@[simp] theorem stall_bytecnt : (stall s).bytecnt = s.bytecnt := rfl
@[simp] theorem stall_cw : (stall s).cw = s.cw := rfl
@[simp] theorem stall_ch : (stall s).ch = s.ch := rfl
@[simp] theorem stall_fx : (stall s).fx = s.fx := rfl
@[simp] theorem stall_fy : (stall s).fy = s.fy := rfl
@[simp] theorem stall_fw : (stall s).fw = s.fw := rfl
@[simp] theorem stall_fh : (stall s).fh = s.fh := rfl
@[simp] theorem stall_interlace : (stall s).interlace = s.interlace := rfl
@[simp] theorem stall_frozen : (stall s).frozen = s.frozen := rfl
@[simp] theorem stall_prevv : (stall s).prevv = s.prevv := rfl
@[simp] theorem stall_termseen : (stall s).termseen = s.termseen := rfl
@[simp] theorem stall_phase : (stall s).phase = s.phase := rfl
@[simp] theorem stall_cause : (stall s).cause = s.cause := rfl
@[simp] theorem stall_errinfo : (stall s).errinfo = s.errinfo := rfl
@[simp] theorem stall_table : (stall s).table = s.table := rfl
@[simp] theorem stall_tableMem : (stall s).tableMem = s.tableMem := rfl
@[simp] theorem stall_source : (stall s).source = [] := rfl
@[simp] theorem stall_sourceEnded : (stall s).sourceEnded = s.sourceEnded := rfl
@[simp] theorem stall_partway : (stall s).partway = s.partway ++ s.source := rfl
@[simp] theorem stall_fb : (stall s).fb = s.fb := rfl
@[simp] theorem stall_turns : (stall s).turns = s.turns := rfl
@[simp] theorem stall_returned : (stall s).returned = s.returned := rfl
@[simp] theorem stall_freeTick : (stall s).freeTick = s.freeTick := rfl

/-! ### `countEntry`: NENT, KW and FROZEN only -/

@[simp] theorem countEntry_n : (countEntry s).n = s.n := by
  simp only [countEntry]; split <;> [rfl; (split <;> rfl)]
@[simp] theorem countEntry_prev : (countEntry s).prev = s.prev := by
  simp only [countEntry]; split <;> [rfl; (split <;> rfl)]
@[simp] theorem countEntry_outoff : (countEntry s).outoff = s.outoff := by
  simp only [countEntry]; split <;> [rfl; (split <;> rfl)]
@[simp] theorem countEntry_subrem : (countEntry s).subrem = s.subrem := by
  simp only [countEntry]; split <;> [rfl; (split <;> rfl)]
@[simp] theorem countEntry_bitbuf : (countEntry s).bitbuf = s.bitbuf := by
  simp only [countEntry]; split <;> [rfl; (split <;> rfl)]
@[simp] theorem countEntry_bitcnt : (countEntry s).bitcnt = s.bitcnt := by
  simp only [countEntry]; split <;> [rfl; (split <;> rfl)]
@[simp] theorem countEntry_bytecnt : (countEntry s).bytecnt = s.bytecnt := by
  simp only [countEntry]; split <;> [rfl; (split <;> rfl)]
@[simp] theorem countEntry_cw : (countEntry s).cw = s.cw := by
  simp only [countEntry]; split <;> [rfl; (split <;> rfl)]
@[simp] theorem countEntry_ch : (countEntry s).ch = s.ch := by
  simp only [countEntry]; split <;> [rfl; (split <;> rfl)]
@[simp] theorem countEntry_fx : (countEntry s).fx = s.fx := by
  simp only [countEntry]; split <;> [rfl; (split <;> rfl)]
@[simp] theorem countEntry_fy : (countEntry s).fy = s.fy := by
  simp only [countEntry]; split <;> [rfl; (split <;> rfl)]
@[simp] theorem countEntry_fw : (countEntry s).fw = s.fw := by
  simp only [countEntry]; split <;> [rfl; (split <;> rfl)]
@[simp] theorem countEntry_fh : (countEntry s).fh = s.fh := by
  simp only [countEntry]; split <;> [rfl; (split <;> rfl)]
@[simp] theorem countEntry_interlace : (countEntry s).interlace = s.interlace := by
  simp only [countEntry]; split <;> [rfl; (split <;> rfl)]
@[simp] theorem countEntry_prevv : (countEntry s).prevv = s.prevv := by
  simp only [countEntry]; split <;> [rfl; (split <;> rfl)]
@[simp] theorem countEntry_termseen : (countEntry s).termseen = s.termseen := by
  simp only [countEntry]; split <;> [rfl; (split <;> rfl)]
@[simp] theorem countEntry_phase : (countEntry s).phase = s.phase := by
  simp only [countEntry]; split <;> [rfl; (split <;> rfl)]
@[simp] theorem countEntry_cause : (countEntry s).cause = s.cause := by
  simp only [countEntry]; split <;> [rfl; (split <;> rfl)]
@[simp] theorem countEntry_errinfo : (countEntry s).errinfo = s.errinfo := by
  simp only [countEntry]; split <;> [rfl; (split <;> rfl)]
@[simp] theorem countEntry_table : (countEntry s).table = s.table := by
  simp only [countEntry]; split <;> [rfl; (split <;> rfl)]
@[simp] theorem countEntry_tableMem : (countEntry s).tableMem = s.tableMem := by
  simp only [countEntry]; split <;> [rfl; (split <;> rfl)]
@[simp] theorem countEntry_source : (countEntry s).source = s.source := by
  simp only [countEntry]; split <;> [rfl; (split <;> rfl)]
@[simp] theorem countEntry_sourceEnded : (countEntry s).sourceEnded = s.sourceEnded := by
  simp only [countEntry]; split <;> [rfl; (split <;> rfl)]
@[simp] theorem countEntry_partway : (countEntry s).partway = s.partway := by
  simp only [countEntry]; split <;> [rfl; (split <;> rfl)]
@[simp] theorem countEntry_fb : (countEntry s).fb = s.fb := by
  simp only [countEntry]; split <;> [rfl; (split <;> rfl)]
@[simp] theorem countEntry_turns : (countEntry s).turns = s.turns := by
  simp only [countEntry]; split <;> [rfl; (split <;> rfl)]
@[simp] theorem countEntry_returned : (countEntry s).returned = s.returned := by
  simp only [countEntry]; split <;> [rfl; (split <;> rfl)]
@[simp] theorem countEntry_freeTick : (countEntry s).freeTick = s.freeTick := by
  simp only [countEntry]; split <;> [rfl; (split <;> rfl)]

theorem countEntry_nent : (countEntry s).nent = BitVec.ofNat 13 (s.nent.toNat + 1) := by
  simp only [countEntry]; split <;> [rfl; (split <;> rfl)]

/-- FROZEN after an append (R148). -/
theorem countEntry_frozen :
    (countEntry s).frozen = if s.nent.toNat + 1 = Config.tableCap then true else s.frozen := by
  simp only [countEntry]; split <;> [rfl; (split <;> rfl)]

/-- KW after an append (R147). -/
theorem countEntry_kw :
    (countEntry s).kw =
      if s.nent.toNat + 1 ≠ Config.tableCap ∧ s.nent.toNat + 1 = 2 ^ s.kw.toNat then
        BitVec.ofNat 4 (s.kw.toNat + 1)
      else s.kw := by
  simp only [countEntry]
  split
  · simp_all
  · split <;> simp_all

end Sys2Proof.Machine
end

