-- ==== Sys2Proof/Laws/Lists.lean ====
section
/-! SUPPORT. The memories as sorted lists: reads after writes, and that every memory operation keeps the canonical
form. -/

namespace Sys2Proof.Machine

variable {α : Type}

/-! ### `getKey` and `setKey` -/

theorem getKey_setKey_same (k : Nat) (v : α) (l : List (Nat × α)) : getKey k (setKey k v l) = some v := by
  induction l with
  | nil => simp [setKey, getKey]
  | cons p l ih =>
    obtain ⟨j, w⟩ := p
    simp only [setKey]
    split
    · simp [getKey]
    · split
      · simp [getKey]
      · next h1 h2 => simp [getKey, Ne.symm h2, ih]

theorem getKey_setKey_other {j k : Nat} (h : j ≠ k) (v : α) (l : List (Nat × α)) :
    getKey j (setKey k v l) = getKey j l := by
  induction l with
  | nil => simp [setKey, getKey, h.symm]
  | cons p l ih =>
    obtain ⟨i, w⟩ := p
    simp only [setKey]
    split
    · simp [getKey, h.symm]
    · split
      · next h1 h2 => subst h2; simp [getKey, h.symm]
      · simp only [getKey, ih]

theorem getKey_setKey (j k : Nat) (v : α) (l : List (Nat × α)) :
    getKey j (setKey k v l) = if j = k then some v else getKey j l := by
  split
  · next h => subst h; exact getKey_setKey_same j v l
  · next h => exact getKey_setKey_other h v l

theorem mem_setKey {k : Nat} {v : α} {l : List (Nat × α)} {p : Nat × α} (h : p ∈ setKey k v l) :
    p = (k, v) ∨ p ∈ l := by
  induction l with
  | nil => simpa [setKey] using h
  | cons q l ih =>
    obtain ⟨j, w⟩ := q
    simp only [setKey] at h
    split at h
    · simpa using h
    · split at h
      · rcases List.mem_cons.1 h with h | h
        · exact .inl h
        · exact .inr (List.mem_cons_of_mem _ h)
      · rcases List.mem_cons.1 h with h | h
        · exact .inr (h ▸ List.mem_cons_self)
        · rcases ih h with h | h
          · exact .inl h
          · exact .inr (List.mem_cons_of_mem _ h)

/-- Setting a key keeps the canonical form. -/
theorem sorted_setKey (k : Nat) (v : α) {l : List (Nat × α)} (h : sorted l) : sorted (setKey k v l) := by
  induction l with
  | nil => simp [setKey, sorted]
  | cons q l ih =>
    obtain ⟨j, w⟩ := q
    obtain ⟨h1, h2⟩ := List.pairwise_cons.1 h
    simp only [setKey]
    split
    · next hk =>
      refine List.pairwise_cons.2 ⟨fun p hp => ?_, h⟩
      rcases List.mem_cons.1 hp with rfl | hp
      · exact hk
      · exact Nat.lt_trans hk (h1 p hp)
    · split
      · next hk => subst hk; exact List.pairwise_cons.2 ⟨h1, h2⟩
      · next hk hk' =>
        refine List.pairwise_cons.2 ⟨fun p hp => ?_, ih h2⟩
        rcases mem_setKey hp with rfl | hp
        · simp only; omega
        · exact h1 p hp

/-- In a sorted list a listed pair is what its key reads as. -/
theorem getKey_of_mem {k : Nat} {v : α} {l : List (Nat × α)} (h : sorted l) (hm : (k, v) ∈ l) :
    getKey k l = some v := by
  induction l with
  | nil => simp at hm
  | cons q l ih =>
    obtain ⟨j, w⟩ := q
    obtain ⟨h1, h2⟩ := List.pairwise_cons.1 h
    rcases List.mem_cons.1 hm with he | hm
    · simp_all [getKey]
    · have := h1 _ hm
      simp only [getKey]
      rw [if_neg (by simp only at this; omega)]
      exact ih h2 hm

theorem mem_of_getKey {k : Nat} {v : α} {l : List (Nat × α)} (h : getKey k l = some v) : (k, v) ∈ l := by
  induction l with
  | nil => simp [getKey] at h
  | cons q l ih =>
    obtain ⟨j, w⟩ := q
    simp only [getKey] at h
    split at h
    · simp_all
    · exact List.mem_cons_of_mem _ (ih h)

/-! ### The frame buffer -/

/-- A read after a write (R68). -/
theorem Memory.read_write (m : Memory) (a b : Nat) (v : Byte) :
    Memory.read (Memory.write m a v) b = if b = a then some v else Memory.read m b :=
  getKey_setKey b a v m

/-- A write keeps the canonical form. -/
theorem Memory.wf_write {m : Memory} (h : Memory.wf m) (a : Nat) (v : Byte) : Memory.wf (Memory.write m a v) :=
  sorted_setKey a v h

theorem Memory.wf_reset : Memory.wf State.reset.fb := List.Pairwise.nil

/-! ### The table store -/

/-- An entry written inside the store keeps the canonical form. -/
theorem Table.wf_setKey {t : Table} (h : Table.wf t) {k : Nat} (hk : k < Config.tableCap) (e : Entry) :
    Table.wf (setKey k e t) := by
  refine ⟨sorted_setKey k e h.1, fun p hp => ?_⟩
  rcases mem_setKey hp with rfl | hp
  · exact hk
  · exact h.2 p hp

theorem mem_rootsFrom {k m : Nat} {p : Nat × Entry} (h : p ∈ rootsFrom k m) : k ≤ p.1 ∧ p.1 < k + m := by
  induction m generalizing k with
  | zero => simp [rootsFrom] at h
  | succ m ih =>
    rcases List.mem_cons.1 h with rfl | h
    · simp
    · have := ih h; omega

theorem sorted_rootsFrom (k m : Nat) : sorted (rootsFrom k m) := by
  induction m generalizing k with
  | zero => exact List.Pairwise.nil
  | succ m ih =>
    refine List.pairwise_cons.2 ⟨fun p hp => ?_, ih _⟩
    have := mem_rootsFrom hp
    simp only; omega

/-- What the root part of the store reads as (R142). -/
theorem getKey_rootsFrom (j k m : Nat) :
    getKey j (rootsFrom k m) = if k ≤ j ∧ j < k + m then some (rootEntry j) else none := by
  induction m generalizing k with
  | zero => simp [rootsFrom, getKey]
  | succ m ih =>
    simp only [rootsFrom, getKey, ih]
    by_cases h : k = j
    · subst h; simp
    · rw [if_neg h]
      congr 1
      simp only [eq_iff_iff]
      omega

theorem getKey_append (j : Nat) (l l' : List (Nat × α)) :
    getKey j (l ++ l') = (getKey j l).or (getKey j l') := by
  induction l with
  | nil => simp [getKey]
  | cons q l ih =>
    obtain ⟨i, w⟩ := q
    simp only [List.cons_append, getKey, ih]
    split <;> simp

theorem getKey_filter_ge (j b : Nat) (l : List (Nat × α)) :
    getKey j (l.filter fun p => decide (b ≤ p.1)) = if b ≤ j then getKey j l else none := by
  induction l with
  | nil => simp [getKey]
  | cons q l ih =>
    obtain ⟨i, w⟩ := q
    by_cases hb : b ≤ i
    · rw [List.filter_cons_of_pos (by simpa using hb)]
      simp only [getKey, ih]
      by_cases hij : i = j
      · subst hij; simp [hb]
      · simp [hij]
    · rw [List.filter_cons_of_neg (by simpa using hb), ih]
      simp only [getKey]
      by_cases hij : i = j
      · subst hij; simp [hb]
      · simp [hij]

/-- What the store reads as after its roots are written (R142). -/
theorem getKey_writeRoots (j n : Nat) (t : Table) :
    getKey j (writeRoots n t) = if j < 2 ^ n then some (rootEntry j) else getKey j t := by
  rw [writeRoots, getKey_append, getKey_rootsFrom, getKey_filter_ge]
  by_cases h : j < 2 ^ n
  · simp [h]
  · have h' : 2 ^ n ≤ j := Nat.le_of_not_lt h
    simp [h, h']

/-- Writing the roots of a legal code size keeps the canonical form. -/
theorem Table.wf_writeRoots {t : Table} (h : Table.wf t) {n : Nat} (hn : n ≤ 8) : Table.wf (writeRoots n t) := by
  have hp : 2 ^ n ≤ 2 ^ 8 := Nat.pow_le_pow_right (by decide) hn
  constructor
  · refine List.pairwise_append.2 ⟨sorted_rootsFrom 0 _, h.1.filter _, fun p hp q hq => ?_⟩
    have h1 := mem_rootsFrom hp
    have h2 : 2 ^ n ≤ q.1 := by simpa using (List.mem_filter.1 hq).2
    omega
  · intro p hm
    rcases List.mem_append.1 hm with hm | hm
    · have := mem_rootsFrom hm
      simp only [Config.tableCap]; omega
    · exact h.2 p (List.mem_filter.1 hm).1

theorem Table.wf_reset : Table.wf State.reset.table := ⟨List.Pairwise.nil, by simp [State.reset]⟩

end Sys2Proof.Machine
end

