-- ==== Sys2Proof/Laws/Reader.lean ====
section
/-! SUPPORT. What the code reader can do (R120 to R129): one inversion lemma for each of its operations, and the law
that GetCode reads the payload's bits in order (R32). -/

namespace Sys2Proof.Machine

/-! ### `sameBesidesCursor` -/

theorem sameBesidesCursor.refl (s : State) : sameBesidesCursor s s := rfl

theorem sameBesidesCursor.trans {s t u : State} (h : sameBesidesCursor s t) (h' : sameBesidesCursor t u) :
    sameBesidesCursor s u := by
  unfold sameBesidesCursor at *
  rw [← h, ← h']

theorem mergeByte_same (b : Byte) (s : State) : sameBesidesCursor s (mergeByte b s) := rfl
theorem dropBits_same (w : Nat) (s : State) : sameBesidesCursor s (dropBits w s) := rfl

/-- A field that is not the cursor's is the same. -/
theorem cursorField {α : Type} {s t : State} (h : sameBesidesCursor s t) (f : State → α) :
    f { t with
      subrem := s.subrem, bitbuf := s.bitbuf, bitcnt := s.bitcnt, bytecnt := s.bytecnt, source := s.source } = f s :=
  congrArg f h

section fields
variable {s t : State} (h : sameBesidesCursor s t)
include h
theorem sameBesidesCursor.n : t.n = s.n := cursorField h State.n
theorem sameBesidesCursor.kw : t.kw = s.kw := cursorField h State.kw
theorem sameBesidesCursor.nent : t.nent = s.nent := cursorField h State.nent
theorem sameBesidesCursor.prev : t.prev = s.prev := cursorField h State.prev
theorem sameBesidesCursor.outoff : t.outoff = s.outoff := cursorField h State.outoff
theorem sameBesidesCursor.cw : t.cw = s.cw := cursorField h State.cw
theorem sameBesidesCursor.ch : t.ch = s.ch := cursorField h State.ch
theorem sameBesidesCursor.fx : t.fx = s.fx := cursorField h State.fx
theorem sameBesidesCursor.fy : t.fy = s.fy := cursorField h State.fy
theorem sameBesidesCursor.fw : t.fw = s.fw := cursorField h State.fw
theorem sameBesidesCursor.fh : t.fh = s.fh := cursorField h State.fh
theorem sameBesidesCursor.interlace : t.interlace = s.interlace := cursorField h State.interlace
theorem sameBesidesCursor.frozen : t.frozen = s.frozen := cursorField h State.frozen
theorem sameBesidesCursor.prevv : t.prevv = s.prevv := cursorField h State.prevv
theorem sameBesidesCursor.termseen : t.termseen = s.termseen := cursorField h State.termseen
theorem sameBesidesCursor.phase : t.phase = s.phase := cursorField h State.phase
theorem sameBesidesCursor.cause : t.cause = s.cause := cursorField h State.cause
theorem sameBesidesCursor.errinfo : t.errinfo = s.errinfo := cursorField h State.errinfo
theorem sameBesidesCursor.table : t.table = s.table := cursorField h State.table
theorem sameBesidesCursor.tableMem : t.tableMem = s.tableMem := cursorField h State.tableMem
theorem sameBesidesCursor.sourceEnded : t.sourceEnded = s.sourceEnded := cursorField h State.sourceEnded
theorem sameBesidesCursor.partway : t.partway = s.partway := cursorField h State.partway
theorem sameBesidesCursor.fb : t.fb = s.fb := cursorField h State.fb
theorem sameBesidesCursor.turns : t.turns = s.turns := cursorField h State.turns
theorem sameBesidesCursor.returned : t.returned = s.returned := cursorField h State.returned
theorem sameBesidesCursor.freeTick : t.freeTick = s.freeTick := cursorField h State.freeTick
end fields

/-! ### Payload and bits -/

theorem payloadFrom_nil (r : Nat) : payloadFrom r [] = [] := by cases r <;> rfl

theorem payloadFrom_succ (r : Nat) (b : Byte) (l : List Byte) :
    payloadFrom (r + 1) (b :: l) = b :: payloadFrom r l := rfl

theorem payloadFrom_zero (b : Byte) (l : List Byte) :
    payloadFrom 0 (b :: l) = if b = 0 then [] else payloadFrom b.toNat l := rfl

theorem terminatorAfter_nil (r : Nat) : terminatorAfter r [] = false := by cases r <;> rfl

theorem terminatorAfter_succ (r : Nat) (b : Byte) (l : List Byte) :
    terminatorAfter (r + 1) (b :: l) = terminatorAfter r l := rfl

theorem terminatorAfter_zero (b : Byte) (l : List Byte) :
    terminatorAfter 0 (b :: l) = if b = 0 then true else terminatorAfter b.toNat l := rfl

theorem payloadFrom_length_le (r : Nat) (l : List Byte) : (payloadFrom r l).length ≤ l.length := by
  induction l generalizing r with
  | nil => simp [payloadFrom_nil]
  | cons b l ih =>
    cases r with
    | zero =>
      rw [payloadFrom_zero]
      split
      · simp
      · exact Nat.le_succ_of_le (ih _)
    | succ r => simpa [payloadFrom_succ] using ih r

theorem leNat_cons (b : Byte) (l : List Byte) : leNat (b :: l) = b.toNat + 256 * leNat l := rfl

theorem leNat_lt (l : List Byte) : leNat l < 2 ^ (8 * l.length) := by
  induction l with
  | nil => simp [leNat]
  | cons b l ih =>
    have := b.isLt
    have h : 2 ^ (8 * (b :: l).length) = 256 * 2 ^ (8 * l.length) := by
      rw [List.length_cons, Nat.mul_succ, Nat.pow_add]; omega
    rw [leNat_cons, h]
    omega

/-- A byte subtracted from a non-zero SUBREM. -/
theorem subrem_pred {r : BitVec 8} (h : r ≠ 0) : (r - 1).toNat + 1 = r.toNat := by
  have : r.toNat ≠ 0 := fun h0 => h (BitVec.eq_of_toNat_eq (by simpa using h0))
  have := r.isLt
  have h1 : (1 : BitVec 8).toNat = 1 := rfl
  rw [BitVec.toNat_sub, h1]
  omega

/-! ### `SrcNext` (R120) -/

theorem srcNext_cons {s : State} {b : Byte} {rest : List Byte} (h : s.source = b :: rest) :
    srcNext s = .got b { s with source := rest, bytecnt := s.bytecnt + 1 } := by
  simp [srcNext, h]

theorem srcNext_ended {s : State} (h : s.source = []) (he : s.sourceEnded = true) :
    srcNext s = .raised (raise .truncatedRead 0 s) := by
  simp [srcNext, h, he]

theorem srcNext_waiting {s : State} (h : s.source = []) (he : s.sourceEnded = false) :
    srcNext s = .waiting := by
  simp [srcNext, h, he]

/-! ### `NextDataByte` (R122) -/

/-- The bits held are the same. -/
def sameBits (s t : State) : Prop := t.bitbuf = s.bitbuf ∧ t.bitcnt = s.bitcnt

/-- Everything `NextDataByte` can do. -/
theorem nextDataByte_cases (s : State) :
    (∃ b t, nextDataByte s = .got b t ∧ sameBesidesCursor s t ∧ sameBits s t ∧ payload s = b :: payload t ∧
      terminatorStands t = terminatorStands s ∧
      ∃ taken, s.source = taken ++ t.source ∧ 1 ≤ taken.length ∧ taken.length ≤ 2 ∧
        t.bytecnt = s.bytecnt + BitVec.ofNat 32 taken.length) ∨
    (∃ t, nextDataByte s = .raised (raise .truncatedRead 0 t) ∧ sameBesidesCursor s t ∧ sameBits s t ∧
      payload s = [] ∧ terminatorStands s = false ∧ s.sourceEnded = true ∧ t.source = [] ∧ s.source.length ≤ 1) ∨
    (∃ t, nextDataByte s = .terminated t ∧ sameBesidesCursor s t ∧ sameBits s t ∧
      payload s = [] ∧ terminatorStands s = true ∧ s.subrem = 0 ∧ t.subrem = 0 ∧ s.source = 0 :: t.source ∧
      t.bytecnt = s.bytecnt + 1) ∨
    (nextDataByte s = .waiting ∧ payload s = [] ∧ terminatorStands s = false ∧ s.sourceEnded = false) := by
  by_cases h0 : s.subrem = 0
  · have hr : s.subrem.toNat = 0 := by rw [h0]; rfl
    have hopen : openSubBlock s = (srcNext s).andThen fun l s1 =>
        if l = 0 then .terminated s1 else .got () (loadSubBlock l s1) := if_pos h0
    cases hs : s.source with
    | nil =>
      have hp : payload s = [] := by rw [payload, hs, payloadFrom_nil]
      have ht : terminatorStands s = false := by rw [terminatorStands, hs, terminatorAfter_nil]
      cases he : s.sourceEnded with
      | true =>
        refine .inr (.inl ⟨s, ?_, rfl, ⟨rfl, rfl⟩, hp, ht, rfl, hs, by simp⟩)
        rw [nextDataByte, hopen, srcNext_ended hs he]; rfl
      | false =>
        refine .inr (.inr (.inr ⟨?_, hp, ht, rfl⟩))
        rw [nextDataByte, hopen, srcNext_waiting hs he]; rfl
    | cons l rest =>
      by_cases hl : l = 0
      · subst hl
        refine .inr (.inr (.inl ⟨{ s with source := rest, bytecnt := s.bytecnt + 1 }, ?_, rfl, ⟨rfl, rfl⟩, ?_, ?_,
          h0, h0, rfl, rfl⟩))
        · rw [nextDataByte, hopen, srcNext_cons hs]; rfl
        · rw [payload, hs, hr, payloadFrom_zero, if_pos rfl]
        · rw [terminatorStands, hs, hr, terminatorAfter_zero, if_pos rfl]
      · have hnext : nextDataByte s =
            (srcNext (loadSubBlock l { s with source := rest, bytecnt := s.bytecnt + 1 })).andThen
              fun b s2 => .got b (countPayload s2) := by
          rw [nextDataByte, hopen, srcNext_cons hs]
          simp only [Fetch.andThen, if_neg hl]
        cases rest with
        | nil =>
          have hp : payload s = [] := by
            rw [payload, hs, hr, payloadFrom_zero, if_neg hl, payloadFrom_nil]
          have ht : terminatorStands s = false := by
            rw [terminatorStands, hs, hr, terminatorAfter_zero, if_neg hl, terminatorAfter_nil]
          cases he : s.sourceEnded with
          | true =>
            refine .inr (.inl ⟨loadSubBlock l { s with source := [], bytecnt := s.bytecnt + 1 }, ?_, rfl,
              ⟨rfl, rfl⟩, hp, ht, rfl, rfl, by simp⟩)
            rw [hnext, srcNext_ended (s := loadSubBlock l { s with source := [], bytecnt := s.bytecnt + 1 }) rfl he]
            rfl
          | false =>
            refine .inr (.inr (.inr ⟨?_, hp, ht, rfl⟩))
            rw [hnext, srcNext_waiting (s := loadSubBlock l { s with source := [], bytecnt := s.bytecnt + 1 }) rfl he]
            rfl
        | cons b more =>
          refine .inl ⟨b, countPayload { loadSubBlock l { s with source := b :: more, bytecnt := s.bytecnt + 1 } with
            source := more, bytecnt := s.bytecnt + 1 + 1 }, ?_, rfl, ⟨rfl, rfl⟩, ?_, ?_, [l, b], rfl, by simp, by simp, ?_⟩
          · rw [hnext, srcNext_cons (b := b) (rest := more)
              (s := loadSubBlock l { s with source := b :: more, bytecnt := s.bytecnt + 1 }) rfl]
            rfl
          · have := subrem_pred hl
            rw [payload, hs, hr, payloadFrom_zero, if_neg hl, ← this, payloadFrom_succ]
            rfl
          · have := subrem_pred hl
            rw [terminatorStands, terminatorStands, hs, hr, terminatorAfter_zero, if_neg hl, ← this,
              terminatorAfter_succ]
            rfl
          · show s.bytecnt + 1 + 1 = _
            rw [BitVec.add_assoc]; rfl
  · have hp := subrem_pred h0
    have hnext : nextDataByte s = (srcNext s).andThen fun b s2 => .got b (countPayload s2) := by
      rw [nextDataByte, openSubBlock, if_neg h0]; rfl
    cases hs : s.source with
    | nil =>
      have hpl : payload s = [] := by rw [payload, hs, payloadFrom_nil]
      have ht : terminatorStands s = false := by rw [terminatorStands, hs, terminatorAfter_nil]
      cases he : s.sourceEnded with
      | true =>
        refine .inr (.inl ⟨s, ?_, rfl, ⟨rfl, rfl⟩, hpl, ht, rfl, hs, by simp⟩)
        rw [hnext, srcNext_ended hs he]; rfl
      | false =>
        refine .inr (.inr (.inr ⟨?_, hpl, ht, rfl⟩))
        rw [hnext, srcNext_waiting hs he]; rfl
    | cons b rest =>
      refine .inl ⟨b, countPayload { s with source := rest, bytecnt := s.bytecnt + 1 }, ?_, rfl, ⟨rfl, rfl⟩, ?_, ?_, [b],
        rfl, by simp, by simp, rfl⟩
      · rw [hnext, srcNext_cons hs]; rfl
      · rw [payload, hs, ← hp, payloadFrom_succ]
        rfl
      · rw [terminatorStands, terminatorStands, hs, ← hp, terminatorAfter_succ]
        rfl

/-! ### The loop of `GetCode` (R124) -/

/-- The bits held lie below BITCNT. -/
def bitsWithin (s : State) : Prop := s.bitbuf.toNat < 2 ^ s.bitcnt.toNat

theorem mergeByte_bitcnt_toNat (b : Byte) {s : State} (h : s.bitcnt.toNat ≤ 11) :
    (mergeByte b s).bitcnt.toNat = s.bitcnt.toNat + 8 := by
  have h8 : (8 : BitVec 5).toNat = 8 := rfl
  rw [mergeByte_bitcnt, BitVec.toNat_add, h8]
  omega

theorem mergeByte_bitbuf_toNat (b : Byte) {s : State} (h : s.bitcnt.toNat ≤ 11) (hb : bitsWithin s) :
    (mergeByte b s).bitbuf.toNat = s.bitbuf.toNat + 2 ^ s.bitcnt.toNat * b.toNat := by
  have hbyte := b.isLt
  have h19 : b.toNat * 2 ^ s.bitcnt.toNat < 2 ^ 19 := by
    calc b.toNat * 2 ^ s.bitcnt.toNat < 2 ^ 8 * 2 ^ s.bitcnt.toNat :=
          Nat.mul_lt_mul_of_pos_right hbyte (Nat.two_pow_pos _)
      _ = 2 ^ (8 + s.bitcnt.toNat) := (Nat.pow_add 2 8 _).symm
      _ ≤ 2 ^ 19 := Nat.pow_le_pow_right (by decide) (by omega)
  have hshift : (b.setWidth 19 <<< s.bitcnt.toNat).toNat = 2 ^ s.bitcnt.toNat * b.toNat := by
    rw [BitVec.toNat_shiftLeft, BitVec.toNat_setWidth, Nat.mod_eq_of_lt (by omega : b.toNat < 2 ^ 19),
      Nat.shiftLeft_eq, Nat.mod_eq_of_lt h19, Nat.mul_comm]
  rw [mergeByte_bitbuf, BitVec.toNat_or, hshift, Nat.or_comm,
    ← Nat.two_pow_add_eq_or_of_lt hb b.toNat, Nat.add_comm]

theorem mergeByte_within (b : Byte) {s : State} (h : s.bitcnt.toNat ≤ 11) (hb : bitsWithin s) :
    bitsWithin (mergeByte b s) := by
  unfold bitsWithin at *
  rw [mergeByte_bitbuf_toNat b h hb, mergeByte_bitcnt_toNat b h, Nat.pow_add]
  have := b.isLt
  nlinarith [Nat.two_pow_pos s.bitcnt.toNat]

theorem mergeByte_payload (b : Byte) (s : State) : payload (mergeByte b s) = payload s := rfl

/-- Taking the next payload byte into the buffer changes neither the unread bits nor their number. -/
theorem mergeByte_unread {b : Byte} {s t : State} (hp : payload s = b :: payload t) (hbits : sameBits s t)
    (h : s.bitcnt.toNat ≤ 11) (hb : bitsWithin s) :
    unreadBits (mergeByte b t) = unreadBits s ∧ unreadCount (mergeByte b t) = unreadCount s := by
  obtain ⟨h1, h2⟩ := hbits
  have ht : t.bitcnt.toNat ≤ 11 := by rw [h2]; exact h
  have htb : bitsWithin t := by unfold bitsWithin; rw [h1, h2]; exact hb
  constructor
  · simp only [unreadBits, mergeByte_payload, mergeByte_bitbuf_toNat b ht htb, mergeByte_bitcnt_toNat b ht, hp,
      leNat_cons, h1, h2, Nat.pow_add]
    ring
  · simp only [unreadCount, mergeByte_payload, mergeByte_bitcnt_toNat b ht, hp, h2, List.length_cons]
    ring

/-- How the loop of `GetCode` ends from `s`: in each case everything but the cursor is kept and no unread bit is lost. -/
inductive Gathered (w fuel : Nat) (s : State) : Fetch Unit → Prop
  /-- `w` bits are held; at most two source bytes went for each payload byte -/
  | held (t : State) (same : sameBesidesCursor s t) (within : bitsWithin t)
      (enough : w ≤ t.bitcnt.toNat) (bound : t.bitcnt.toNat ≤ max s.bitcnt.toNat (w + 7))
      (bits : unreadBits t = unreadBits s) (count : unreadCount t = unreadCount s)
      (term : terminatorStands t = terminatorStands s)
      (measure : 8 * t.source.length + t.bitcnt.toNat ≤ 8 * s.source.length + s.bitcnt.toNat)
      (taken : ∃ pre k, s.source = pre ++ t.source ∧ payload t = (payload s).drop k ∧ k ≤ fuel ∧ k ≤ pre.length ∧ pre.length ≤ 2 * k ∧
        t.bitcnt.toNat = s.bitcnt.toNat + 8 * k ∧ t.bytecnt = s.bytecnt + BitVec.ofNat 32 pre.length) :
      Gathered w fuel s (.got () t)
  /-- the source ended inside the payload -/
  | ended (t : State) (same : sameBesidesCursor s t) (within : bitsWithin t)
      (short : t.bitcnt.toNat < w) (more : s.bitcnt.toNat ≤ t.bitcnt.toNat) (few : unreadCount s < w)
      (rest : payload t = []) (bits : unreadBits t = unreadBits s) (count : unreadCount t = unreadCount s)
      (used : t.source = []) (term : terminatorStands s = false) (finished : s.sourceEnded = true)
      (measure : 8 * t.source.length + t.bitcnt.toNat ≤ 8 * s.source.length + s.bitcnt.toNat) :
      Gathered w fuel s (.raised (raise .truncatedRead 0 t))
  /-- the terminator came -/
  | terminated (t : State) (same : sameBesidesCursor s t) (within : bitsWithin t)
      (short : t.bitcnt.toNat < w) (more : s.bitcnt.toNat ≤ t.bitcnt.toNat) (few : unreadCount s < w)
      (bits : unreadBits s = t.bitbuf.toNat) (count : unreadCount s = t.bitcnt.toNat)
      (term : terminatorStands s = true) (due : t.subrem = 0)
      (measure : 8 * t.source.length + t.bitcnt.toNat < 8 * s.source.length + s.bitcnt.toNat) :
      Gathered w fuel s (.terminated t)
  /-- the source has not answered -/
  | waiting (few : unreadCount s < w) (term : terminatorStands s = false) (open_ : s.sourceEnded = false) : Gathered w fuel s .waiting

theorem gather_cases (w fuel : Nat) (s : State) (hw : w ≤ 12) (hf : w ≤ s.bitcnt.toNat + 8 * fuel)
    (hb : bitsWithin s) : Gathered w fuel s (gather w fuel s) := by
  induction fuel generalizing s with
  | zero =>
    exact .held s rfl hb (by omega) (by omega) rfl rfl rfl (le_refl _) ⟨[], 0, by simp, by simp, by simp, by simp, by simp, by simp, by simp⟩
  | succ fuel ih =>
    simp only [gather]
    by_cases hlt : s.bitcnt.toNat < w
    · rw [if_pos hlt]
      have h11 : s.bitcnt.toNat ≤ 11 := by omega
      rcases nextDataByte_cases s with ⟨b, t, he, hsame, hbits, hp, hterm, taken, hsrc, hl1, hl2, hbc⟩ |
        ⟨t, he, hsame, hbits, hp, hterm, hend, ht, hlen⟩ |
        ⟨t, he, hsame, hbits, hp, hterm, h0, ht0, hsrc, -⟩ | ⟨he, hp, hterm, hend⟩
      · rw [he, Fetch.andThen]
        have hm := mergeByte_unread hp hbits h11 hb
        have ht : t.bitcnt.toNat ≤ 11 := by rw [hbits.2]; exact h11
        have htb : bitsWithin t := by unfold bitsWithin; rw [hbits.1, hbits.2]; exact hb
        have hc : (mergeByte b t).bitcnt.toNat = s.bitcnt.toNat + 8 := by
          rw [mergeByte_bitcnt_toNat b ht, hbits.2]
        have hsame' : sameBesidesCursor s (mergeByte b t) := hsame.trans (mergeByte_same b t)
        have hlen : s.source.length = taken.length + t.source.length := by rw [hsrc, List.length_append]
        have hmeas : 8 * (mergeByte b t).source.length + (mergeByte b t).bitcnt.toNat ≤
            8 * s.source.length + s.bitcnt.toNat := by
          rw [hc, mergeByte_source]; omega
        have htm : terminatorStands (mergeByte b t) = terminatorStands s := hterm
        have hg := ih (mergeByte b t) (by rw [hc]; omega) (mergeByte_within b ht htb)
        generalize gather w fuel (mergeByte b t) = g at hg ⊢
        cases hg with
        | held u same within enough bound bits count term measure tk =>
          obtain ⟨pre, k, hpre, hpay, hk, hkp, hprel, hkb, hpb⟩ := tk
          refine .held u (hsame'.trans same) within enough (by rw [hc] at bound; omega) (bits.trans hm.1)
            (count.trans hm.2) (term.trans htm) (measure.trans hmeas)
            ⟨taken ++ pre, k + 1, ?_, by rw [hpay, hp, List.drop_succ_cons]; rfl, by omega, ?_, ?_, by rw [hkb, hc]; omega, ?_⟩
          · rw [hsrc, List.append_assoc]
            rw [mergeByte_source] at hpre
            rw [hpre]
          · rw [List.length_append]; omega
          · rw [List.length_append]; omega
          · rw [hpb, mergeByte_bytecnt, hbc, BitVec.add_assoc, List.length_append, BitVec.ofNat_add]
        | ended u same within short more few rest bits count used term fin measure =>
          refine .ended u (hsame'.trans same) within short (by rw [hc] at more; omega) ?_ rest (bits.trans hm.1)
            (count.trans hm.2) used (htm.symm.trans term) (hsame'.sourceEnded ▸ fin) (measure.trans hmeas)
          rw [← hm.2]; exact few
        | terminated u same within short more few bits count term due measure =>
          refine .terminated u (hsame'.trans same) within short (by rw [hc] at more; omega) ?_ (hm.1.symm.trans bits)
            (hm.2.symm.trans count) (htm.symm.trans term) due (lt_of_lt_of_le measure hmeas)
          rw [← hm.2]; exact few
        | waiting few term op =>
          refine .waiting ?_ (htm.symm.trans term) (hsame'.sourceEnded ▸ op)
          rw [← hm.2]; exact few
      · have hpt : payload t = [] := by rw [payload, ht, payloadFrom_nil]
        rw [he, Fetch.andThen]
        refine .ended t hsame (by unfold bitsWithin; rw [hbits.1, hbits.2]; exact hb)
          (by rw [hbits.2]; exact hlt) (by rw [hbits.2]) ?_ hpt ?_ ?_ ht hterm hend ?_
        · simp [unreadCount, hp, hlt]
        · simp [unreadBits, hp, hpt, hbits.1, hbits.2]
        · simp [unreadCount, hp, hpt, hbits.2]
        · rw [ht, hbits.2]; simp
      · rw [he, Fetch.andThen]
        refine .terminated t hsame (by unfold bitsWithin; rw [hbits.1, hbits.2]; exact hb)
          (by rw [hbits.2]; exact hlt) (by rw [hbits.2]) ?_ ?_ ?_ hterm ht0 ?_
        · simp [unreadCount, hp, hlt]
        · simp [unreadBits, hp, leNat, hbits.1]
        · simp [unreadCount, hp, hbits.2]
        · rw [hsrc, hbits.2]; simp
      · rw [he, Fetch.andThen]
        refine .waiting ?_ hterm hend
        simp [unreadCount, hp, hlt]
    · rw [if_neg hlt]
      exact .held s rfl hb (by omega) (by omega) rfl rfl rfl (le_refl _) ⟨[], 0, by simp, by simp, by simp, by simp, by simp, by simp, by simp⟩

/-! ### `GetCode` (R124) -/

/-- How `GetCode` ends from `s`. -/
inductive CodeRead (s : State) : Fetch Code → Prop
  /-- a code: the next KW unread bits -/
  | code (c : Code) (t : State) (same : sameBesidesCursor s t) (within : bitsWithin t)
      (value : c.toNat = unreadBits s % 2 ^ s.kw.toNat)
      (bits : unreadBits t = unreadBits s / 2 ^ s.kw.toNat)
      (count : unreadCount t + s.kw.toNat = unreadCount s) (term : terminatorStands t = terminatorStands s) (held : t.bitcnt.toNat ≤ 7)
      (measure : 8 * t.source.length + t.bitcnt.toNat + s.kw.toNat ≤ 8 * s.source.length + s.bitcnt.toNat)
      (taken : ∃ pre k, s.source = pre ++ t.source ∧ payload t = (payload s).drop k ∧ k ≤ 2 ∧ k ≤ pre.length ∧ pre.length ≤ 2 * k ∧
        t.bitcnt.toNat + s.kw.toNat = s.bitcnt.toNat + 8 * k ∧
        t.bytecnt = s.bytecnt + BitVec.ofNat 32 pre.length) :
      CodeRead s (.got c t)
  | ended (t : State) (same : sameBesidesCursor s t) (within : bitsWithin t)
      (short : t.bitcnt.toNat < s.kw.toNat) (few : unreadCount s < s.kw.toNat) (rest : payload t = [])
      (bits : unreadBits t = unreadBits s) (count : unreadCount t = unreadCount s) (used : t.source = [])
      (term : terminatorStands s = false) (finished : s.sourceEnded = true)
      (measure : 8 * t.source.length + t.bitcnt.toNat ≤ 8 * s.source.length + s.bitcnt.toNat) :
      CodeRead s (.raised (raise .truncatedRead 0 t))
  | terminated (t : State) (same : sameBesidesCursor s t) (within : bitsWithin t)
      (short : t.bitcnt.toNat < s.kw.toNat) (few : unreadCount s < s.kw.toNat)
      (bits : unreadBits s = t.bitbuf.toNat) (count : unreadCount s = t.bitcnt.toNat)
      (term : terminatorStands s = true) (due : t.subrem = 0)
      (measure : 8 * t.source.length + t.bitcnt.toNat < 8 * s.source.length + s.bitcnt.toNat) :
      CodeRead s (.terminated t)
  | waiting (few : unreadCount s < s.kw.toNat) (term : terminatorStands s = false) (open_ : s.sourceEnded = false) : CodeRead s .waiting

theorem getCode_cases (s : State) (hw : s.kw.toNat ≤ 12) (h7 : s.bitcnt.toNat ≤ 7) (hb : bitsWithin s) :
    CodeRead s (getCode s) := by
  have hg := gather_cases s.kw.toNat 2 s hw (by omega) hb
  simp only [getCode]
  generalize gather s.kw.toNat 2 s = g at hg ⊢
  cases hg with
  | ended t same within short more few rest bits count used term fin measure =>
    exact .ended t same within short few rest bits count used term fin measure
  | terminated t same within short more few bits count term due measure =>
    exact .terminated t same within short few bits count term due measure
  | waiting few term op => exact .waiting few term op
  | held t same within enough bound bits count term measure tk =>
    simp only [Fetch.andThen]
    have hkw : t.kw = s.kw := same.kw
    have hcnt : (dropBits s.kw.toNat t).bitcnt.toNat = t.bitcnt.toNat - s.kw.toNat := by
      rw [dropBits_bitcnt, BitVec.toNat_sub, BitVec.toNat_ofNat]
      have := t.bitcnt.isLt
      omega
    have hbuf : (dropBits s.kw.toNat t).bitbuf.toNat = t.bitbuf.toNat / 2 ^ s.kw.toNat := by
      rw [dropBits_bitbuf, BitVec.toNat_ushiftRight, Nat.shiftRight_eq_div_pow]
    have hpow : 2 ^ t.bitcnt.toNat = 2 ^ s.kw.toNat * 2 ^ (t.bitcnt.toNat - s.kw.toNat) := by
      rw [← Nat.pow_add]; congr 1; omega
    have hpos := Nat.two_pow_pos s.kw.toNat
    have hsplit : unreadBits t =
        t.bitbuf.toNat + 2 ^ s.kw.toNat * (2 ^ (t.bitcnt.toNat - s.kw.toNat) * leNat (payload t)) := by
      rw [unreadBits, hpow, Nat.mul_assoc]
    refine .code _ _ (same.trans (dropBits_same _ _)) ?_ ?_ ?_ ?_ term ?_ ?_ ?_
    · unfold bitsWithin at within ⊢
      rw [hbuf, hcnt]
      rw [hpow] at within
      exact Nat.div_lt_of_lt_mul within
    · rw [lowBits, BitVec.toNat_ofNat, ← bits, hsplit, Nat.add_mul_mod_self_left]
      have h1 : t.bitbuf.toNat % 2 ^ s.kw.toNat < 2 ^ s.kw.toNat := Nat.mod_lt _ hpos
      have h2 : 2 ^ s.kw.toNat ≤ 2 ^ 12 := Nat.pow_le_pow_right (by decide) hw
      exact Nat.mod_eq_of_lt (lt_of_lt_of_le h1 h2)
    · rw [← bits, hsplit, Nat.add_mul_div_left _ _ hpos]
      simp only [unreadBits, hbuf, hcnt]
      rfl
    · rw [← count]
      simp only [unreadCount, hcnt]
      have : payload (dropBits s.kw.toNat t) = payload t := rfl
      rw [this]; omega
    · rw [hcnt]; omega
    · rw [hcnt, dropBits_source]; omega
    · obtain ⟨pre, k, h1, h2, h3, h4, h5, h6, h7⟩ := tk
      exact ⟨pre, k, h1, h2, h3, h4, h5, by rw [hcnt]; omega, h7⟩

end Sys2Proof.Machine
end

