-- ==== Sys2Proof/Laws/Table.lean ====
section
/-! SUPPORT. The code table under the invariant: what reads answer (R41, R42, R141), the strings entries stand for (R143
to R145), and what an append and the counts of the initial table do (R142, R146 to R149). -/

namespace Sys2Proof.Machine

/-! ### Reads -/

theorem definedEntry_iff (s : State) (i : Nat) :
    definedEntry s i = true ↔ i < clearCode s.n.toNat ∨ (initialCount s.n.toNat ≤ i ∧ i < s.nent.toNat) := by
  simp [definedEntry]

theorem tableRead_some {s : State} {i : Nat} {e : Entry} (h : tableRead s i = some e) :
    definedEntry s i = true ∧ getKey i s.table = some e := by
  unfold tableRead at h
  split at h
  · exact ⟨by assumption, h⟩
  · cases h

theorem tableRead_of_defined {s : State} {i : Nat} (h : definedEntry s i = true) :
    tableRead s i = getKey i s.table := if_pos h

/-- A table read depends on N, NENT and the store only. -/
theorem tableRead_congr {s t : State} (hn : t.n = s.n) (hc : t.nent = s.nent) (ht : t.table = s.table) (i : Nat) :
    tableRead t i = tableRead s i := by
  simp [tableRead, definedEntry, hn, hc, ht]

theorem noPrefix_toNat : Config.noPrefix.toNat = 4095 := rfl

theorem rootEntry_len (k : Nat) : (rootEntry k).len.toNat = 1 := rfl
theorem rootEntry_pre (k : Nat) : (rootEntry k).pre = Config.noPrefix := rfl
theorem rootEntry_suf {k : Nat} (h : k < 256) : (rootEntry k).suf.toNat = k := by
  simp only [rootEntry, BitVec.toNat_ofNat]; omega

theorem clearCode_le (n : Nat) (h : n ≤ 8) : clearCode n ≤ 256 :=
  Nat.pow_le_pow_right (by decide) h

theorem four_le_clearCode (n : Nat) (h : 2 ≤ n) : 4 ≤ clearCode n :=
  Nat.pow_le_pow_right (n := 2) (by decide) h

theorem initialCount_eq (n : Nat) : initialCount n = clearCode n + 2 := rfl
theorem stopCode_eq (n : Nat) : stopCode n = clearCode n + 1 := rfl

variable {s : State}

theorem Built.read_root (h : Built s) {k : Nat} (hk : k < clearCode s.n.toNat) :
    tableRead s k = some (rootEntry k) := by
  rw [tableRead_of_defined ((definedEntry_iff s k).2 (.inl hk)), h.roots k hk]

/-- What an appended entry is (R41, R270). -/
structure AppendedEntry (s : State) (k : Nat) (e p : Entry) : Prop where
  read : tableRead s k = some e
  parent : tableRead s e.pre.toNat = some p
  below : e.pre.toNat < k
  length : e.len.toNat = p.len.toNat + 1
  bound : e.len.toNat + clearCode s.n.toNat ≤ k
  symbol : e.suf.toNat < clearCode s.n.toNat
  notRoot : e.pre ≠ Config.noPrefix

theorem Built.read_appended (h : Built s) {k : Nat} (h1 : initialCount s.n.toNat ≤ k) (h2 : k < s.nent.toNat) :
    ∃ e p, AppendedEntry s k e p := by
  obtain ⟨e, p, he, hp, hlt, hlen, hb, hs⟩ := h.appended k h1 h2
  have hc := h.count.2
  refine ⟨e, p, ?_, hp, hlt, hlen, hb, hs, ?_⟩
  · rw [tableRead_of_defined ((definedEntry_iff s k).2 (.inr ⟨h1, h2⟩)), he]
  · intro hc'
    rw [hc', noPrefix_toNat] at hlt
    omega

/-- A defined entry is read (R42). -/
theorem Built.reads (h : Built s) {k : Nat} (hk : definedEntry s k = true) : ∃ e, tableRead s k = some e := by
  rcases (definedEntry_iff s k).1 hk with hk | ⟨h1, h2⟩
  · exact ⟨_, h.read_root hk⟩
  · obtain ⟨e, p, he⟩ := h.read_appended h1 h2
    exact ⟨e, he.read⟩

theorem Built.defined_lt (h : Built s) {k : Nat} (hk : definedEntry s k = true) : k < s.nent.toNat := by
  have := h.count.1
  rw [initialCount_eq] at this
  rcases (definedEntry_iff s k).1 hk with hk | hk <;> omega

/-! ### Strings (R143 to R145) -/

/-- The string of entry `c`, with all the rules say of it: its length is the entry's, its first symbol is `First(c)`, its
symbols are root indices, and its length is bounded (R270). -/
structure StringAt (s : State) (fuel : Nat) (c : Code) (e : Entry) (f : Byte) (l : List Byte) : Prop where
  string : stringFrom s fuel c = some (f :: l)
  first : firstFrom s fuel c = some f
  read : tableRead s c.toNat = some e
  length : e.len.toNat = l.length + 1
  symbols : ∀ v ∈ f :: l, v.toNat < clearCode s.n.toNat
  root : c.toNat < clearCode s.n.toNat → f.toNat = c.toNat ∧ l = []
  bound : clearCode s.n.toNat ≤ c.toNat → l.length + 1 + clearCode s.n.toNat ≤ c.toNat

theorem Built.stringFrom (h : Built s) : ∀ (fuel : Nat) (c : Code), c.toNat < fuel → definedEntry s c.toNat = true →
    ∃ e f l, StringAt s fuel c e f l := by
  intro fuel
  induction fuel with
  | zero => intro c hc; omega
  | succ fuel ih =>
    intro c hc hd
    rcases (definedEntry_iff s _).1 hd with hk | ⟨h1, h2⟩
    · have hr := h.read_root hk
      have h256 := clearCode_le _ h.codeSize.2
      have hsuf := rootEntry_suf (k := c.toNat) (by omega)
      refine ⟨_, (rootEntry c.toNat).suf, [], ?_, ?_, hr, rfl, ?_, fun _ => ⟨hsuf, rfl⟩, fun hge => by omega⟩
      · simp [Machine.stringFrom, hr, rootEntry_pre]
      · simp [firstFrom, hr, rootEntry_pre]
      · intro v hv
        rw [List.mem_singleton.1 hv, hsuf]; exact hk
    · obtain ⟨e, p, he⟩ := h.read_appended h1 h2
      obtain ⟨e', f, l, hs⟩ := ih e.pre (by have := he.below; omega) (tableRead_some he.parent).1
      have hee : e' = p := Option.some.inj (hs.read.symm.trans he.parent)
      have hlen := he.length
      have hlen' := hs.length
      rw [hee] at hlen'
      refine ⟨e, f, l ++ [e.suf], ?_, ?_, he.read, ?_, ?_, ?_, ?_⟩
      · simp [Machine.stringFrom, he.read, he.notRoot, hs.string]
      · simp [firstFrom, he.read, he.notRoot, hs.first]
      · rw [List.length_append, List.length_singleton]; omega
      · intro v hv
        rw [← List.cons_append] at hv
        rcases List.mem_append.1 hv with hv | hv
        · exact hs.symbols v hv
        · rw [List.mem_singleton.1 hv]; exact he.symbol
      · intro hlt
        rw [initialCount_eq] at h1
        omega
      · intro _
        have := he.bound
        rw [List.length_append, List.length_singleton]; omega

/-- Every defined entry has its string. -/
theorem Built.stringAt (h : Built s) {c : Code} (hd : definedEntry s c.toNat = true) :
    ∃ e f l, StringAt s (c.toNat + 1) c e f l := h.stringFrom _ c (Nat.lt_succ_self _) hd

theorem StringAt.symbolAndLength {c : Code} {e : Entry} {f : Byte} {l : List Byte}
    (h : StringAt s (c.toNat + 1) c e f l) : symbolAndLength s c = some (f, l.length + 1) := by
  have h1 : firstSymbol s c = some f := h.first
  have h2 : stringLength s c = some (l.length + 1) := by rw [stringLength, h.read]; simp [h.length]
  rw [Machine.symbolAndLength, h1, h2]

/-- The string of a code is found with any fuel above the code. -/
theorem stringFrom_mono (s : State) : ∀ (fuel : Nat) (c : Code) (str : List Byte),
    stringFrom s fuel c = some str → ∀ k, stringFrom s (fuel + k) c = some str := by
  intro fuel
  induction fuel with
  | zero => intro c str h; simp [stringFrom] at h
  | succ fuel ih =>
    intro c str h k
    rw [Nat.succ_add]
    simp only [stringFrom] at h ⊢
    split at h
    · cases h
    · next e he =>
      split at h
      · next hp => rw [if_pos hp]; exact h
      · next hp =>
        rw [if_neg hp]
        split at h
        · cases h
        · next l hl => rw [ih _ _ hl k]; exact h

/-- A string depends on N, NENT and the store only. -/
theorem stringFrom_congr {s t : State} (h : ∀ i, tableRead t i = tableRead s i) :
    ∀ (fuel : Nat) (c : Code), stringFrom t fuel c = stringFrom s fuel c := by
  intro fuel
  induction fuel with
  | zero => intro c; rfl
  | succ fuel ih =>
    intro c
    simp only [stringFrom, h]
    split
    · rfl
    · split
      · rfl
      · rw [ih]

/-! ### `countEntry` (R146 to R148) -/

theorem countEntry_nent_toNat {s : State} (h : s.nent.toNat < 4096) :
    (countEntry s).nent.toNat = s.nent.toNat + 1 := by
  rw [countEntry_nent, BitVec.toNat_ofNat]; omega

theorem countEntry_frozen_eq (s : State) :
    (countEntry s).frozen = if s.nent.toNat + 1 = 4096 then true else s.frozen := countEntry_frozen s

theorem countEntry_kw_toNat {s : State} (h : s.kw.toNat ≤ 12) :
    (countEntry s).kw.toNat =
      if s.nent.toNat + 1 = 2 ^ s.kw.toNat ∧ s.nent.toNat + 1 ≠ 4096 then s.kw.toNat + 1 else s.kw.toNat := by
  have hcap : Config.tableCap = 4096 := rfl
  rw [countEntry_kw]
  by_cases hc : s.nent.toNat + 1 = 2 ^ s.kw.toNat ∧ s.nent.toNat + 1 ≠ 4096
  · rw [if_pos ⟨hc.2, hc.1⟩, if_pos hc, BitVec.toNat_ofNat]; omega
  · rw [if_neg (fun h' => hc ⟨h'.2, h'.1⟩), if_neg hc]

/-- The other fields of `countEntry`. -/
theorem countEntry_same (s : State) :
    { countEntry s with nent := s.nent, kw := s.kw, frozen := s.frozen } = s := by
  unfold countEntry
  simp only
  split
  · rfl
  · split <;> rfl

/-! ### `append` -/

/-- Everything `append` can do, given the entry of PREV: it raises before any write, or it counts the entry it wrote. -/
theorem append_cases (c : Code) (f : Byte) {s : State} {p : Entry} (hp : tableRead s s.prev.toNat = some p) :
    (s.tableMem ≤ s.nent.toNat ∧ append c f s = .raised (raise .outOfMemory c s)) ∨
    (s.nent.toNat < s.tableMem ∧ append c f s =
      .ok (countEntry (tableWrite s.nent.toNat { len := p.len + 1, pre := s.prev, suf := f } s))) := by
  by_cases h : s.tableMem ≤ s.nent.toNat
  · exact .inl ⟨h, if_pos h⟩
  · refine .inr ⟨by omega, ?_⟩
    rw [append, if_neg h, hp]

/-- The state after an append. -/
def withEntry (f : Byte) (p : Entry) (s : State) : State :=
  countEntry (tableWrite s.nent.toNat { len := p.len + 1, pre := s.prev, suf := f } s)

theorem withEntry_same (f : Byte) (p : Entry) (s : State) :
    { withEntry f p s with nent := s.nent, kw := s.kw, frozen := s.frozen, table := s.table } = s := by
  unfold withEntry countEntry
  simp only
  split
  · rfl
  · split <;> rfl

theorem withEntry_field {α : Type} (f : Byte) (p : Entry) (s : State) (g : State → α) :
    g { withEntry f p s with nent := s.nent, kw := s.kw, frozen := s.frozen, table := s.table } = g s :=
  congrArg g (withEntry_same f p s)

@[simp] theorem withEntry_n (f : Byte) (p : Entry) : (withEntry f p s).n = s.n := withEntry_field f p s State.n
@[simp] theorem withEntry_prev (f : Byte) (p : Entry) : (withEntry f p s).prev = s.prev := withEntry_field f p s State.prev
@[simp] theorem withEntry_outoff (f : Byte) (p : Entry) : (withEntry f p s).outoff = s.outoff :=
  withEntry_field f p s State.outoff
@[simp] theorem withEntry_prevv (f : Byte) (p : Entry) : (withEntry f p s).prevv = s.prevv :=
  withEntry_field f p s State.prevv
@[simp] theorem withEntry_fb (f : Byte) (p : Entry) : (withEntry f p s).fb = s.fb := withEntry_field f p s State.fb
@[simp] theorem withEntry_cw (f : Byte) (p : Entry) : (withEntry f p s).cw = s.cw := withEntry_field f p s State.cw
@[simp] theorem withEntry_ch (f : Byte) (p : Entry) : (withEntry f p s).ch = s.ch := withEntry_field f p s State.ch
@[simp] theorem withEntry_fx (f : Byte) (p : Entry) : (withEntry f p s).fx = s.fx := withEntry_field f p s State.fx
@[simp] theorem withEntry_fy (f : Byte) (p : Entry) : (withEntry f p s).fy = s.fy := withEntry_field f p s State.fy
@[simp] theorem withEntry_fw (f : Byte) (p : Entry) : (withEntry f p s).fw = s.fw := withEntry_field f p s State.fw
@[simp] theorem withEntry_fh (f : Byte) (p : Entry) : (withEntry f p s).fh = s.fh := withEntry_field f p s State.fh
@[simp] theorem withEntry_interlace (f : Byte) (p : Entry) : (withEntry f p s).interlace = s.interlace :=
  withEntry_field f p s State.interlace

theorem withEntry_table (f : Byte) (p : Entry) (s : State) :
    (withEntry f p s).table = setKey s.nent.toNat { len := p.len + 1, pre := s.prev, suf := f } s.table :=
  congrArg State.table (countEntry_same (tableWrite s.nent.toNat { len := p.len + 1, pre := s.prev, suf := f } s))

theorem withEntry_nent (f : Byte) (p : Entry) (h : s.nent.toNat < 4096) :
    (withEntry f p s).nent.toNat = s.nent.toNat + 1 :=
  countEntry_nent_toNat (s := tableWrite s.nent.toNat { len := p.len + 1, pre := s.prev, suf := f } s) h

theorem withEntry_frozen (f : Byte) (p : Entry) (s : State) :
    (withEntry f p s).frozen = if s.nent.toNat + 1 = 4096 then true else s.frozen :=
  countEntry_frozen_eq (tableWrite s.nent.toNat { len := p.len + 1, pre := s.prev, suf := f } s)

theorem withEntry_kw (f : Byte) (p : Entry) (h : s.kw.toNat ≤ 12) :
    (withEntry f p s).kw.toNat =
      if s.nent.toNat + 1 = 2 ^ s.kw.toNat ∧ s.nent.toNat + 1 ≠ 4096 then s.kw.toNat + 1 else s.kw.toNat :=
  countEntry_kw_toNat (s := tableWrite s.nent.toNat { len := p.len + 1, pre := s.prev, suf := f } s) h

/-- Entries defined before an append read as before it. -/
theorem withEntry_read (f : Byte) (p : Entry) (h : s.nent.toNat < 4096) {i : Nat} (hi : definedEntry s i = true)
    (hlt : i < s.nent.toNat) : tableRead (withEntry f p s) i = tableRead s i := by
  have hd : definedEntry (withEntry f p s) i = true := by
    rw [definedEntry_iff] at hi ⊢
    rw [withEntry_n, withEntry_nent f p h]
    omega
  rw [tableRead_of_defined hd, tableRead_of_defined hi, withEntry_table, getKey_setKey_other (by omega)]

/-- The entry just appended. -/
theorem withEntry_read_new (f : Byte) (p : Entry) (h : s.nent.toNat < 4096)
    (hc : initialCount s.n.toNat ≤ s.nent.toNat) :
    tableRead (withEntry f p s) s.nent.toNat = some { len := p.len + 1, pre := s.prev, suf := f } := by
  have hd : definedEntry (withEntry f p s) s.nent.toNat = true := by
    rw [definedEntry_iff, withEntry_n, withEntry_nent f p h]
    omega
  rw [tableRead_of_defined hd, withEntry_table, getKey_setKey_same]

/-- The code of PREV while PREVV is 1, and why an append has room in the code space. -/
theorem Built.notFull (h : Built s) (hf : s.frozen = false) : s.nent.toNat < 4096 := by
  have h1 := h.count.2
  have h2 : ¬ s.nent.toNat = 4096 := fun he => by rw [h.frozenFull.2 he] at hf; cases hf
  omega

/-- An append keeps the table's invariant, but for the clauses that speak of PREV, which the end of the step writes
(R36, R41, R42, R147, R270). -/
theorem Built.append (h : Built s) (hf : s.frozen = false) (hv : s.prevv = true) {p : Entry}
    (hp : tableRead s s.prev.toNat = some p) {f : Byte} (hs : f.toNat < clearCode s.n.toNat) :
    Built (withEntry f p s) := by
  have hfull := h.notFull hf
  have hopen := h.openWidth hf
  have hkw := h.width.2
  have hn := withEntry_n (s := s) f p
  have hc := withEntry_nent (s := s) f p hfull
  have hk := withEntry_kw (s := s) f p hkw
  have hfr := withEntry_frozen f p s
  have hprev := h.defined_lt (tableRead_some hp).1
  have hcount := h.count.1
  -- the width: either it stays, or the count has reached 2^KW below 4096
  have hwidth : (withEntry f p s).kw.toNat ≤ 12 ∧ s.kw.toNat ≤ (withEntry f p s).kw.toNat := by
    rw [hk]
    split
    · next hcond =>
      have : s.kw.toNat ≠ 12 := by
        intro h12; rw [h12] at hcond; omega
      omega
    · omega
  -- the length of the entry of PREV
  have hplen : p.len.toNat + clearCode s.n.toNat + 1 ≤ s.nent.toNat := by
    rcases (definedEntry_iff s _).1 (tableRead_some hp).1 with hlt | ⟨h1, h2⟩
    · have := h.read_root hlt
      rw [hp] at this
      rw [Option.some.inj this, rootEntry_len]
      rw [initialCount_eq] at hcount; omega
    · obtain ⟨e, q, he⟩ := h.read_appended h1 h2
      have := he.read
      rw [hp] at this
      rw [Option.some.inj this]
      have := he.bound
      omega
  have h4 := four_le_clearCode _ h.codeSize.1
  have hnewlen : (p.len + 1 : BitVec 12).toNat = p.len.toNat + 1 := by
    have h1 : (1 : BitVec 12).toNat = 1 := rfl
    rw [BitVec.toNat_add, h1]; omega
  exact
    { codeSize := by rw [hn]; exact h.codeSize
      width := by rw [hn]; exact ⟨Nat.le_trans h.width.1 hwidth.2, hwidth.1⟩
      count := by rw [hn, hc]; omega
      frozenFull := by
        rw [hfr, hc]
        split
        · next he => simp [he]
        · next he => simp [hf, he]
      frozenWidth := by
        rw [hfr, hk]
        split
        · next he =>
          intro _
          rw [if_neg (fun hcond => hcond.2 he)]
          have hlt := hopen.2
          have : ¬ s.kw.toNat ≤ 11 := by
            intro hle
            have := Nat.pow_le_pow_right (show 0 < 2 by decide) hle
            omega
          omega
        · intro ht; rw [hf] at ht; cases ht
      openWidth := by
        rw [hfr, hk, hc]
        split
        · intro ht; cases ht
        · next he =>
          intro _
          by_cases hcond : s.nent.toNat + 1 = 2 ^ s.kw.toNat ∧ s.nent.toNat + 1 ≠ 4096
          · rw [if_pos hcond]
            simp only [Nat.add_sub_cancel, Nat.pow_succ]
            have := Nat.two_pow_pos s.kw.toNat
            omega
          · rw [if_neg hcond]
            have : s.nent.toNat + 1 ≠ 2 ^ s.kw.toNat := fun hh => hcond ⟨hh, he⟩
            omega
      roots := by
        intro k hk'
        rw [hn] at hk'
        rw [withEntry_table, getKey_setKey_other (by rw [initialCount_eq] at hcount; omega), h.roots k hk']
      appended := by
        intro k hk1 hk2
        rw [hn] at hk1 ⊢
        rw [hc] at hk2
        by_cases hkn : k = s.nent.toNat
        · subst hkn
          refine ⟨_, p, by rw [withEntry_table, getKey_setKey_same], ?_, hprev, ?_, ?_, hs⟩
          · rw [withEntry_read f p hfull (tableRead_some hp).1 hprev, hp]
          · exact hnewlen
          · rw [hnewlen]; omega
        · obtain ⟨e, q, he, hq, hlt, hl, hb, hsf⟩ := h.appended k hk1 (by omega)
          refine ⟨e, q, by rw [withEntry_table, getKey_setKey_other hkn, he], ?_, hlt, hl, hb, hsf⟩
          rw [withEntry_read f p hfull (tableRead_some hq).1 (h.defined_lt (tableRead_some hq).1), hq]
      sentinelSlots := by
        rw [hn, withEntry_table, getKey_setKey_other, getKey_setKey_other]
        · exact h.sentinelSlots
        · rw [initialCount_eq] at hcount; rw [stopCode_eq]; omega
        · rw [initialCount_eq] at hcount; omega
      previous := by
        intro _
        rw [withEntry_prev]
        exact ⟨p, by rw [withEntry_read f p hfull (tableRead_some hp).1 hprev, hp]⟩
      noPrevious := by
        rw [withEntry_prevv, hv]; intro hh; cases hh }

/-! ### The initial table (R142, R149) -/

theorem initialCounts_nent_toNat {n : Nat} (h : n ≤ 8) (s : State) :
    (initialCounts n s).nent.toNat = initialCount n := by
  have := clearCode_le n h
  rw [initialCounts_nent, initialCount_eq, BitVec.toNat_ofNat]; omega

theorem initialCounts_kw_toNat {n : Nat} (h : n ≤ 8) (s : State) : (initialCounts n s).kw.toNat = n + 1 := by
  rw [initialCounts_kw, BitVec.toNat_ofNat]; omega

/-- The counts of the initial table over a store with the roots of `n` and empty sentinel slots are a built table. -/
theorem built_initialCounts {n : Nat} {s : State} (h2 : 2 ≤ n) (h8 : n ≤ 8) (hn : s.n.toNat = n)
    (hroots : ∀ k, k < clearCode n → getKey k s.table = some (rootEntry k))
    (hsent : getKey (clearCode n) s.table = none ∧ getKey (stopCode n) s.table = none) :
    Built (initialCounts n s) := by
  have hc := initialCounts_nent_toNat h8 s
  have hk := initialCounts_kw_toNat h8 s
  have h256 := clearCode_le n h8
  have h4 := four_le_clearCode n h2
  have hpow : 2 ^ (n + 1) = 2 * clearCode n := by rw [Nat.pow_succ, Nat.mul_comm]
  refine ⟨?_, ?_, ?_, ?_, ?_, ?_, ?_, ?_, ?_, ?_, ?_⟩
  · rw [initialCounts_n, hn]; omega
  · rw [initialCounts_n, hn, hk]; omega
  · rw [initialCounts_n, hn, hc, initialCount_eq]; omega
  · rw [initialCounts_frozen, hc, initialCount_eq]
    constructor
    · intro h; cases h
    · intro h; omega
  · rw [initialCounts_frozen]; intro h; cases h
  · intro _
    rw [hk, hc, initialCount_eq, hpow, Nat.add_sub_cancel]
    have : 2 ^ n = clearCode n := rfl
    omega
  · rw [initialCounts_n, hn]; exact hroots
  · rw [initialCounts_n, hn, hc]; intro k h1 h2; omega
  · rw [initialCounts_n, hn]; exact hsent
  · rw [initialCounts_prevv]; intro h; cases h
  · rw [initialCounts_n, hn, hc]; intro _; rfl

/-- CLR leaves a built table (R149). -/
theorem Built.clear {s : State} (h : Built s) : Built (tableClear s) :=
  built_initialCounts h.codeSize.1 h.codeSize.2 rfl h.roots h.sentinelSlots

/-- `TableInit` over an empty store builds a table (R142). -/
theorem built_tableInit {n : Nat} {s : State} (h2 : 2 ≤ n) (h8 : n ≤ 8) (hn : s.n.toNat = n) (ht : s.table = []) :
    Built (tableInit n s) := by
  refine built_initialCounts h2 h8 hn (fun k hk => ?_) ⟨?_, ?_⟩
  · exact (getKey_writeRoots k n s.table).trans (if_pos hk)
  · refine (getKey_writeRoots _ n s.table).trans ((if_neg (Nat.lt_irrefl _)).trans ?_)
    rw [ht]; rfl
  · refine (getKey_writeRoots _ n s.table).trans ((if_neg (by unfold stopCode; omega)).trans ?_)
    rw [ht]; rfl

end Sys2Proof.Machine
end

