-- ==== Sys2Proof/Laws/Output.lean ====
section
/-! SUPPORT. What a data code can do (R162, R165): the emission of a string (R172), the growth of the table, and the
step as a whole. The facts on pixel addresses that R196 and R197 state are hypotheses here. -/

namespace Sys2Proof.Machine

/-- The four passes of R192 as one expression, the pass sizes written out. -/
theorem rowOnDomain_eq (y h : Nat) :
    rowOnDomain y h =
      if y < (h + 7) / 8 then 8 * y
      else if y - (h + 7) / 8 < (h + 3) / 8 then 8 * (y - (h + 7) / 8) + 4
      else if y - (h + 7) / 8 - (h + 3) / 8 < (h + 1) / 4 then 4 * (y - (h + 7) / 8 - (h + 3) / 8) + 2
      else 2 * (y - (h + 7) / 8 - (h + 3) / 8 - (h + 1) / 4) + 1 := rfl

/-- The address of an offset in the rectangle, where the row is in the domain of `Row`. -/
theorem pixelAddr_eq {s : State} {p : Nat} (hp : p < s.fw.toNat * s.fh.toNat) :
    pixelAddr s p = some
      ((s.fy.toNat + (if s.interlace then rowOnDomain (p / s.fw.toNat) s.fh.toNat else p / s.fw.toNat)) * s.cw.toNat
        + (s.fx.toNat + p % s.fw.toNat)) := by
  have hy : p / s.fw.toNat < s.fh.toNat := Nat.div_lt_of_lt_mul hp
  unfold pixelAddr
  rw [if_pos hp]
  cases s.interlace <;> simp [rowOf, hy]

/-- The addresses of the rectangle are in the buffer and distinct (what R196 and R197 say of `pixelAddr`). -/
structure AddressesGood (s : State) : Prop where
  inside : ∀ p, p < s.fw.toNat * s.fh.toNat → ∃ a, pixelAddr s p = some a ∧ a < fbCells s
  distinct : ∀ p q a, pixelAddr s p = some a → pixelAddr s q = some a → p = q

/-- `pixelAddr` depends on the configuration only. -/
theorem pixelAddr_congr {s t : State} (h1 : t.cw = s.cw) (h2 : t.fx = s.fx) (h3 : t.fy = s.fy) (h4 : t.fw = s.fw)
    (h5 : t.fh = s.fh) (h6 : t.interlace = s.interlace) (p : Nat) : pixelAddr t p = pixelAddr s p := by
  simp only [pixelAddr, h1, h2, h3, h4, h5, h6]

/-- The cells of a string written from memory `m` to memory `m'`. -/
structure StringWritten (s : State) (str : List Byte) (m m' : Memory) : Prop where
  written : ∀ j v, str[j]? = some v →
    ∃ a, pixelAddr s (s.outoff.toNat + j) = some a ∧ Memory.read m' a = some v
  kept : ∀ a, (∀ j, j < str.length → pixelAddr s (s.outoff.toNat + j) ≠ some a) →
    Memory.read m' a = Memory.read m a
  canonical : Memory.wf m → Memory.wf m'

/-- Everything `emit` can do from an entry that has a string with room for it: it writes the string and nothing else. -/
theorem emit_string : ∀ (fuel : Nat) (e : Code) (str : List Byte) (s : State),
    stringFrom s fuel e = some str → AddressesGood s →
    s.outoff.toNat + str.length ≤ s.fw.toNat * s.fh.toNat →
    ∃ m, emit e str.length s = .ok { s with fb := m } ∧ StringWritten s str s.fb m := by
  intro fuel
  induction fuel with
  | zero => intro e str s h; simp [stringFrom] at h
  | succ fuel ih =>
    intro e str s h hg hroom
    simp only [stringFrom] at h
    split at h
    · cases h
    · next x hx =>
      split at h
      · next hp =>
        have hstr : str = [x.suf] := (Option.some.inj h).symm
        subst hstr
        obtain ⟨a, ha, hcell⟩ := hg.inside (s.outoff.toNat + 0) (by simpa using hroom)
        refine ⟨Memory.write s.fb a x.suf, ?_, ?_, ?_, ?_⟩
        · simp only [List.length_singleton, emit, hx, ha, if_pos hcell]; rfl
        · intro j v hj
          rcases j with _ | j
          · refine ⟨a, ha, ?_⟩
            rw [Memory.read_write, if_pos rfl]; simpa using hj
          · simp at hj
        · intro b hb
          rw [Memory.read_write, if_neg]
          intro hab
          exact hb 0 (by simp) (hab ▸ ha)
        · exact fun hw => Memory.wf_write hw a x.suf
      · next hp =>
        split at h
        · cases h
        · next l hl =>
          have hstr : str = l ++ [x.suf] := (Option.some.inj h).symm
          subst hstr
          rw [List.length_append, List.length_singleton] at hroom
          obtain ⟨a, ha, hcell⟩ := hg.inside (s.outoff.toNat + l.length) (by omega)
          have hs' : stringFrom (fbWrite a x.suf s) fuel x.pre = some l := by
            rw [← hl]; exact stringFrom_congr (s := s) (t := fbWrite a x.suf s) (fun _ => rfl) fuel x.pre
          obtain ⟨m, hm, hw⟩ := ih x.pre l (fbWrite a x.suf s) hs' ⟨hg.inside, hg.distinct⟩
            (show s.outoff.toNat + l.length ≤ s.fw.toNat * s.fh.toNat by omega)
          have hother : ∀ j, j < l.length → pixelAddr s (s.outoff.toNat + j) ≠ some a := by
            intro j hj hja
            have := hg.distinct _ _ a hja ha
            omega
          refine ⟨m, ?_, ?_, ?_, ?_⟩
          · rw [List.length_append, List.length_singleton]
            simp only [emit, hx, ha, if_pos hcell]
            rw [hm]; rfl
          · intro j v hj
            by_cases hlt : j < l.length
            · rw [List.getElem?_append_left hlt] at hj
              exact hw.written j v hj
            · rw [List.getElem?_append_right (by omega)] at hj
              have hj0 : j = l.length := by
                rcases Nat.eq_zero_or_pos (j - l.length) with h0 | h0
                · omega
                · rw [List.getElem?_eq_none (by simp; omega)] at hj; cases hj
              subst hj0
              refine ⟨a, ha, ?_⟩
              rw [hw.kept a hother]
              show Memory.read (Memory.write s.fb a x.suf) a = some v
              rw [Memory.read_write, if_pos rfl]
              simpa using hj
          · intro b hb
            rw [List.length_append, List.length_singleton] at hb
            rw [hw.kept b (fun j hj => hb j (by omega))]
            show Memory.read (Memory.write s.fb a x.suf) b = _
            rw [Memory.read_write, if_neg]
            intro hab
            exact hb l.length (by omega) (hab ▸ ha)
          · exact fun h => hw.canonical (Memory.wf_write h a x.suf)

/-- The state after step (3) of a data code that is not out of memory. -/
def afterGrow (f : Byte) (p : Entry) (s : State) : State :=
  if s.frozen = false ∧ s.prevv = true then withEntry f p s else s

/-- Everything `grow` can do, given the entry of PREV where there is one. -/
theorem grow_cases (c : Code) (f : Byte) {s : State} {p : Entry}
    (hp : s.prevv = true → tableRead s s.prev.toNat = some p) :
    (s.frozen = false ∧ s.prevv = true ∧ s.tableMem ≤ s.nent.toNat ∧
      grow c f s = .raised (raise .outOfMemory c s)) ∨
    ((s.frozen = false → s.prevv = true → s.nent.toNat < s.tableMem) ∧
      grow c f s = .ok (afterGrow f p s)) := by
  unfold grow
  by_cases hg : s.frozen = false ∧ s.prevv = true
  · have hcond : (!s.frozen && s.prevv) = true := by simp [hg.1, hg.2]
    rw [if_pos hcond]
    rcases append_cases c f (hp hg.2) with ⟨h1, h2⟩ | ⟨h1, h2⟩
    · exact .inl ⟨hg.1, hg.2, h1, h2⟩
    · refine .inr ⟨fun _ _ => h1, ?_⟩
      rw [h2, afterGrow, if_pos hg]; rfl
  · have hcond : ¬(!s.frozen && s.prevv) = true := by
      intro h; simp at h; exact hg h
    rw [if_neg hcond]
    refine .inr ⟨fun h1 h2 => absurd ⟨h1, h2⟩ hg, ?_⟩
    rw [afterGrow, if_neg hg]

/-- A field that an append does not write. -/
theorem afterGrow_field {α : Type} (f : Byte) (p : Entry) (s : State) (g : State → α) :
    g { afterGrow f p s with nent := s.nent, kw := s.kw, frozen := s.frozen, table := s.table } = g s := by
  unfold afterGrow
  split
  · exact withEntry_field f p s g
  · rfl

/-- Entries defined before the growth read as before it. -/
theorem afterGrow_read {s : State} (hB : Built s) (f : Byte) {p : Entry} {i : Nat} (hi : definedEntry s i = true) :
    tableRead (afterGrow f p s) i = tableRead s i := by
  unfold afterGrow
  split
  · next hg => exact withEntry_read f p (hB.notFull hg.1) hi (hB.defined_lt hi)
  · rfl

/-- The strings of defined entries are the same after the growth. -/
theorem stringFrom_grow {s : State} (hB : Built s) (f : Byte) {p : Entry} :
    ∀ (fuel : Nat) (c : Code) (str : List Byte), definedEntry s c.toNat = true →
      stringFrom s fuel c = some str → stringFrom (afterGrow f p s) fuel c = some str := by
  intro fuel
  induction fuel with
  | zero => intro c str _ h; simp [stringFrom] at h
  | succ fuel ih =>
    intro c str hd h
    simp only [stringFrom, afterGrow_read hB f hd] at h ⊢
    split at h
    · cases h
    · next e he =>
      split at h
      · next hp => rw [if_pos hp]; exact h
      · next hp =>
        rw [if_neg hp]
        split at h
        · cases h
        · next l hl =>
          have : definedEntry s e.pre.toNat = true := by
            cases fuel with
            | zero => simp [stringFrom] at hl
            | succ n =>
              simp only [stringFrom] at hl
              split at hl
              · cases hl
              · next x hx => exact (tableRead_some hx).1
          rw [ih _ _ this hl]; exact h

/-- The entry of PREV, where PREVV is 1 (R24). -/
theorem Built.prevEntry {s : State} (hB : Built s) : ∃ p, s.prevv = true → tableRead s s.prev.toNat = some p := by
  cases hv : s.prevv with
  | false => exact ⟨rootEntry 0, fun h => by cases h⟩
  | true => obtain ⟨e, he⟩ := hB.previous hv; exact ⟨e, fun _ => he⟩

/-- The state a data code ends in: the table grown, the memory after the emission, the bookkeeping. -/
def afterDataCode (c : Code) (f : Byte) (len : Nat) (p : Entry) (m : Memory) (s : State) : State :=
  finishCode c len { afterGrow f p s with fb := m }

/-- Everything a data code with a known string can do after its classification. `str` is the string of the code in the
table as it stands after the growth (for KWK the entry just appended, R273). -/
theorem dataCode_cases (c : Code) (f : Byte) (str : List Byte) {s : State} {p : Entry}
    (hp : s.prevv = true → tableRead s s.prev.toNat = some p)
    (hstr : (s.frozen = false → s.prevv = true → s.nent.toNat < s.tableMem) →
      ∃ fuel, stringFrom (afterGrow f p s) fuel c = some str)
    (hg : AddressesGood s) :
    (s.fw.toNat * s.fh.toNat < s.outoff.toNat + str.length ∧
      dataCode c (some (f, str.length)) s = .next (raise .outputOverrun c s)) ∨
    (s.outoff.toNat + str.length ≤ s.fw.toNat * s.fh.toNat ∧ s.frozen = false ∧ s.prevv = true ∧
      s.tableMem ≤ s.nent.toNat ∧ dataCode c (some (f, str.length)) s = .next (raise .outOfMemory c s)) ∨
    (s.outoff.toNat + str.length ≤ s.fw.toNat * s.fh.toNat ∧
      (s.frozen = false → s.prevv = true → s.nent.toNat < s.tableMem) ∧
      ∃ m, StringWritten s str s.fb m ∧
        dataCode c (some (f, str.length)) s = .next (afterDataCode c f str.length p m s)) := by
  by_cases hroom : s.fw.toNat * s.fh.toNat < s.outoff.toNat + str.length
  · exact .inl ⟨hroom, if_pos hroom⟩
  · refine .inr ?_
    have hcode : dataCode c (some (f, str.length)) s = growEmitFinish c f str.length s := if_neg hroom
    rw [hcode, growEmitFinish]
    rcases grow_cases c f hp with ⟨h1, h2, h3, h4⟩ | ⟨h1, h4⟩
    · refine .inl ⟨by omega, h1, h2, h3, ?_⟩
      rw [h4]
    · refine .inr ⟨by omega, h1, ?_⟩
      obtain ⟨fuel, hf⟩ := hstr h1
      have hcw := afterGrow_field f p s State.cw
      have hfx := afterGrow_field f p s State.fx
      have hfy := afterGrow_field f p s State.fy
      have hfw := afterGrow_field f p s State.fw
      have hfh := afterGrow_field f p s State.fh
      have hil := afterGrow_field f p s State.interlace
      have hch := afterGrow_field f p s State.ch
      have hof : (afterGrow f p s).outoff = s.outoff := afterGrow_field f p s State.outoff
      have hfb : (afterGrow f p s).fb = s.fb := afterGrow_field f p s State.fb
      have hpix : ∀ q, pixelAddr (afterGrow f p s) q = pixelAddr s q := pixelAddr_congr hcw hfx hfy hfw hfh hil
      have hcells : fbCells (afterGrow f p s) = fbCells s := by
        show (afterGrow f p s).cw.toNat * (afterGrow f p s).ch.toNat = _
        rw [show (afterGrow f p s).cw = s.cw from hcw, show (afterGrow f p s).ch = s.ch from hch]; rfl
      have hg' : AddressesGood (afterGrow f p s) := by
        refine ⟨fun q hq => ?_, fun q r a h1 h2 => ?_⟩
        · rw [show (afterGrow f p s).fw = s.fw from hfw, show (afterGrow f p s).fh = s.fh from hfh] at hq
          rw [hpix, hcells]; exact hg.inside q hq
        · rw [hpix] at h1 h2; exact hg.distinct q r a h1 h2
      obtain ⟨m, hm, hw⟩ := emit_string fuel c str (afterGrow f p s) hf hg' (by
        rw [hof, show (afterGrow f p s).fw = s.fw from hfw, show (afterGrow f p s).fh = s.fh from hfh]; omega)
      refine ⟨m, ⟨?_, ?_, ?_⟩, ?_⟩
      · intro j v hj
        have := hw.written j v hj
        rwa [hof, hpix] at this
      · intro a ha
        rw [← hfb]
        refine hw.kept a (fun j hj => ?_)
        rw [hof, hpix]; exact ha j hj
      · rw [← hfb]; exact hw.canonical
      · rw [h4]
        simp only
        rw [hm]; rfl

end Sys2Proof.Machine
end

