-- ==== Sys2Proof/Laws/PerInstr.lean ====
section
/-! SUPPORT. Statements about every item of the table, one lemma for each constructor. -/

namespace Sys2Proof.Laws.TableRow

/-- The `match` and `mask` columns of spec/opcode_table.json. -/
def columns : Instr → Nat × Nat
  | .clrN2 => (0x004, 0xFFF) | .stopN2 => (0x005, 0xFFF) | .litN2 _ => (0x000, 0xFFC)
  | .clrN3 => (0x008, 0xFFF) | .stopN3 => (0x009, 0xFFF) | .litN3 _ => (0x000, 0xFF8)
  | .clrN4 => (0x010, 0xFFF) | .stopN4 => (0x011, 0xFFF) | .litN4 _ => (0x000, 0xFF0)
  | .clrN5 => (0x020, 0xFFF) | .stopN5 => (0x021, 0xFFF) | .litN5 _ => (0x000, 0xFE0)
  | .clrN6 => (0x040, 0xFFF) | .stopN6 => (0x041, 0xFFF) | .litN6 _ => (0x000, 0xFC0)
  | .clrN7 => (0x080, 0xFFF) | .stopN7 => (0x081, 0xFFF) | .litN7 _ => (0x000, 0xF80)
  | .clrN8 => (0x100, 0xFFF) | .stopN8 => (0x101, 0xFFF) | .litN8 _ => (0x000, 0xF00)
  | .ref _ => (0x000, 0x000) | .kwk _ => (0x000, 0x000) | .illegal _ => (0x000, 0x000)
  | .codesize _ => (0x00, 0x00) | .sublen _ => (0x00, 0x00) | .term => (0x00, 0xFF)
  | .start => (0x00000001, 0x00000003) | .abort => (0x00000002, 0x00000002) | .row _ _ => (0x0, 0x0)

/-- The encoded word of an item has the fixed bits of its table row (R101 to R106, R91 to R93, R112). -/
def Statement (i : Instr) : Prop := leNat (encodeBytes i) &&& (columns i).2 = (columns i).1

theorem clrN2 : Statement .clrN2 := rfl
theorem stopN2 : Statement .stopN2 := rfl
theorem litN2 : ∀ k, Statement (.litN2 k) := by unfold Statement; decide
theorem clrN3 : Statement .clrN3 := rfl
theorem stopN3 : Statement .stopN3 := rfl
theorem litN3 : ∀ k, Statement (.litN3 k) := by unfold Statement; decide
theorem clrN4 : Statement .clrN4 := rfl
theorem stopN4 : Statement .stopN4 := rfl
theorem litN4 : ∀ k, Statement (.litN4 k) := by unfold Statement; decide
theorem clrN5 : Statement .clrN5 := rfl
theorem stopN5 : Statement .stopN5 := rfl
theorem litN5 : ∀ k, Statement (.litN5 k) := by unfold Statement; decide
theorem clrN6 : Statement .clrN6 := rfl
theorem stopN6 : Statement .stopN6 := rfl
theorem litN6 : ∀ k, Statement (.litN6 k) := by unfold Statement; decide
theorem clrN7 : Statement .clrN7 := rfl
theorem stopN7 : Statement .stopN7 := rfl
theorem litN7 : ∀ k, Statement (.litN7 k) := by unfold Statement; decide
theorem clrN8 : Statement .clrN8 := rfl
theorem stopN8 : Statement .stopN8 := rfl
theorem litN8 : ∀ k, Statement (.litN8 k) := by unfold Statement; decide
theorem ref (c : _) : Statement (.ref c) := Nat.and_zero _
theorem kwk (c : _) : Statement (.kwk c) := Nat.and_zero _
theorem illegal (c : _) : Statement (.illegal c) := Nat.and_zero _
theorem codesize (c : _) : Statement (.codesize c) := Nat.and_zero _
theorem sublen (c : _) : Statement (.sublen c) := Nat.and_zero _
theorem term : Statement .term := rfl
theorem start : Statement .start := rfl
theorem abort : Statement .abort := rfl
theorem row (y h : BitVec 16) : Statement (.row y h) := Nat.and_zero _

end Sys2Proof.Laws.TableRow
end

