-- ==== Sys2Proof/Laws/Steps.lean ====
section
/-! SUPPORT. What the engine's steps can do: one inversion lemma for the execution of a code, one for each kind of engine
step, and what a step of the machine is by the agent that moves. -/

namespace Sys2Proof.Machine

/-! ### The strings of data codes (R165 to R169) -/

/-- What holds of the string of a data code: it begins with `f`, a root index, and entry `c` has it once the table has
grown. -/
structure DataString (s : State) (c : Code) (f : Byte) (str : List Byte) : Prop where
  first : ∃ l, str = f :: l
  symbol : f.toNat < clearCode s.n.toNat
  short : str.length ≤ 4096
  grown : ∀ p, (s.prevv = true → tableRead s s.prev.toNat = some p) →
    ∃ fuel, stringFrom (afterGrow f p s) fuel c = some str

/-- LIT: a root's string is its index (R166). -/
theorem Built.literalString {s : State} (h : Built s) {k : Byte} {c : Code} (hk : k.toNat < clearCode s.n.toNat)
    (hc : c.toNat = k.toNat) : DataString s c k [k] := by
  refine ⟨⟨[], rfl⟩, hk, by simp, fun p _ => ?_⟩
  have hd : definedEntry s c.toNat = true := (definedEntry_iff _ _).2 (.inl (by omega))
  obtain ⟨e, f, l, hs⟩ := h.stringAt hd
  have ⟨h1, h2⟩ := hs.root (by omega)
  have hf : f = k := BitVec.eq_of_toNat_eq (by omega)
  refine ⟨c.toNat + 1, stringFrom_grow h k _ _ _ hd ?_⟩
  rw [hs.string, h2, hf]

/-- REF: the string of a defined entry (R167). -/
theorem Built.referenceString {s : State} (h : Built s) {c : Code} (hd : definedEntry s c.toNat = true) :
    ∃ f str, DataString s c f str ∧ stringOf s c = some str ∧ symbolAndLength s c = some (f, str.length) := by
  obtain ⟨e, f, l, hs⟩ := h.stringAt hd
  refine ⟨f, f :: l, ⟨⟨l, rfl⟩, hs.symbols f (by simp), ?_, fun p _ => ⟨_, stringFrom_grow h f _ _ _ hd hs.string⟩⟩,
    hs.string, ?_⟩
  · have := hs.length
    have := e.len.isLt
    rw [List.length_cons]; omega
  · rw [hs.symbolAndLength]; rfl

/-- KWK: the previous string and its first symbol once more, read from the entry just appended (R169, R273). -/
theorem Built.kwkString {s : State} (h : Built s) {c : Code} (hc : c.toNat = s.nent.toNat) (hf : s.frozen = false)
    (hv : s.prevv = true) :
    ∃ f l, DataString s c f (f :: l ++ [f]) ∧ stringOf s s.prev = some (f :: l) ∧
      kwkSymbolAndLength s = some (f, (f :: l ++ [f]).length) := by
  obtain ⟨q, hq⟩ := h.previous hv
  have hd := (tableRead_some hq).1
  obtain ⟨e, f, l, hs⟩ := h.stringAt hd
  have hfull := h.notFull hf
  refine ⟨f, l, ⟨⟨l ++ [f], rfl⟩, hs.symbols f (by simp), ?_, fun p hp => ⟨s.prev.toNat + 1 + 1, ?_⟩⟩, hs.string, ?_⟩
  · have := hs.length
    have := e.len.isLt
    rw [List.length_append, List.length_cons, List.length_singleton]; omega
  · have hg : afterGrow f p s = withEntry f p s := if_pos ⟨hf, hv⟩
    have hnew := withEntry_read_new f p hfull h.count.1
    have hpn : s.prev ≠ Config.noPrefix := by
      intro hne
      have := h.defined_lt hd
      rw [hne, noPrefix_toNat] at this
      omega
    rw [Machine.stringFrom, hg, hc, hnew]
    simp only [hpn, if_false]
    rw [← hg, stringFrom_grow h f _ _ _ hd hs.string]
  · rw [kwkSymbolAndLength, hs.symbolAndLength]; simp

/-! ### The execution of a code -/

/-- Everything the execution of a code in phase RUN can be: the decoder gives an instruction, and its meaning clears the
table, stops, takes InvalidCode, or is `dataCode` with the string of the code (R161 to R170). -/
theorem exec_code_cases {s : State} (h : Built s) (hr : s.phase = .run) (c : Code) :
    ∃ i, decodeCode (codeCtx s) c = some i ∧
      (exec i s = .next (tableClear s) ∨ exec i s = .next (stopRun s) ∨
        exec i s = .next (raise .invalidCode c s) ∨
        ∃ f str, DataString s c f str ∧ exec i s = dataCode c (some (f, str.length)) s) := by
  have h2 := h.codeSize.1
  have h8 := h.codeSize.2
  have hlegal : (decide (s.n.toNat < Config.minN) || decide (Config.maxN < s.n.toNat)) = false := by
    rw [Bool.or_eq_false_iff, decide_eq_false_iff_not, decide_eq_false_iff_not]
    simp only [Config.minN, Config.maxN]; omega
  have hd : decodeCode (codeCtx s) c =
      if c.toNat = clearCode s.n.toNat then clrOf s.n.toNat
      else if c.toNat = stopCode s.n.toNat then stopOf s.n.toNat
      else if c.toNat < clearCode s.n.toNat then litOf s.n.toNat c
      else if c.toNat < s.nent.toNat then some (.ref c)
      else if isKwk (codeCtx s) c then some (.kwk c)
      else some (.illegal c) := by
    unfold decodeCode
    exact if_neg (by rw [Bool.not_eq_true]; exact hlegal)
  have hn : s.n.toNat = 2 ∨ s.n.toNat = 3 ∨ s.n.toNat = 4 ∨ s.n.toNat = 5 ∨ s.n.toNat = 6 ∨ s.n.toNat = 7 ∨
      s.n.toNat = 8 := by omega
  rw [hd]
  by_cases hc1 : c.toNat = clearCode s.n.toNat
  · rw [if_pos hc1]
    rcases hn with hn | hn | hn | hn | hn | hn | hn <;> rw [hn] <;> refine ⟨_, rfl, .inl ?_⟩ <;>
      simp [exec, execClrN2, execClrN3, execClrN4, execClrN5, execClrN6, execClrN7, execClrN8, whenCodeFits, hr,
        fitsCode, codeCtx, hn]
  rw [if_neg hc1]
  by_cases hc2 : c.toNat = stopCode s.n.toNat
  · rw [if_pos hc2]
    rcases hn with hn | hn | hn | hn | hn | hn | hn <;> rw [hn] <;> refine ⟨_, rfl, .inr (.inl ?_)⟩ <;>
      simp [exec, execStopN2, execStopN3, execStopN4, execStopN5, execStopN6, execStopN7, execStopN8, whenCodeFits, hr,
        fitsCode, codeCtx, hn]
  rw [if_neg hc2]
  have hcl : clearCode s.n.toNat = 2 ^ s.n.toNat := rfl
  have hst : stopCode s.n.toNat = 2 ^ s.n.toNat + 1 := rfl
  by_cases hc3 : c.toNat < clearCode s.n.toNat
  · rw [if_pos hc3]
    have hlit : ∀ (w : Nat) (k : BitVec w), s.n.toNat = w → w ≤ 8 → k = c.setWidth w →
        DataString s c (k.setWidth 8) [k.setWidth 8] ∧
          (k.setWidth 8).setWidth 12 = c := by
      intro w k hw hw8 hk
      subst hk
      have hc3' := hc3
      rw [hw] at hc3'
      have hcw : clearCode w = 2 ^ w := rfl
      have hpw : 2 ^ w ≤ 2 ^ 8 := Nat.pow_le_pow_right (by decide) hw8
      have hto : ((c.setWidth w).setWidth 8).toNat = c.toNat := by
        rw [BitVec.toNat_setWidth, BitVec.toNat_setWidth]
        rw [Nat.mod_eq_of_lt (a := c.toNat) (by omega), Nat.mod_eq_of_lt (by omega)]
      refine ⟨h.literalString (by rw [hto]; exact hc3) hto.symm, BitVec.eq_of_toNat_eq ?_⟩
      rw [BitVec.toNat_setWidth, hto, Nat.mod_eq_of_lt c.isLt]
    rcases hn with hn | hn | hn | hn | hn | hn | hn
    · have := hlit 2 (c.setWidth 2) hn (by decide) rfl
      refine ⟨.litN2 (c.setWidth 2), by rw [hn]; rfl, .inr (.inr (.inr ⟨_, _, this.1, ?_⟩))⟩
      simp only [exec, execLitN2, whenCodeFits, hr, fitsCode, codeCtx, hn, literal, this.2]; rfl
    · have := hlit 3 (c.setWidth 3) hn (by decide) rfl
      refine ⟨.litN3 (c.setWidth 3), by rw [hn]; rfl, .inr (.inr (.inr ⟨_, _, this.1, ?_⟩))⟩
      simp only [exec, execLitN3, whenCodeFits, hr, fitsCode, codeCtx, hn, literal, this.2]; rfl
    · have := hlit 4 (c.setWidth 4) hn (by decide) rfl
      refine ⟨.litN4 (c.setWidth 4), by rw [hn]; rfl, .inr (.inr (.inr ⟨_, _, this.1, ?_⟩))⟩
      simp only [exec, execLitN4, whenCodeFits, hr, fitsCode, codeCtx, hn, literal, this.2]; rfl
    · have := hlit 5 (c.setWidth 5) hn (by decide) rfl
      refine ⟨.litN5 (c.setWidth 5), by rw [hn]; rfl, .inr (.inr (.inr ⟨_, _, this.1, ?_⟩))⟩
      simp only [exec, execLitN5, whenCodeFits, hr, fitsCode, codeCtx, hn, literal, this.2]; rfl
    · have := hlit 6 (c.setWidth 6) hn (by decide) rfl
      refine ⟨.litN6 (c.setWidth 6), by rw [hn]; rfl, .inr (.inr (.inr ⟨_, _, this.1, ?_⟩))⟩
      simp only [exec, execLitN6, whenCodeFits, hr, fitsCode, codeCtx, hn, literal, this.2]; rfl
    · have := hlit 7 (c.setWidth 7) hn (by decide) rfl
      refine ⟨.litN7 (c.setWidth 7), by rw [hn]; rfl, .inr (.inr (.inr ⟨_, _, this.1, ?_⟩))⟩
      simp only [exec, execLitN7, whenCodeFits, hr, fitsCode, codeCtx, hn, literal, this.2]; rfl
    · have := hlit 8 (c.setWidth 8) hn (by decide) rfl
      refine ⟨.litN8 (c.setWidth 8), by rw [hn]; rfl, .inr (.inr (.inr ⟨_, _, this.1, ?_⟩))⟩
      simp only [exec, execLitN8, whenCodeFits, hr, fitsCode, codeCtx, hn, literal, this.2]; rfl
  rw [if_neg hc3]
  have hlow : initialCount s.n.toNat ≤ c.toNat := by rw [initialCount_eq]; omega
  by_cases hc4 : c.toNat < s.nent.toNat
  · rw [if_pos hc4]
    obtain ⟨f, str, hds, -, hsl⟩ := h.referenceString ((definedEntry_iff _ _).2 (.inr ⟨hlow, hc4⟩))
    refine ⟨_, rfl, .inr (.inr (.inr ⟨f, str, hds, ?_⟩))⟩
    have hfit : fitsCode (codeCtx s) (.ref c) = true := by
      simp [fitsCode, codeCtx, h2, h8, hlow, hc4]
    simp only [exec, execRef, whenCodeFits, hr, hfit, and_self, if_true, hsl]
  rw [if_neg hc4]
  by_cases hc5 : isKwk (codeCtx s) c = true
  · rw [if_pos hc5]
    have hfit : fitsCode (codeCtx s) (.kwk c) = true := by
      simp only [fitsCode, hc5]
      simp [codeCtx, h2, h8, hlow]
    simp only [isKwk, Bool.and_eq_true, decide_eq_true_eq, Bool.not_eq_true'] at hc5
    obtain ⟨f, l, hds, -, hsl⟩ := h.kwkString hc5.1.1 hc5.1.2 hc5.2
    refine ⟨_, rfl, .inr (.inr (.inr ⟨f, _, hds, ?_⟩))⟩
    simp only [exec, execKwk, whenCodeFits, hr, hfit, and_self, if_true, hsl]
  · rw [if_neg hc5]
    refine ⟨_, rfl, .inr (.inr (.inl ?_))⟩
    have hfit : fitsCode (codeCtx s) (.illegal c) = true := by
      have hk : isKwk (codeCtx s) c = false := by simpa using hc5
      simp only [fitsCode, hk]
      simp [codeCtx, h2, h8, hlow, Nat.le_of_not_lt hc4]
    simp only [exec, execIllegal, whenCodeFits, hr, hfit, and_self, if_true]

/-! ### Engine steps -/

/-- The table's invariant depends on the table's state only. -/
theorem Built.congr {s t : State} (h : Built s) (h1 : t.n = s.n) (h2 : t.kw = s.kw) (h3 : t.nent = s.nent)
    (h4 : t.prev = s.prev) (h5 : t.frozen = s.frozen) (h6 : t.prevv = s.prevv) (h7 : t.table = s.table) : Built t := by
  have hread := tableRead_congr h1 h3 h7
  constructor
  · rw [h1]; exact h.codeSize
  · rw [h1, h2]; exact h.width
  · rw [h1, h3]; exact h.count
  · rw [h5, h3]; exact h.frozenFull
  · rw [h5, h2]; exact h.frozenWidth
  · rw [h5, h2, h3]; exact h.openWidth
  · rw [h1, h7]; exact h.roots
  · rw [h1, h3, h7]
    intro k hk1 hk2
    obtain ⟨e, p, he, hp, hr⟩ := h.appended k hk1 hk2
    exact ⟨e, p, he, by rw [hread]; exact hp, hr⟩
  · rw [h1, h7]; exact h.sentinelSlots
  · rw [h6, h4]
    intro hv
    obtain ⟨e, he⟩ := h.previous hv
    exact ⟨e, by rw [hread]; exact he⟩
  · rw [h6, h1, h3]; exact h.noPrevious

theorem Built.cursor {s t : State} (h : Built s) (hs : sameBesidesCursor s t) : Built t :=
  h.congr hs.n hs.kw hs.nent hs.prev hs.frozen hs.prevv hs.table

theorem Built.resume {s : State} (h : Built s) : Built (resume s) := h.congr rfl rfl rfl rfl rfl rfl rfl

/-- Resuming and waiting neither add nor lose bytes. -/
@[simp] theorem resume_stall (s : State) : resume (stall s) = resume s := by simp [resume, stall]

/-- A step that waited goes on with the bytes that come as if they had stood behind those it took. -/
theorem codeStep_stall (s : State) (more : List Byte) (ended : Bool) :
    codeStep { stall s with source := more, sourceEnded := ended } =
      codeStep { s with source := s.source ++ more, sourceEnded := ended } := by
  simp only [codeStep, resume, stall, List.append_assoc]

/-- Everything a code step can end in. -/
inductive CodeStep (s : State) : State → Prop
  /-- the source has not answered -/
  | waits (h : getCode (resume s) = .waiting) : CodeStep s (stall s)
  | truncated (t : State) (h : getCode (resume s) = .raised (raise .truncatedRead 0 t)) : CodeStep s (raise .truncatedRead 0 t)
  | exhausted (t : State) (h : getCode (resume s) = .terminated t) :
      CodeStep s (raise .dataExhausted 0 { t with termseen := true })
  | clear (c : Code) (u : State) (h : getCode (resume s) = .got c u) : CodeStep s (tableClear u)
  | stop (c : Code) (u : State) (h : getCode (resume s) = .got c u) : CodeStep s (stopRun u)
  | illegal (c : Code) (u : State) (h : getCode (resume s) = .got c u) : CodeStep s (raise .invalidCode c u)
  | overrun (c : Code) (u : State) (h : getCode (resume s) = .got c u) : CodeStep s (raise .outputOverrun c u)
  | noMemory (c : Code) (u : State) (h : getCode (resume s) = .got c u) : CodeStep s (raise .outOfMemory c u)
  | data (c : Code) (u : State) (h : getCode (resume s) = .got c u) (f : Byte) (str : List Byte) (p : Entry) (m : Memory)
      (prevEntry : u.prevv = true → tableRead u u.prev.toNat = some p) (string : DataString u c f str)
      (room : u.outoff.toNat + str.length ≤ u.fw.toNat * u.fh.toNat)
      (slot : u.frozen = false → u.prevv = true → u.nent.toNat < u.tableMem)
      (output : StringWritten u str u.fb m) :
      CodeStep s (afterDataCode c f str.length p m u)

/-- A code step from a state of the invariant takes a next state, and what it can be. The facts on pixel addresses
are R196's and R197's. -/
theorem codeStep_cases {s : State} (hI : Inv s) (hr : s.phase = .run) (hg : AddressesGood s) :
    ∃ t, codeStep s = .next t ∧ CodeStep s t := by
  have hB := hI.afterHeader (.inl hr)
  have hgc := getCode_cases (resume s) hB.width.2 (hI.bitCount.2 (by rw [hr]; decide)) hI.bitsHeld
  unfold codeStep
  generalize hG : getCode (resume s) = g at hgc ⊢
  cases hgc with
  | ended t => exact ⟨_, rfl, .truncated t hG⟩
  | waiting => exact ⟨_, rfl, .waits hG⟩
  | terminated t same within short few bits count term due measure =>
    have hp : t.phase = .run := same.phase.trans hr
    refine ⟨_, ?_, .exhausted t hG⟩
    simp [Fetch.finish, exec, execTerm, lengthDue, hp, due]
  | code c u same =>
    have hp : u.phase = .run := same.phase.trans hr
    have hBu := hB.resume.cursor same
    obtain ⟨i, hi, hcase⟩ := exec_code_cases hBu hp c
    simp only [Fetch.finish, hi]
    rcases hcase with he | he | he | ⟨f, str, hds, he⟩
    · exact ⟨_, he, .clear c u hG⟩
    · exact ⟨_, he, .stop c u hG⟩
    · exact ⟨_, he, .illegal c u hG⟩
    · obtain ⟨p, hpe⟩ := hBu.prevEntry
      have hgu : AddressesGood u := by
        have hpix := pixelAddr_congr same.cw same.fx same.fy same.fw same.fh same.interlace
        refine ⟨fun q hq => ?_, fun q r a h1 h2 => ?_⟩
        · rw [same.fw, same.fh] at hq
          obtain ⟨a, ha, hlt⟩ := hg.inside q hq
          refine ⟨a, by rw [hpix]; exact ha, ?_⟩
          rw [fbCells, same.cw, same.ch]; exact hlt
        · rw [hpix] at h1 h2; exact hg.distinct q r a h1 h2
      rcases dataCode_cases c f str hpe (fun _ => hds.grown p hpe) hgu with ⟨-, hd⟩ | ⟨-, -, -, -, hd⟩ |
        ⟨hroom, hslot, m, hw, hd⟩
      · exact ⟨_, he.trans hd, .overrun c u hG⟩
      · exact ⟨_, he.trans hd, .noMemory c u hG⟩
      · exact ⟨_, he.trans hd, .data c u hG f str p m hpe hds hroom hslot hw⟩

/-- Everything a header step can do (R213). -/
theorem headerStep_cases {s : State} (hr : s.phase = .hdr) :
    (s.source = [] ∧ s.sourceEnded = false ∧ headerStep s = .next s) ∨
    (s.source = [] ∧ s.sourceEnded = true ∧ headerStep s = .next (raise .truncatedRead 0 s)) ∨
    ∃ b rest, s.source = b :: rest ∧
      ((b.toNat < 2 ∨ 8 < b.toNat) ∧ headerStep s =
        .next (raise .badCodeSize (b.setWidth 12) { s with source := rest, bytecnt := s.bytecnt + 1 }) ∨
      (2 ≤ b.toNat ∧ b.toNat ≤ 8) ∧ headerStep s = .next
        { tableInit b.toNat { s with source := rest, bytecnt := s.bytecnt + 1, n := b.setWidth 4 } with
          phase := .run }) := by
  cases hs : s.source with
  | nil =>
    cases he : s.sourceEnded with
    | false => exact .inl ⟨rfl, rfl, by rw [headerStep, srcNext_waiting hs he]; rfl⟩
    | true => exact .inr (.inl ⟨rfl, rfl, by rw [headerStep, srcNext_ended hs he]; rfl⟩)
  | cons b rest =>
    refine .inr (.inr ⟨b, rest, rfl, ?_⟩)
    rw [headerStep, srcNext_cons hs]
    simp only [Fetch.finish, exec, execCodesize, hr, if_true]
    by_cases hb : b.toNat < 2 ∨ 8 < b.toNat
    · exact .inl ⟨hb, if_pos hb⟩
    · exact .inr ⟨by omega, if_neg hb⟩

/-- Everything a drain step can do (R128). -/
theorem drainStep_cases {s : State} (hr : s.phase = .drain) :
    (s.source = [] ∧ s.sourceEnded = false ∧ drainStep s = .next s) ∨
    (s.source = [] ∧ s.sourceEnded = true ∧ drainStep s = .next (raise .truncatedRead 0 s)) ∨
    ∃ b rest, s.source = b :: rest ∧
      ((s.subrem ≠ 0 ∧ drainStep s =
        .next { s with source := rest, bytecnt := s.bytecnt + 1, subrem := s.subrem - 1 }) ∨
      (s.subrem = 0 ∧ b ≠ 0 ∧ drainStep s =
        .next { s with source := rest, bytecnt := s.bytecnt + 1, subrem := b }) ∨
      (s.subrem = 0 ∧ b = 0 ∧ drainStep s =
        .next { s with source := rest, bytecnt := s.bytecnt + 1, termseen := true, phase := .done })) := by
  cases hs : s.source with
  | nil =>
    cases he : s.sourceEnded with
    | false => exact .inl ⟨rfl, rfl, by rw [drainStep, srcNext_waiting hs he]; rfl⟩
    | true => exact .inr (.inl ⟨rfl, rfl, by rw [drainStep, srcNext_ended hs he]; rfl⟩)
  | cons b rest =>
    refine .inr (.inr ⟨b, rest, rfl, ?_⟩)
    rw [drainStep, srcNext_cons hs]
    simp only [Fetch.finish]
    by_cases h0 : s.subrem = 0
    · rw [if_pos h0]
      by_cases hb : b = 0
      · refine .inr (.inr ⟨h0, hb, ?_⟩)
        rw [decodeLength, if_pos hb]
        simp [exec, execTerm, lengthDue, hr, h0]
      · refine .inr (.inl ⟨h0, hb, ?_⟩)
        rw [decodeLength, if_neg hb]
        simp only [exec, execSublen, lengthDue, hr, h0]
        exact if_pos ⟨rfl, hb⟩
    · exact .inl ⟨h0, if_neg h0⟩

/-! ### The agent that moves -/

/-- The engine's move acts on the state without its turn. -/
theorem step_engine {s : State} (h : engineMoves s = true) : step s = engineStep (afterTurn s) := by
  unfold engineMoves at h
  unfold step nextMove afterTurn
  cases ht : s.turns with
  | nil =>
    have : { s with turns := s.turns.tail } = s := by rw [ht, List.tail_nil, ← ht]
    rw [ht] at this
    exact congrArg engineStep this.symm
  | cons u rest =>
    rw [ht] at h
    rw [List.tail_cons, show u = .engine by simpa using h]
    rfl

/-- Another agent's move. -/
theorem step_other {s : State} (h : engineMoves s = false) :
    ∃ u rest, s.turns = u :: rest ∧ u ≠ .engine ∧ step s = takeTurn u { s with turns := rest } := by
  unfold engineMoves at h
  cases ht : s.turns with
  | nil => rw [ht] at h; cases h
  | cons u rest =>
    rw [ht] at h
    exact ⟨u, rest, rfl, by simpa using h, by rw [step, nextMove, ht]⟩

end Sys2Proof.Machine
end

