-- ==== Sys2Proof/Tests/Slice0.lean ====
section
/-! SUPPORT. Tests: ill-formed terms, words written out from the encoding rules, one-step tests whose results come from
the spec's examples and vectors, and for every statement with hypotheses a state and operands that meet them. -/

namespace Sys2Proof.Tests

open Sys2Proof.Machine Sys2Proof.Claims

/-! ### Well-formedness: each check refuses an ill-formed term -/

theorem test_ref_below_any_appended_entry : Instr.wellFormed (.ref 5) = false := by decide
theorem test_kwk_below_any_appended_entry : Instr.wellFormed (.kwk 5) = false := by decide
theorem test_illegal_below_any_appended_entry : Instr.wellFormed (.illegal 5) = false := by decide
theorem test_sublen_zero : Instr.wellFormed (.sublen 0) = false := by decide
theorem test_row_outside : Instr.wellFormed (.row 3 3) = false := by decide

/-! ### Decoding: words written out bit by bit (R101 to R106, R91 to R93, R45) -/

theorem test_decode_clrN2 : decode (.code (freshCtx 2) 3) [0b00000_100] = some .clrN2 := by decide
theorem test_decode_stopN2 : decode (.code (freshCtx 2) 3) [0b00000_101] = some .stopN2 := by decide
theorem test_decode_litN2 : decode (.code (freshCtx 2) 3) [0b11111_0_10] = some (.litN2 0b10) := by decide
theorem test_decode_clrN3 : decode (.code (freshCtx 3) 4) [0b0000_1000] = some .clrN3 := by decide
theorem test_decode_stopN3 : decode (.code (freshCtx 3) 4) [0b0000_1001] = some .stopN3 := by decide
theorem test_decode_litN3 : decode (.code (freshCtx 3) 4) [0b1111_0_101] = some (.litN3 0b101) := by decide
theorem test_decode_clrN4 : decode (.code (freshCtx 4) 5) [0b000_10000] = some .clrN4 := by decide
theorem test_decode_stopN4 : decode (.code (freshCtx 4) 5) [0b000_10001] = some .stopN4 := by decide
theorem test_decode_litN4 : decode (.code (freshCtx 4) 5) [0b111_0_1010] = some (.litN4 0b1010) := by decide
theorem test_decode_clrN5 : decode (.code (freshCtx 5) 6) [0b00_100000] = some .clrN5 := by decide
theorem test_decode_stopN5 : decode (.code (freshCtx 5) 6) [0b00_100001] = some .stopN5 := by decide
theorem test_decode_litN5 : decode (.code (freshCtx 5) 6) [0b11_0_10110] = some (.litN5 0b10110) := by decide
theorem test_decode_clrN6 : decode (.code (freshCtx 6) 7) [0b0_1000000] = some .clrN6 := by decide
theorem test_decode_stopN6 : decode (.code (freshCtx 6) 7) [0b0_1000001] = some .stopN6 := by decide
theorem test_decode_litN6 : decode (.code (freshCtx 6) 7) [0b1_0_101101] = some (.litN6 0b101101) := by decide
theorem test_decode_clrN7 : decode (.code (freshCtx 7) 8) [0b10000000] = some .clrN7 := by decide
theorem test_decode_stopN7 : decode (.code (freshCtx 7) 8) [0b10000001] = some .stopN7 := by decide
theorem test_decode_litN7 : decode (.code (freshCtx 7) 8) [0b0_1011010] = some (.litN7 0b1011010) := by decide
theorem test_decode_clrN8 : decode (.code (freshCtx 8) 9) [0b00000000, 0b0000000_1] = some .clrN8 := by decide
theorem test_decode_stopN8 : decode (.code (freshCtx 8) 9) [0b00000001, 0b0000000_1] = some .stopN8 := by decide
theorem test_decode_litN8 :
    decode (.code (freshCtx 8) 9) [0b10110110, 0b1111111_0] = some (.litN8 0b10110110) := by decide

/-- N = 2 after five appends: NENT 11, KW 4 (R153). -/
def ctx11 : CodeCtx := { n := 2, nent := 11, frozen := false, prevv := true }

theorem test_decode_ref : decode (.code ctx11 4) [0b0000_1010] = some (.ref 10) := by decide
theorem test_decode_kwk : decode (.code ctx11 4) [0b0000_1011] = some (.kwk 11) := by decide
theorem test_decode_illegal : decode (.code ctx11 4) [0b0000_1100] = some (.illegal 12) := by decide
theorem test_decode_illegal_without_previous :
    decode (.code (freshCtx 2) 3) [0b00000_110] = some (.illegal 6) := by decide
theorem test_decode_codesize : decode .codeSize [0b00001000] = some (.codesize 8) := by decide
theorem test_decode_sublen : decode .length [0b11111111] = some (.sublen 255) := by decide
theorem test_decode_term : decode .length [0b00000000] = some .term := by decide
theorem test_decode_start : decode .ctrl [0b111111_01, 0, 0, 0x80] = some .start := by decide
theorem test_decode_abort : decode .ctrl [0b000000_11, 0, 0, 0] = some .abort := by decide
theorem test_decode_no_command : decode .ctrl [0b111111_00, 0xFF, 0xFF, 0xFF] = none := by decide
theorem test_row_has_no_encoding : encodeBytes (.row 3 8) = [] := by decide

/-- The packer's example (R111, V3). -/
theorem test_pack_v3 : pack 2 [4, 1, 6, 5] 255 = some [0x02, 0x02, 0x8C, 0x0B, 0x00] := by decide
/-- V5, sub-blocks of at most one byte; the width changes from 3 to 4 on the way. -/
theorem test_pack_v5 : pack 2 [4, 0, 1, 2, 3, 6, 7, 5] 1 =
    some [0x02, 0x01, 0x44, 0x01, 0x34, 0x01, 0x76, 0x01, 0x05, 0x00] := by decide

/-! ### States -/

/-- The configuration of V3, with a rectangle of the whole canvas. -/
def idle : State := { State.reset with cw := 4, ch := 4, fw := 4, fh := 4 }

/-- After START on a source. -/
def header (source : List Byte) : State := { idle with phase := .hdr, source := source, sourceEnded := true }

/-- After the header step of code size `n`. -/
def runAt (n : Nat) : State :=
  { idle with
    phase := .run, n := BitVec.ofNat 4 n, kw := BitVec.ofNat 4 (n + 1), nent := BitVec.ofNat 13 (initialCount n)
    table := writeRoots n [] }

/-- The same after the root code `p`. -/
def runAfter (n : Nat) (p : Code) : State := { runAt n with prev := p, prevv := true }

/-- The table of R153 at NENT 11, with PREV 9 and OUTOFF 10. -/
def grown : State :=
  { runAt 2 with
    kw := 4, nent := 11, prev := 9, prevv := true, outoff := 10
    table := writeRoots 2 [] ++
      [(6, ⟨2, 1, 1⟩), (7, ⟨3, 6, 1⟩), (8, ⟨3, 6, 2⟩), (9, ⟨2, 2, 2⟩), (10, ⟨3, 9, 2⟩)] }

/-- Draining, on a source. -/
def draining (source : List Byte) : State :=
  { runAt 2 with phase := .drain, source := source, sourceEnded := true }

/-- A view of the next state. -/
def view {α : Type} (o : Host.Outcome State Fault Refusal) (f : State → α) : Option α :=
  match o with
  | .next t => some (f t)
  | .fault _ | .refused _ => none

/-! ### One step (results from the rules' examples and the vectors) -/

/-- R163's example. -/
theorem test_clrN2 : view (exec .clrN2 grown) (fun t => (t.nent, t.kw, t.prevv)) = some (6, 3, false) := by decide
theorem test_clrN3 : view (exec .clrN3 { runAfter 3 1 with kw := 9 }) (fun t => (t.nent, t.kw)) = some (10, 4) := by
  decide
theorem test_clrN4 : view (exec .clrN4 { runAfter 4 1 with kw := 9 }) (fun t => (t.nent, t.kw)) = some (18, 5) := by
  decide
theorem test_clrN5 : view (exec .clrN5 { runAfter 5 1 with kw := 9 }) (fun t => (t.nent, t.kw)) = some (34, 6) := by
  decide
theorem test_clrN6 : view (exec .clrN6 { runAfter 6 1 with kw := 9 }) (fun t => (t.nent, t.kw)) = some (66, 7) := by
  decide
theorem test_clrN7 : view (exec .clrN7 { runAfter 7 1 with kw := 9 }) (fun t => (t.nent, t.kw)) = some (130, 8) := by
  decide
/-- R149's example. -/
theorem test_clrN8 : view (exec .clrN8 { runAt 8 with nent := 4096, kw := 12, frozen := true })
    (fun t => (t.nent, t.kw, t.frozen)) = some (258, 9, false) := by decide

theorem test_stopN2 : view (exec .stopN2 grown) (fun t => (t.phase, t.nent)) = some (.drain, 11) := by decide
theorem test_stopN3 : view (exec .stopN3 (runAt 3)) State.phase = some .drain := by decide
theorem test_stopN4 : view (exec .stopN4 (runAt 4)) State.phase = some .drain := by decide
theorem test_stopN5 : view (exec .stopN5 (runAt 5)) State.phase = some .drain := by decide
theorem test_stopN6 : view (exec .stopN6 (runAt 6)) State.phase = some .drain := by decide
theorem test_stopN7 : view (exec .stopN7 (runAt 7)) State.phase = some .drain := by decide
theorem test_stopN8 : view (exec .stopN8 (runAt 8)) State.phase = some .drain := by decide

/-- R166's example: no entry without a previous code. -/
theorem test_litN2 : view (exec (.litN2 1) (runAt 2)) (fun t => (t.fb, t.outoff, t.prev, t.prevv, t.nent)) =
    some ([(0, 1)], 1, 1, true, 6) := by decide
/-- V4: the append that brings NENT to 8 makes the next code 4 bits wide. -/
theorem test_litN2_widens : view (exec (.litN2 2) { runAfter 2 1 with nent := 7 }) (fun t => (t.nent, t.kw)) =
    some (8, 4) := by decide
theorem test_litN3 : view (exec (.litN3 7) (runAfter 3 5)) (fun t => (t.fb, t.nent, tableRead t 10)) =
    some ([(0, 7)], 11, some ⟨2, 5, 7⟩) := by decide
theorem test_litN4 : view (exec (.litN4 15) (runAt 4)) (fun t => (t.fb, t.prev)) = some ([(0, 15)], 15) := by decide
theorem test_litN5 : view (exec (.litN5 31) (runAt 5)) (fun t => (t.fb, t.prev)) = some ([(0, 31)], 31) := by decide
theorem test_litN6 : view (exec (.litN6 63) (runAt 6)) (fun t => (t.fb, t.prev)) = some ([(0, 63)], 63) := by decide
theorem test_litN7 : view (exec (.litN7 127) (runAt 7)) (fun t => (t.fb, t.prev)) = some ([(0, 127)], 127) := by decide
set_option maxRecDepth 4000 in
theorem test_litN8 : view (exec (.litN8 255) (runAt 8)) (fun t => (t.fb, t.prev)) = some ([(0, 255)], 255) := by decide
/-- V27, a store of 258 entries: OutOfMemory before any write. -/
theorem test_litN8_no_slot : view (exec (.litN8 1) { runAfter 8 0 with tableMem := 258, outoff := 1 })
    (fun t => (t.fb, t.cause, t.errinfo, t.nent)) = some ([], .outOfMemory, 1, 258) := by decide

/-- R167's example; the rectangle has 16 pixels, so offsets 10 to 12 are the cells 10 to 12. -/
theorem test_ref : view (exec (.ref 7) grown)
    (fun t => (t.fb, t.outoff, t.prev, t.nent, tableRead t 11)) =
      some ([(10, 1), (11, 1), (12, 1)], 13, 7, 12, some ⟨3, 9, 1⟩) := by decide
/-- R171: one pixel too many; nothing is written. -/
theorem test_ref_overrun : view (exec (.ref 7) { grown with outoff := 14 })
    (fun t => (t.fb, t.cause, t.errinfo, t.nent)) = some ([], .outputOverrun, 7, 11) := by decide
/-- R169's example. -/
theorem test_kwk : view (exec (.kwk 6) { runAfter 2 1 with outoff := 1 })
    (fun t => (t.fb, t.outoff, t.prev, t.nent, tableRead t 6)) =
      some ([(1, 1), (2, 1)], 3, 6, 7, some ⟨2, 1, 1⟩) := by decide
/-- R153: code 11 after code 9, whose string is 2, 2. -/
theorem test_kwk_longer : view (exec (.kwk 11) grown) (fun t => (t.fb, tableRead t 11)) =
    some ([(10, 2), (11, 2), (12, 2)], some ⟨3, 9, 2⟩) := by decide
/-- R170's example. -/
theorem test_illegal : view (exec (.illegal 7) (runAfter 2 1)) (fun t => (t.phase, t.cause, t.errinfo)) =
    some (.fault, .invalidCode, 7) := by decide

/-- R213's example: the byte 8, BYTECNT 1. -/
theorem test_codesize : view (step (header [0x08])) (fun t => (t.n, t.kw, t.nent, t.phase, t.bytecnt)) =
    some (8, 9, 258, .run, 1) := by decide
/-- V61: 9 is no legal code size. -/
theorem test_codesize_nine : view (step (header [0x09])) (fun t => (t.cause, t.errinfo, t.bytecnt, t.n)) =
    some (.badCodeSize, 9, 1, 0) := by decide
/-- V12: a further sub-block is met while draining. -/
theorem test_sublen : view (step (draining [0x02, 0xDE])) (fun t => (t.subrem, t.source, t.phase)) =
    some (2, [0xDE], .drain) := by decide
/-- R128's example. -/
theorem test_term_drain : view (step (draining [0x00, 0x3B])) (fun t => (t.termseen, t.phase, t.source)) =
    some (true, .done, [0x3B]) := by decide
/-- V2 line (i): the terminator where a code still needs bits. -/
theorem test_term_run :
    view (step { runAt 8 with bitbuf := 3, bitcnt := 2, source := [0x00], sourceEnded := true })
      (fun t => (t.cause, t.termseen, t.bitbuf, t.bitcnt, t.bytecnt)) =
        some (.dataExhausted, true, 3, 2, 1) := by decide
/-- R211's example. -/
theorem test_start : view (step { idle with fw := 2, fh := 2, turns := [.host (.csrWrite 0 1)] })
    (fun t => (t.phase, t.outoff, t.nent, t.bytecnt)) = some (.hdr, 0, 0, 0) := by decide
/-- R212's example: CW 10, FX 8, FW 3. -/
theorem test_start_bad_geometry : view (exec .start { idle with cw := 10, fx := 8, fw := 3 })
    (fun t => (t.phase, t.cause, t.errinfo)) = some (.fault, .badGeometry, 0) := by decide
/-- V63: ABORT of a run keeps the pixels and the configuration; STATUS reads 0. -/
theorem test_abort : view (step { grown with fb := [(0, 1)], turns := [.host (.csrWrite 0 2)] })
    (fun t => (t.fb, statusWord t, t.outoff, t.cw)) = some ([(0, 1)], 0, 0, 4) := by decide
/-- R216: the byte a waiting code step has taken is gone after ABORT; R120: BYTECNT counts it once the step is done. -/
theorem test_waiting_step :
    view (step { runAt 2 with source := [0x01] }) (fun t => (t.source, t.partway, t.bytecnt)) = some ([], [0x01], 0) ∧
    view (exec .abort { runAt 2 with partway := [0x01] }) (fun t => (t.source, t.partway)) = some ([], []) ∧
    view (step { runAt 2 with partway := [0x01], source := [0x05, 0x00] }) (fun t => (t.phase, t.source, t.bytecnt)) =
      some (.drain, [0x00], 2) := by decide
/-- R192's example, and `Row(1, 3)` of its corner cases. -/
theorem test_row : view (exec (.row 3 8) idle) State.returned = some (some 6) := by decide
theorem test_row_no_second_pass : view (exec (.row 1 3) idle) State.returned = some (some 2) := by decide

/-- V2 line (c): a code whose bits lie on both sides of a length byte. -/
theorem test_code_across_sub_blocks :
    (match getCode { runAt 8 with
        kw := 12, bitbuf := 5, bitcnt := 3, subrem := 1, source := [0xFF, 0x02, 0x0F, 0xAA] } with
      | .got c t => some (c, t.bitbuf, t.bitcnt, t.subrem, t.source)
      | .raised _ | .terminated _ | .waiting => none) = some (4093, 7, 7, 1, [0xAA]) := by decide
/-- R195's example. -/
theorem test_pixel_address : pixelAddr { idle with
    cw := 6, ch := 6, fx := 1, fy := 1, fw := 3, fh := 5, interlace := true } 4 = some 32 := by decide
/-- V3's last STATUS word. -/
theorem test_status : statusWord { grown with
    phase := .done, nent := 7, kw := 3, termseen := true } = 0x00023604 := by decide

/-! ### Table words (log 8) -/

theorem test_table_word_stopN8 : decodeTableWord 16 0x101 = some .stopN8 ∧
    view (step (State.reset.withFetchWord 16 0x101)) State.phase = some .drain := by decide
theorem test_table_word_illegal : decodeTableWord 16 0x102 = some (.illegal 0x102) ∧
    view (step (State.reset.withFetchWord 16 0x102)) State.cause = some .invalidCode := by decide
theorem test_table_word_start : decodeTableWord 8 1 = some .start ∧
    view (step (State.reset.withFetchWord 8 1)) State.phase = some .hdr := by decide
theorem test_table_word_term : decodeTableWord 8 0 = some .term ∧
    view (step (State.reset.withFetchWord 8 0)) State.phase = some .done := by decide

/-! ### States of the invariant -/

/-- A table of roots only, with or without a previous code. -/
theorem built_roots {s : State} {n : Nat} (h2 : 2 ≤ n) (h8 : n ≤ 8) (hn : s.n.toNat = n) (hk : s.kw.toNat = n + 1)
    (hc : s.nent.toNat = initialCount n) (hf : s.frozen = false) (ht : s.table = writeRoots n [])
    (hp : s.prevv = true → s.prev.toNat < clearCode n) : Built s := by
  have h256 := clearCode_le n h8
  have h4 := four_le_clearCode n h2
  have hpow : 2 ^ (n + 1) = 2 * clearCode n := by rw [Nat.pow_succ, Nat.mul_comm]
  have roots : ∀ k, k < clearCode n → getKey k s.table = some (rootEntry k) := fun k h => by
    rw [ht]; exact (getKey_writeRoots k n []).trans (if_pos h)
  have none : ∀ k, clearCode n ≤ k → getKey k s.table = none := fun k h => by
    rw [ht]; exact (getKey_writeRoots k n []).trans (if_neg (Nat.not_lt.2 h))
  refine ⟨by omega, by omega, ?_, ?_, by simp [hf], fun _ => ?_, ?_, ?_, ?_, fun hv => ?_, fun _ => by rw [hn, hc]⟩
  · rw [hn, hc, initialCount_eq]; omega
  · rw [hf, hc, initialCount_eq]; constructor
    · intro h; cases h
    · omega
  · rw [hk, hc, initialCount_eq, hpow, show n + 1 - 1 = n from rfl]; unfold clearCode at *; omega
  · rw [hn]; exact roots
  · rw [hn, hc]; intro k h1 h2; omega
  · rw [hn]; exact ⟨none _ (Nat.le_refl _), none _ (by rw [stopCode_eq]; omega)⟩
  · have := hp hv
    refine ⟨rootEntry s.prev.toNat, ?_⟩
    rw [tableRead_of_defined ((definedEntry_iff s _).2 (Or.inl (by rw [hn]; exact this)))]
    exact roots _ this

theorem built_runAt {n : Nat} (h2 : 2 ≤ n) (h8 : n ≤ 8) : Built (runAt n) := by
  obtain rfl | rfl | rfl | rfl | rfl | rfl | rfl : n = 2 ∨ n = 3 ∨ n = 4 ∨ n = 5 ∨ n = 6 ∨ n = 7 ∨ n = 8 := by omega
  all_goals exact built_roots (by decide) (by decide) rfl rfl rfl rfl rfl (fun h => nomatch h)

theorem built_grown : Built grown := by
  refine ⟨by decide, by decide, by decide, by decide, by decide, by decide, ?_, ?_, by decide, fun _ => ⟨_, rfl⟩, by decide⟩
  · exact show ∀ k, k < 4 → getKey k grown.table = some (rootEntry k) by decide
  · intro k h1 h2
    have h1 : 6 ≤ k := h1
    have h2 : k < 11 := h2
    obtain rfl | rfl | rfl | rfl | rfl : k = 6 ∨ k = 7 ∨ k = 8 ∨ k = 9 ∨ k = 10 := by omega
    all_goals exact ⟨_, _, rfl, rfl, by decide, by decide, by decide, by decide⟩

theorem table_runAt {n : Nat} (h8 : n ≤ 8) : Table.wf (runAt n).table :=
  Table.wf_writeRoots ⟨List.Pairwise.nil, by simp⟩ h8

/-- A busy state after the header step: what is left to check of the invariant is plain data. -/
theorem inv_busy {s : State} (hB : Built s) (hp : s.phase = .run ∨ s.phase = .drain) (hm : Memory.wf s.fb)
    (ht : Table.wf s.table) (hk : 258 ≤ s.tableMem ∧ s.tableMem ≤ 4096) (hc : s.cause = .none) (hi : s.errinfo = 0)
    (hg : geometryFits s = true) (ho : s.outoff.toNat ≤ s.fw.toNat * s.fh.toNat)
    (hb : s.bitbuf.toNat < 2 ^ s.bitcnt.toNat) (h7 : s.bitcnt.toNat ≤ 7) (hq : s.partway = []) (hn : s.termseen = false) :
    Inv s := by
  have hf : s.phase ≠ .fault := by rcases hp with h | h <;> rw [h] <;> decide
  refine ⟨hm, ht, hk, ?_, fun _ => hi, ?_, fun _ => hB, fun h => absurd h hf, fun _ => hg, fun _ => ho, hb,
    ⟨by omega, fun _ => h7⟩, fun _ => hq, ?_, fun _ => hn⟩
  · simp [hc, hf]
  · intro h; rcases hp with h' | h' <;> rw [h'] at h <;> simp at h
  · intro h; rcases hp with h' | h' <;> rw [h'] at h <;> simp at h

/-- The same with the registers a fresh run has. -/
theorem inv_fresh {s : State} (hB : Built s) (hp : s.phase = .run ∨ s.phase = .drain) (hm : s.fb = [])
    (ht : Table.wf s.table) (hk : s.tableMem = 4096) (hc : s.cause = .none) (hi : s.errinfo = 0)
    (hg : geometryFits s = true) (hw : s.fw = 4 ∧ s.fh = 4) (ho : s.outoff.toNat ≤ 16)
    (hb : s.bitbuf = 0 ∧ s.bitcnt = 0) (hq : s.partway = []) (hn : s.termseen = false) : Inv s := by
  refine inv_busy hB hp (by rw [hm]; exact List.Pairwise.nil) ht (by omega) hc hi hg ?_ ?_ ?_ hq hn
  · rw [hw.1, hw.2]; exact ho
  · rw [hb.1, hb.2]; decide
  · rw [hb.2]; decide

theorem inv_runAt {n : Nat} (h2 : 2 ≤ n) (h8 : n ≤ 8) : Inv (runAt n) :=
  inv_fresh (built_runAt h2 h8) (.inl rfl) rfl (table_runAt h8) rfl rfl rfl rfl ⟨rfl, rfl⟩ (Nat.zero_le _) ⟨rfl, rfl⟩ rfl rfl

theorem inv_runAfter {n : Nat} (h2 : 2 ≤ n) (h8 : n ≤ 8) (p : Code) (hp : p.toNat < clearCode n) :
    Inv (runAfter n p) := by
  refine inv_fresh ?_ (.inl rfl) rfl (table_runAt h8) rfl rfl rfl rfl ⟨rfl, rfl⟩ (Nat.zero_le _) ⟨rfl, rfl⟩ rfl rfl
  obtain rfl | rfl | rfl | rfl | rfl | rfl | rfl : n = 2 ∨ n = 3 ∨ n = 4 ∨ n = 5 ∨ n = 6 ∨ n = 7 ∨ n = 8 := by omega
  · exact built_roots (Nat.le_refl 2) (by decide) rfl rfl rfl rfl rfl (fun _ => hp)
  · exact built_roots (n := 3) (by decide) (by decide) rfl rfl rfl rfl rfl (fun _ => hp)
  · exact built_roots (n := 4) (by decide) (by decide) rfl rfl rfl rfl rfl (fun _ => hp)
  · exact built_roots (n := 5) (by decide) (by decide) rfl rfl rfl rfl rfl (fun _ => hp)
  · exact built_roots (n := 6) (by decide) (by decide) rfl rfl rfl rfl rfl (fun _ => hp)
  · exact built_roots (n := 7) (by decide) (by decide) rfl rfl rfl rfl rfl (fun _ => hp)
  · exact built_roots (n := 8) (by decide) (by decide) rfl rfl rfl rfl rfl (fun _ => hp)

theorem table_grown : Table.wf grown.table := by decide

/-- `grown` at another output offset. -/
theorem inv_grown (off : BitVec 32) (ho : off.toNat ≤ 16) : Inv { grown with outoff := off } :=
  inv_fresh (built_grown.congr rfl rfl rfl rfl rfl rfl rfl) (.inl rfl) rfl table_grown rfl rfl rfl rfl ⟨rfl, rfl⟩ ho
    ⟨rfl, rfl⟩ rfl rfl

/-- `runAt 2` with a cursor and a source. -/
def reading (source : List Byte) (ended : Bool) (r : BitVec 8) : State :=
  { runAt 2 with source := source, sourceEnded := ended, subrem := r }

theorem inv_reading (source : List Byte) (ended : Bool) (r : BitVec 8) : Inv (reading source ended r) :=
  inv_fresh ((built_runAt (n := 2) (by decide) (by decide)).congr rfl rfl rfl rfl rfl rfl rfl) (.inl rfl) rfl
    (table_runAt (n := 2) (by decide)) rfl rfl rfl rfl ⟨rfl, rfl⟩ (Nat.zero_le _) ⟨rfl, rfl⟩ rfl rfl

theorem inv_header (source : List Byte) : Inv (header source) where
  frameBuffer := List.Pairwise.nil
  store := ⟨List.Pairwise.nil, fun _ h => nomatch h⟩
  parameter := show 258 ≤ 4096 ∧ 4096 ≤ 4096 by decide
  causeInFault := ⟨fun _ h => (nomatch h), fun _ => rfl⟩
  infoWithCause := fun _ => rfl
  beforeHeader := fun _ => ⟨⟨⟨rfl, rfl, rfl⟩, ⟨rfl, rfl⟩, rfl, rfl⟩, ⟨⟨rfl, rfl, rfl⟩, rfl, rfl⟩⟩
  afterHeader := fun h => by rcases h with h | h | h <;> cases h
  inFault := fun h => nomatch h
  geometry := fun _ => rfl
  offset := fun _ => show 0 ≤ 4 * 4 by decide
  bitsHeld := show 0 < 2 ^ 0 by decide
  bitCount := ⟨show 0 ≤ 11 by decide, fun _ => show 0 ≤ 7 by decide⟩
  notPartway := fun _ => rfl
  terminator := ⟨fun h => (nomatch h), fun _ => rfl⟩

/-- The invariant does not depend on the bytes to come. -/
theorem inv_onSource {s : State} (h : Inv s) (hp : s.phase = .run) (hq : s.partway = []) (source : List Byte) :
    Inv { s with source := source } :=
  inv_busy ((h.afterHeader (.inl hp)).congr rfl rfl rfl rfl rfl rfl rfl) (.inl hp) h.frameBuffer h.store h.parameter
    (h.causeInFault.2 (by rw [hp]; decide)) (h.infoWithCause (h.causeInFault.2 (by rw [hp]; decide)))
    (h.geometry (by rw [hp]; rfl)) (h.offset (by rw [hp]; rfl)) h.bitsHeld (h.bitCount.2 (by rw [hp]; decide)) hq
    (h.terminator.2 (by rw [hp]; rfl))

/-! ### Witnesses: for each statement a state and operands that meet its hypotheses, each clause at a boundary -/

theorem witness_DecodeInvertsEncode :
    standsAt (.code (freshCtx 2) 3) (.litN2 3) = true ∧ standsAt (.code ctx11 4) (.ref 10) = true ∧
    standsAt (.code ctx11 4) (.kwk 11) = true ∧ standsAt (.code ctx11 4) (.illegal 15) = true ∧
    standsAt .codeSize (.codesize 255) = true ∧ standsAt .length (.sublen 1) = true ∧ standsAt .length .term = true ∧
    standsAt .ctrl .start = true ∧ standsAt .ctrl .abort = true ∧ Instr.wellFormed (.ref 4095) = true ∧
    Instr.wellFormed (.row 2 3) = true := by decide

/-- The six lines of the table at their boundaries, for N = 2 and NENT = 11. -/
theorem witness_EveryCodeFallsInOneClass :
    (2 ≤ ctx11.n ∧ ctx11.n ≤ 8) ∧ (4#12).toNat = 2 ^ ctx11.n ∧ (5#12).toNat = 2 ^ ctx11.n + 1 ∧
    (3#12).toNat < 2 ^ ctx11.n ∧ (2 ^ ctx11.n + 1 < (6#12).toNat ∧ (10#12).toNat < ctx11.nent) ∧
    ((11#12).toNat = ctx11.nent ∧ ctx11.frozen = false ∧ ctx11.prevv = true) ∧ ctx11.nent < (12#12).toNat ∧
    ((6#12).toNat = (freshCtx 2).nent ∧ (freshCtx 2).prevv = false) := by decide

theorem witness_CuttingIntoSubBlocksKeepsThePayload : (1 ≤ 1 ∧ 1 ≤ 255) ∧ 1 ≤ 255 ∧ 255 ≤ 255 := by decide

theorem witness_PackerLaysCodesOutLowBitFirst : ∃ p, packCodes 2 [4, 1, 6, 5] (packStart 2) = some p := ⟨_, rfl⟩

theorem witness_SrcNextTakesOneByte :
    (reading [0xA5] true 0).source = 0xA5 :: [] ∧
    ((reading [] true 0).source = [] ∧ (reading [] true 0).sourceEnded = true) ∧
    ((reading [] false 0).source = [] ∧ (reading [] false 0).sourceEnded = false) := by decide

/-- The lines of V1, and a code of phase RUN that meets the terminator. -/
theorem witness_NextDataByteCrossesSubBlocks :
    ((reading [0xA5] true 1).subrem ≠ 0 ∧ (reading [0xA5] true 1).source = 0xA5 :: []) ∧
    ((reading [0x01, 0xA5] true 0).subrem = 0 ∧ (0x01 : Byte) ≠ 0) ∧
    ((reading [0x00] true 0).subrem = 0 ∧ (reading [0x00] true 0).source = 0 :: [] ∧
      (reading [0x00] true 0).phase = .run) ∧
    ((reading [] true 4).source = [] ∧ (reading [] true 4).sourceEnded = true) ∧
    ((reading [0x03] true 0).source = [0x03] ∧ (reading [0x03] true 0).sourceEnded = true) := by decide

/-- Three bits are wanted: one payload byte is there, and after V2 line (d) none is needed. -/
theorem witness_GetCodeReturnsTheNextBits :
    ((reading [0x01, 0xFF] true 0).kw.toNat ≤ 12 ∧ (reading [0x01, 0xFF] true 0).bitcnt.toNat ≤ 7 ∧
      (reading [0x01, 0xFF] true 0).bitbuf.toNat < 2 ^ (reading [0x01, 0xFF] true 0).bitcnt.toNat ∧
      (reading [0x01, 0xFF] true 0).kw.toNat ≤ unreadCount (reading [0x01, 0xFF] true 0)) ∧
    3 ≤ unreadCount { runAt 2 with bitbuf := 0x55, bitcnt := 7 } := by decide

theorem witness_GetCodeWithoutTheBits :
    (unreadCount (reading [] true 0) < (reading [] true 0).kw.toNat ∧
      (reading [] true 0).bitbuf.toNat < 2 ^ (reading [] true 0).bitcnt.toNat) ∧
    unreadCount (reading [0x00] true 0) < (reading [0x00] true 0).kw.toNat ∧
    unreadCount (reading [] false 0) < (reading [] false 0).kw.toNat := by decide

theorem witness_GetCodeReadsNothingAhead : ∃ c t, getCode (reading [0x01, 0xFF, 0x00] true 0) = .got c t :=
  ⟨_, _, rfl⟩

/-- The code 4 (CLR) is written as the payload `8C 0B`, once in one sub-block and once in two. -/
theorem witness_SplitOfThePayloadHasNoEffect : ∃ s',
    Inv (reading [0x02, 0x8C, 0x0B, 0x00] true 0) ∧ Inv (reading [0x01, 0x8C, 0x01, 0x0B, 0x00] true 0) ∧
    (reading [0x02, 0x8C, 0x0B, 0x00] true 0).phase = .run ∧
    sameButCut (reading [0x02, 0x8C, 0x0B, 0x00] true 0) (reading [0x01, 0x8C, 0x01, 0x0B, 0x00] true 0) ∧
    samePayload (reading [0x02, 0x8C, 0x0B, 0x00] true 0) (reading [0x01, 0x8C, 0x01, 0x0B, 0x00] true 0) ∧
    engineStep (reading [0x02, 0x8C, 0x0B, 0x00] true 0) = .next s' :=
  ⟨_, inv_reading _ _ _, inv_reading _ _ _, rfl, rfl, ⟨rfl, rfl⟩, rfl⟩

/-- Every way the engine's step begins, and a command. -/
theorem witness_StepRunsTheDecodedItem :
    (∃ c s1 i, getCode (resume (afterTurn (reading [0x01, 0x05] true 0))) = .got c s1 ∧ decodeCode (codeCtx s1) c = some i) ∧
    (∃ s1, getCode (resume (afterTurn (reading [0x00] true 0))) = .terminated s1) ∧
    (∃ s1, getCode (resume (afterTurn (reading [] true 0))) = .raised s1) ∧
    (getCode (resume (afterTurn (reading [0x01] false 0))) = .waiting ∧ engineMoves (reading [0x01] false 0) = true) ∧
    (∃ b s1, (header [0x08]).phase = .hdr ∧ srcNext (afterTurn (header [0x08])) = .got b s1) ∧
    (∃ b s1, (draining [0x00]).phase = .drain ∧ (draining [0x00]).subrem = 0 ∧
      srcNext (afterTurn (draining [0x00])) = .got b s1) ∧
    (∃ s1, srcNext (afterTurn (draining [])) = .raised s1) ∧
    (engineMoves idle = true ∧ idle.phase = .idle) ∧ decodeCtrl 1 = some .start :=
  ⟨⟨_, _, _, rfl, rfl⟩, ⟨_, rfl⟩, ⟨_, rfl⟩, ⟨rfl, rfl⟩, ⟨_, _, rfl, rfl⟩, ⟨_, _, rfl, rfl, rfl⟩, ⟨_, rfl⟩, ⟨rfl, rfl⟩, rfl⟩

/-- The length byte has come, the payload byte has not; a reset is the next move of the host. -/
theorem witness_WaitingStepKeepsItsBytes :
    (reading [0x01] false 0).phase = .run ∧ getCode (resume (reading [0x01] false 0)) = .waiting ∧
    { reading [0x01] false 0 with turns := [.host .reset] }.turns = .host .reset :: [] := ⟨rfl, rfl, rfl⟩

theorem witness_ClearCodeRestoresTheInitialTable : ∀ n, n ∈ [2, 3, 4, 5, 6, 7, 8] →
    (runAt n).phase = .run ∧ (runAt n).n.toNat = n := by decide

theorem witness_StopCodeEntersTheDrain : ∀ n, n ∈ [2, 3, 4, 5, 6, 7, 8] →
    (runAt n).phase = .run ∧ (runAt n).n.toNat = n := by decide

/-- For every code size, with and without an entry to append. -/
theorem witness_LiteralCodeEmitsItsIndex (n : Nat) (h2 : 2 ≤ n) (h8 : n ≤ 8) :
    (Inv (runAt n) ∧ (runAt n).phase = .run ∧ roomFor (runAt n) 1 ∧ storeHasRoom (runAt n)) ∧
    (Inv (runAfter n 0) ∧ roomFor (runAfter n 0) 1 ∧ storeHasRoom (runAfter n 0) ∧ (runAfter n 0).frozen = false ∧
      (runAfter n 0).prevv = true) ∧ (runAt n).n.toNat = n := by
  refine ⟨⟨inv_runAt h2 h8, rfl, show 0 + 1 ≤ 4 * 4 by decide, fun _ h => nomatch h⟩,
    ⟨inv_runAfter h2 h8 0 (by have := four_le_clearCode n h2; simp), show 0 + 1 ≤ 4 * 4 by decide,
      fun _ _ => ?_, rfl, rfl⟩, ?_⟩
  all_goals
    obtain rfl | rfl | rfl | rfl | rfl | rfl | rfl : n = 2 ∨ n = 3 ∨ n = 4 ∨ n = 5 ∨ n = 6 ∨ n = 7 ∨ n = 8 := by omega
  all_goals decide

theorem witness_ReferenceCodeEmitsItsString :
    Inv { grown with outoff := 10 } ∧ grown.phase = .run ∧ 2 ^ grown.n.toNat + 2 ≤ (7#12).toNat ∧
    (7#12).toNat < grown.nent.toNat ∧ stringOf grown 7 = some (1 :: [1, 1]) ∧ roomFor grown 3 ∧ storeHasRoom grown :=
  ⟨inv_grown 10 (by decide), rfl, by decide, by decide, by decide, show 10 + 3 ≤ 4 * 4 by decide,
    fun _ _ => show 11 < 4096 by decide⟩

/-- The string of length 3 fits exactly at offset 13. -/
theorem witness_KwkCodeEmitsThePreviousStringAndItsFirst :
    Inv { grown with outoff := 13 } ∧ grown.phase = .run ∧ (11#12).toNat = grown.nent.toNat ∧ grown.frozen = false ∧
    grown.prevv = true ∧ stringOf grown grown.prev = some (2 :: [2]) ∧ roomFor { grown with outoff := 13 } 3 ∧
    grown.nent.toNat < grown.tableMem :=
  ⟨inv_grown 13 (by decide), rfl, by decide, rfl, rfl, by decide, show 13 + 3 ≤ 4 * 4 by decide, by decide⟩

theorem witness_DefinedEntriesHaveTheirStrings :
    Inv { grown with outoff := 10 } ∧ grown.phase = .run ∧ definedEntry grown 3 = true ∧ definedEntry grown 6 = true ∧
    definedEntry grown 10 = true :=
  ⟨inv_grown 10 (by decide), rfl, by decide, by decide, by decide⟩

/-- One pixel too many for a LIT, a REF and a KWK. -/
theorem witness_StringPastTheRectangleFaults :
    (Inv { grown with outoff := 16 } ∧ DataCodeAt { grown with outoff := 16 } (.litN2 3) 3 [3] 3 ∧
      grown.fw.toNat * grown.fh.toNat < (16#32).toNat + 1) ∧
    (Inv { grown with outoff := 14 } ∧ DataCodeAt { grown with outoff := 14 } (.ref 7) 7 [1, 1, 1] 1 ∧
      grown.fw.toNat * grown.fh.toNat < (14#32).toNat + 3) ∧
    (DataCodeAt { grown with outoff := 14 } (.kwk 11) 11 [2, 2, 2] 2) :=
  ⟨⟨inv_grown 16 (by decide), .litN2 3 rfl, by decide⟩,
    ⟨inv_grown 14 (by decide), .ref 7 1 [1, 1] (by decide) (by decide) (by decide), by decide⟩,
    .kwk 11 2 [2] (by decide) rfl rfl (by decide)⟩

/-- V27: a store of 258 entries after the header step of code size 8 and the code 0. -/
def smallStore : State := { runAfter 8 0 with tableMem := 258 }

theorem inv_smallStore : Inv smallStore := by
  have h := inv_runAfter (n := 8) (by decide) (by decide) 0 (by decide)
  exact inv_busy ((h.afterHeader (.inl rfl)).congr rfl rfl rfl rfl rfl rfl rfl) (.inl rfl) h.frameBuffer h.store
    (by decide) rfl rfl rfl (by decide) (by decide) (by decide) rfl rfl

theorem witness_FullStoreFaults :
    Inv smallStore ∧ smallStore.phase = .run ∧ DataCodeAt smallStore (.litN8 1) 1 [1] 1 ∧
    DataCodeAt smallStore (.kwk 258) 258 [0, 0] 0 ∧ roomFor smallStore 2 ∧ smallStore.frozen = false ∧
    smallStore.prevv = true ∧ smallStore.tableMem ≤ smallStore.nent.toNat :=
  ⟨inv_smallStore, rfl, .litN8 1 rfl, .kwk 258 0 [] rfl rfl rfl rfl, show 0 + 2 ≤ 4 * 4 by decide, rfl, rfl, by decide⟩

/-- A code above NENT, the code NENT with no previous code, and the code NENT of a frozen table (which no run has). -/
theorem witness_IllegalCodeFaults :
    ((runAfter 2 1).phase = .run ∧ 2 ≤ (runAfter 2 1).n.toNat ∧ (runAfter 2 1).n.toNat ≤ 8 ∧
      2 ^ (runAfter 2 1).n.toNat + 2 ≤ (7#12).toNat ∧ (runAfter 2 1).nent.toNat < (7#12).toNat) ∧
    ((6#12).toNat = (runAt 2).nent.toNat ∧ (runAt 2).prevv = false) ∧
    ((6#12).toNat = { runAfter 2 1 with frozen := true }.nent.toNat) := by decide

theorem witness_FrozenTableStaysUntilClear :
    { runAfter 2 1 with frozen := true }.phase = .run ∧ encode (.litN2 3) = .code 3 ∧
    (∀ k, clrOf k ≠ some (.litN2 3)) ∧ (∃ t, exec (.litN2 3) { runAfter 2 1 with frozen := true } = .next t) := by
  refine ⟨rfl, rfl, fun k => ?_, ⟨_, rfl⟩⟩
  unfold clrOf
  split <;> simp

theorem witness_CodeSizeByteBuildsTheInitialTable : (header []).phase = .hdr ∧ 2 ≤ (2#8).toNat ∧ (8#8).toNat ≤ 8 := by
  decide
theorem witness_OtherCodeSizeByteFaults : (header []).phase = .hdr ∧ (1#8).toNat < 2 ∧ 8 < (9#8).toNat := by decide
theorem witness_LengthByteLoadsSubrem :
    (runAt 2).phase = .run ∧ (runAt 2).subrem = 0 ∧ (draining []).phase = .drain ∧ (draining []).subrem = 0 ∧
    (1#8 ≠ 0) := by decide
theorem witness_TerminatorEndsTheRun :
    (runAt 2).phase = .run ∧ (runAt 2).subrem = 0 ∧ (draining []).phase = .drain ∧ (draining []).subrem = 0 := by decide
theorem witness_DrainStepDiscardsOneByte :
    (draining [0x02]).phase = .drain ∧ (draining [0x02]).source = 0x02 :: [] ∧ (draining [0x02]).subrem = 0 ∧
    { draining [0xFF] with subrem := 1 }.subrem ≠ 0 ∧ (draining [0x00]).source = 0 :: [] ∧
    ((draining []).source = [] ∧ (draining []).sourceEnded = true) := by decide

/-- The rectangle ends exactly at the canvas, from each of the three phases. -/
theorem witness_StartBeginsARun :
    idle.phase = .idle ∧ idle.fx.toNat + idle.fw.toNat ≤ idle.cw.toNat ∧ idle.fy.toNat + idle.fh.toNat ≤ idle.ch.toNat ∧
    { idle with phase := .done }.phase = .done ∧ { idle with phase := .fault, cause := .badGeometry }.phase = .fault := by
  decide
theorem witness_StartChecksTheGeometry :
    idle.phase = .idle ∧ { idle with fx := 1 }.cw.toNat < { idle with fx := 1 }.fx.toNat + { idle with fx := 1 }.fw.toNat ∧
    { idle with fy := 1 }.ch.toNat < { idle with fy := 1 }.fy.toNat + { idle with fy := 1 }.fh.toNat := by decide
theorem witness_StartWhileBusyIsIgnored :
    (header []).phase = .hdr ∧ (runAt 2).phase = .run ∧ (draining []).phase = .drain := by decide
theorem witness_CtrlWordsAreCommands :
    ((3#32).getLsbD 1 = true) ∧ ((1#32).getLsbD 1 = false ∧ (1#32).getLsbD 0 = true ∧ idle.phase.busy = false) ∧
    (runAt 2).phase.busy = true ∧ ((4#32).getLsbD 1 = false ∧ (4#32).getLsbD 0 = false) ∧
    { idle with turns := [.host (.csrWrite 0 3)] }.turns = .host (.csrWrite 0 3) :: [] := by decide
theorem witness_CsrReadsShowTheRegisters :
    0x24 < (0x28#32).toNat ∧ (0x05#32).toNat % 4 ≠ 0 ∧
    { idle with turns := [.host (.csrRead 8)] }.turns = .host (.csrRead 8) :: [] := by decide
theorem witness_ConfigurationWritesWhenIdle :
    { idle with turns := [.host (.csrWrite 8 0x00040004)] }.turns = .host (.csrWrite 8 0x00040004) :: [] ∧
    (8#32 ≠ 0) ∧ idle.phase.busy = false ∧ (runAt 2).phase.busy = true ∧
    (0x28#32 ≠ 0 ∧ 0x28#32 ≠ 8 ∧ 0x28#32 ≠ 0x0C ∧ 0x28#32 ≠ 0x10 ∧ 0x28#32 ≠ 0x14) := by decide
theorem witness_HostReachesTheFrameBufferWhenIdle :
    { idle with turns := [.host (.fbWrite 15 7)] }.turns = .host (.fbWrite 15 7) :: [] ∧
    { idle with turns := [.host (.fbRead 15)] }.turns = .host (.fbRead 15) :: [] ∧ idle.phase.busy = false ∧
    (runAt 2).phase.busy = true ∧ Memory.read [(15, 7)] (15#32).toNat = some 7 := by decide
theorem witness_SourceIsMovedByHostAndSource :
    { idle with turns := [.host (.positionSource [2] true)] }.turns = .host (.positionSource [2] true) :: [] ∧
    idle.phase.busy = false ∧ (runAt 2).phase.busy = true ∧
    ({ idle with turns := [.deliver 2] }.turns = .deliver 2 :: [] ∧ idle.sourceEnded = false) ∧
    (header []).sourceEnded = true ∧ { idle with turns := [.endOfStream] }.turns = .endOfStream :: [] := by decide
theorem witness_HardwareResetClearsTheEngine :
    { grown with turns := [.host .reset] }.turns = .host .reset :: [] := by decide

/-- Each pass at its boundaries for `h = 8`: rows 0, 1, 2 to 3, 4 to 7. -/
theorem witness_RowFollowsTheFourPasses :
    (0 < (8 + 7) / 8) ∧ ((8 + 7) / 8 ≤ 1 ∧ 1 < (8 + 7) / 8 + (8 + 3) / 8) ∧
    ((8 + 7) / 8 + (8 + 3) / 8 ≤ 2 ∧ 3 < (8 + 7) / 8 + (8 + 3) / 8 + (8 + 1) / 4) ∧
    ((8 + 7) / 8 + (8 + 3) / 8 + (8 + 1) / 4 ≤ 4 ∧ (7#16).toNat < (8#16).toNat) := by decide
theorem witness_RowOutsideItsDomainIsRefused : (3#16).toNat ≤ (3#16).toNat ∧ (0#16).toNat ≤ (0#16).toNat := by decide
theorem witness_RowIsABijection :
    1 ≤ 1 ∧ rowOf 3 8 = some 6 ∧ (8 % 8 = 0 ∧ 12 % 8 = 4 ∧ 6 % 4 = 2 ∧ 7 % 2 = 1) := by decide

/-- V52's configuration: a 3 by 5 rectangle at (1, 1) of a 6 by 6 canvas. -/
def placed : State := { idle with cw := 6, ch := 6, fx := 1, fy := 1, fw := 3, fh := 5, interlace := true }

theorem witness_PixelAddressIsRowMajor :
    0 < placed.fw.toNat * placed.fh.toNat ∧ 14 < placed.fw.toNat * placed.fh.toNat ∧ placed.interlace = true ∧
    idle.interlace = false ∧ 15 < idle.fw.toNat * idle.fh.toNat := by decide
theorem witness_PixelAddressStaysInside :
    geometryFits placed = true ∧ 14 < placed.fw.toNat * placed.fh.toNat := by decide
theorem witness_PixelAddressIsInjective :
    geometryFits placed = true ∧ pixelAddr placed 4 = some 32 ∧ pixelAddr placed 4 = some 32 := by decide
theorem witness_FrameBufferWriteSetsOneCell : Memory.wf [(0, 1), (4, 1)] := by decide

/-- A code step from `s` faults with `c`. -/
def faultsFrom (s : State) (c : Cause) : Prop :=
  Inv s ∧ s.phase = .run ∧ ∃ t, engineStep s = .next t ∧ t.phase = .fault ∧ t.cause = c

/-- Each cause of a code step: an illegal code, an overrun, a full store, a source that ends, a terminator. -/
theorem witness_CodeStepFaultsArePrecise :
    faultsFrom (reading [0x01, 0x06] true 0) .invalidCode ∧
    faultsFrom { grown with outoff := 16, source := [0x01, 0x03] } .outputOverrun ∧
    faultsFrom { smallStore with source := [0x02, 0x01, 0x00] } .outOfMemory ∧
    faultsFrom (reading [] true 0) .truncatedRead ∧ faultsFrom (reading [0x00] true 0) .dataExhausted :=
  ⟨⟨inv_reading _ _ _, rfl, _, rfl, rfl, rfl⟩,
    ⟨inv_onSource (inv_grown 16 (by decide)) rfl rfl _, rfl, _, rfl, rfl, rfl⟩,
    ⟨inv_onSource inv_smallStore rfl rfl _, rfl, _, rfl, rfl, rfl⟩,
    ⟨inv_reading _ _ _, rfl, _, rfl, rfl, rfl⟩, ⟨inv_reading _ _ _, rfl, _, rfl, rfl, rfl⟩⟩

/-- A fault, with the host writing a cell as the next move. -/
def faulted : State :=
  { idle with phase := .fault, cause := .badCodeSize, errinfo := 9, bytecnt := 1, turns := [.host (.fbWrite 0 7)] }

theorem witness_FaultStaysUntilCommandOrReset :
    faulted.phase = .fault ∧ (∃ t, step faulted = .next t) ∧
    (∀ u rest, faulted.turns = u :: rest → leavesFault u = false) ∧
    engineMoves { faulted with turns := [] } = true ∧ (∃ t, step { faulted with turns := [] } = .next t) := by
  refine ⟨rfl, ⟨_, rfl⟩, fun u rest h => ?_, rfl, ⟨_, rfl⟩⟩
  cases h; rfl

theorem witness_PhasesFollowTheirTransitions :
    (engineMoves (header [0x08]) = true ∧ ∃ t, step (header [0x08]) = .next t) ∧
    (engineMoves { idle with turns := [.host (.csrWrite 0 1)] } = false ∧
      ∃ t, step { idle with turns := [.host (.csrWrite 0 1)] } = .next t) :=
  ⟨⟨rfl, _, rfl⟩, rfl, _, rfl⟩

theorem witness_StepKeepsTheInvariant : ∃ t, Inv (reading [0x01, 0x05] true 0) ∧
    step (reading [0x01, 0x05] true 0) = .next t := ⟨_, inv_reading _ _ _, rfl⟩

theorem witness_StepNeverStops : Inv (reading [0x01, 0x05] true 0) ∧
    (∀ u rest, (reading [0x01, 0x05] true 0).turns = u :: rest → forbiddenWhileBusy u = true →
      (reading [0x01, 0x05] true 0).phase.busy = false) := ⟨inv_reading _ _ _, fun _ _ h => nomatch h⟩

/-- The stream of V3. -/
theorem witness_EveryRunEndsInTime : Inv (header [0x02, 0x02, 0x8C, 0x0B, 0x00]) ∧
    (header [0x02, 0x02, 0x8C, 0x0B, 0x00]).phase = .hdr ∧ (header [0x02, 0x02, 0x8C, 0x0B, 0x00]).turns = [] ∧
    (header [0x02, 0x02, 0x8C, 0x0B, 0x00]).sourceEnded = true := ⟨inv_header _, rfl, rfl, rfl⟩

theorem witness_RunKeepsItsConfiguration :
    (engineMoves (reading [0x01, 0x05] true 0) = true ∧ ∃ t, step (reading [0x01, 0x05] true 0) = .next t) ∧
    ((runAt 2).phase.busy = true ∧
      (∃ t, step { runAt 2 with turns := [.host (.csrWrite 8 0)] } = .next t) ∧
      ∀ rest, ({ runAt 2 with turns := [.host (.csrWrite 8 0)] } : State).turns ≠ .host .reset :: rest) :=
  ⟨⟨rfl, _, rfl⟩, rfl, ⟨_, rfl⟩, fun _ h => nomatch h⟩

/-- The code 1 adds one pixel. -/
theorem witness_EngineWritesOnlyTheNewPixels : ∃ t, Inv (reading [0x01, 0x01] true 0) ∧
    engineMoves (reading [0x01, 0x01] true 0) = true ∧ step (reading [0x01, 0x01] true 0) = .next t ∧
    t.outoff = 1 := ⟨_, inv_reading _ _ _, rfl, rfl, rfl⟩

end Sys2Proof.Tests
end

namespace Sys2Proof.Machine

/-! ### Pixel addresses (R192 to R197) -/

theorem rowOnDomain_lt {y h : Nat} (hy : y < h) : rowOnDomain y h < h := by
  rw [rowOnDomain_eq]
  split_ifs <;> omega

/-- Passes 1 to 4 land on the rows `0`, `4`, `2` or `6`, and odd modulo 8, so equal rows come from one pass (R193). -/
theorem rowOnDomain_injective {y z h : Nat} (hy : y < h) (hz : z < h) (heq : rowOnDomain y h = rowOnDomain z h) :
    y = z := by
  rw [rowOnDomain_eq, rowOnDomain_eq] at heq
  split_ifs at heq <;> omega

theorem geometryFits_iff (s : State) :
    geometryFits s = true ↔ s.fx.toNat + s.fw.toNat ≤ s.cw.toNat ∧ s.fy.toNat + s.fh.toNat ≤ s.ch.toNat := by
  simp [geometryFits]

/-- The row of the rectangle in which line `y` of the output stands (R194, R195). -/
def outputRow (s : State) (y : Nat) : Nat := if s.interlace then rowOnDomain y s.fh.toNat else y

theorem outputRow_lt {s : State} {y : Nat} (hy : y < s.fh.toNat) : outputRow s y < s.fh.toNat := by
  unfold outputRow
  split
  · exact rowOnDomain_lt hy
  · exact hy

theorem outputRow_injective {s : State} {y z : Nat} (hy : y < s.fh.toNat) (hz : z < s.fh.toNat)
    (heq : outputRow s y = outputRow s z) : y = z := by
  unfold outputRow at heq
  split at heq
  · exact rowOnDomain_injective hy hz heq
  · exact heq

/-- An offset of the rectangle as column and line, and its address row by row (R195). -/
theorem pixelAddr_some {s : State} {p a : Nat} (h : pixelAddr s p = some a) :
    p % s.fw.toNat < s.fw.toNat ∧ p / s.fw.toNat < s.fh.toNat ∧
      a = (s.fy.toNat + outputRow s (p / s.fw.toNat)) * s.cw.toNat + (s.fx.toNat + p % s.fw.toNat) := by
  have hp : p < s.fw.toNat * s.fh.toNat := by
    by_contra hge
    rw [pixelAddr, if_neg hge] at h
    cases h
  have hpos : 0 < s.fw.toNat := Nat.pos_of_mul_pos_right (Nat.zero_lt_of_lt hp)
  rw [pixelAddr_eq hp] at h
  exact ⟨Nat.mod_lt _ hpos, Nat.div_lt_of_lt_mul hp, (Option.some.inj h).symm⟩

/-- A row-major address determines its row and its column. -/
theorem rowMajor_injective {w r c r' c' : Nat} (hc : c < w) (hc' : c' < w) (h : r * w + c = r' * w + c') :
    r = r' ∧ c = c' := by
  have hcol : c = c' := by
    simpa [Nat.mul_add_mod', Nat.mod_eq_of_lt, hc, hc'] using congrArg (· % w) h
  subst hcol
  exact ⟨Nat.eq_of_mul_eq_mul_right (Nat.zero_lt_of_lt hc) (Nat.add_right_cancel h), rfl⟩

/-- A rectangle in the canvas has its addresses in the buffer, each once (R196, R197). -/
theorem addressesGood_of_geometryFits {s : State} (hfit : geometryFits s = true) : AddressesGood s := by
  obtain ⟨hx, hy⟩ := (geometryFits_iff s).1 hfit
  constructor
  · intro p hp
    have ha := pixelAddr_eq hp
    obtain ⟨hcol, hline, haddr⟩ := pixelAddr_some ha
    refine ⟨_, ha, ?_⟩
    have hrow := outputRow_lt hline
    rw [haddr, fbCells]
    calc (s.fy.toNat + outputRow s (p / s.fw.toNat)) * s.cw.toNat + (s.fx.toNat + p % s.fw.toNat)
        < (s.fy.toNat + outputRow s (p / s.fw.toNat) + 1) * s.cw.toNat := by rw [Nat.succ_mul]; omega
      _ ≤ s.ch.toNat * s.cw.toNat := Nat.mul_le_mul_right _ (by omega)
      _ = s.cw.toNat * s.ch.toNat := Nat.mul_comm _ _
  · intro p q a hp hq
    obtain ⟨hcolp, hlinep, hap⟩ := pixelAddr_some hp
    obtain ⟨hcolq, hlineq, haq⟩ := pixelAddr_some hq
    obtain ⟨hrow, hcol⟩ := rowMajor_injective (by omega) (by omega) (hap.symm.trans haq)
    have hline := outputRow_injective hlinep hlineq (Nat.add_left_cancel hrow)
    rw [← Nat.div_add_mod p s.fw.toNat, ← Nat.div_add_mod q s.fw.toNat, hline]
    omega
end Sys2Proof.Machine
/-! ### The configuration -/

namespace Sys2Proof.Machine

variable {s t : State}

/-- The configuration registers and the parameter TABLE_MEM_ENTRIES (R33 to R35, R7). -/
def configOf (s : State) : BitVec 16 × BitVec 16 × BitVec 16 × BitVec 16 × BitVec 16 × BitVec 16 × Bool × Nat :=
  (s.cw, s.ch, s.fx, s.fy, s.fw, s.fh, s.interlace, s.tableMem)

theorem configOf_eq_iff :
    configOf t = configOf s ↔ t.cw = s.cw ∧ t.ch = s.ch ∧ t.fx = s.fx ∧ t.fy = s.fy ∧ t.fw = s.fw ∧ t.fh = s.fh ∧
      t.interlace = s.interlace ∧ t.tableMem = s.tableMem := by
  simp [configOf]

theorem geometryFits_congr (h : configOf t = configOf s) : geometryFits t = geometryFits s := by
  obtain ⟨hcw, hch, hfx, hfy, hfw, hfh, -⟩ := configOf_eq_iff.1 h
  simp only [geometryFits, hcw, hch, hfx, hfy, hfw, hfh]

/-- The number of pixels of the frame rectangle depends on the configuration only. -/
theorem frameSize_congr (h : configOf t = configOf s) : t.fw.toNat * t.fh.toNat = s.fw.toNat * s.fh.toNat := by
  obtain ⟨-, -, -, -, hfw, hfh, -⟩ := configOf_eq_iff.1 h
  rw [hfw, hfh]

theorem sameBesidesCursor.config (h : sameBesidesCursor s t) : configOf t = configOf s := cursorField h configOf

/-! ### The table's registers -/

/-- What `Built` and `Unbuilt` speak of: the registers of the table, the store and OUTOFF (R21 to R24, R26, R36, R37,
R40). -/
def tableState (s : State) : BitVec 4 × BitVec 4 × BitVec 13 × Code × Bool × Bool × Table × BitVec 32 :=
  (s.n, s.kw, s.nent, s.prev, s.frozen, s.prevv, s.table, s.outoff)

theorem tableState_eq_iff :
    tableState t = tableState s ↔ t.n = s.n ∧ t.kw = s.kw ∧ t.nent = s.nent ∧ t.prev = s.prev ∧ t.frozen = s.frozen ∧
      t.prevv = s.prevv ∧ t.table = s.table ∧ t.outoff = s.outoff := by
  simp [tableState]

theorem Built.of_tableState (h : Built s) (same : tableState t = tableState s) : Built t := by
  obtain ⟨hn, hkw, hnent, hprev, hfrozen, hprevv, htable, -⟩ := tableState_eq_iff.1 same
  exact h.congr hn hkw hnent hprev hfrozen hprevv htable

theorem Unbuilt.of_tableState (h : Unbuilt s) (same : tableState t = tableState s) : Unbuilt t := by
  obtain ⟨hn, hkw, hnent, -, hfrozen, hprevv, htable, hout⟩ := tableState_eq_iff.1 same
  exact ⟨by rw [hn, hkw, hnent]; exact h.registers, by rw [hfrozen, hprevv]; exact h.flags, htable.trans h.store,
    hout.trans h.nothingOut⟩

theorem built_or_unbuilt_of_tableState (h : Built s ∨ Unbuilt s) (same : tableState t = tableState s) :
    Built t ∨ Unbuilt t :=
  h.imp (fun hb => hb.of_tableState same) (fun hu => hu.of_tableState same)

/-! ### The invariant by parts -/

/-- What every phase keeps, faults included (R240): canonical memories, a table that is built or not begun, and the bits
held. -/
structure Stored (s : State) : Prop where
  frameBuffer : Memory.wf s.fb
  store : Table.wf s.table
  parameter : 258 ≤ s.tableMem ∧ s.tableMem ≤ 4096
  table : Built s ∨ Unbuilt s
  bitsHeld : bitsWithin s
  bitCount : s.bitcnt.toNat ≤ 11

/-- The invariant of phases RUN and DRAIN but for PHASE itself and the bytes of a waiting step. -/
structure Decoding (s : State) : Prop where
  frameBuffer : Memory.wf s.fb
  store : Table.wf s.table
  parameter : 258 ≤ s.tableMem ∧ s.tableMem ≤ 4096
  noCause : s.cause = .none ∧ s.errinfo = 0
  built : Built s
  geometry : geometryFits s = true
  offset : s.outoff.toNat ≤ s.fw.toNat * s.fh.toNat
  bitsHeld : bitsWithin s
  bitCount : s.bitcnt.toNat ≤ 7
  terminator : s.termseen = false

theorem Inv.stored (h : Inv s) : Stored s := by
  refine ⟨h.frameBuffer, h.store, h.parameter, ?_, h.bitsHeld, h.bitCount.1⟩
  cases hp : s.phase with
  | idle => exact .inr (h.beforeHeader (.inl hp)).1
  | hdr => exact .inr (h.beforeHeader (.inr hp)).1
  | run => exact .inl (h.afterHeader (.inl hp))
  | drain => exact .inl (h.afterHeader (.inr (.inl hp)))
  | done => exact .inl (h.afterHeader (.inr (.inr hp)))
  | fault => exact h.inFault hp

theorem Inv.decoding (h : Inv s) (hp : s.phase = .run ∨ s.phase = .drain) : Decoding s := by
  have hbusy : s.phase.busy = true := by rcases hp with hp | hp <;> rw [hp] <;> rfl
  have hfault : s.phase ≠ .fault := by rcases hp with hp | hp <;> rw [hp] <;> decide
  have hcause := h.causeInFault.2 hfault
  exact
    { frameBuffer := h.frameBuffer, store := h.store, parameter := h.parameter
      noCause := ⟨hcause, h.infoWithCause hcause⟩
      built := h.afterHeader (hp.imp_right .inl)
      geometry := h.geometry hbusy, offset := h.offset hbusy
      bitsHeld := h.bitsHeld, bitCount := h.bitCount.2 hfault
      terminator := h.terminator.2 hbusy }

theorem Decoding.stored (h : Decoding s) : Stored s :=
  ⟨h.frameBuffer, h.store, h.parameter, .inl h.built, h.bitsHeld, Nat.le_trans h.bitCount (by decide)⟩

theorem Decoding.inv (h : Decoding s) (hp : s.phase = .run ∨ s.phase = .drain)
    (hway : s.phase ≠ .run → s.partway = []) : Inv s := by
  have hfault : s.phase ≠ .fault := by rcases hp with hp | hp <;> rw [hp] <;> decide
  exact
    { frameBuffer := h.frameBuffer, store := h.store, parameter := h.parameter
      causeInFault := ⟨fun _ => hfault, fun _ => h.noCause.1⟩
      infoWithCause := fun _ => h.noCause.2
      beforeHeader := fun hb => by rcases hp with hp | hp <;> simp [hp] at hb
      afterHeader := fun _ => h.built
      inFault := fun hf => absurd hf hfault
      geometry := fun _ => h.geometry, offset := fun _ => h.offset
      bitsHeld := h.bitsHeld
      bitCount := ⟨Nat.le_trans h.bitCount (by decide), fun _ => h.bitCount⟩
      notPartway := hway
      terminator := ⟨fun hd => by rcases hp with hp | hp <;> simp [hp] at hd, fun _ => h.terminator⟩ }

/-- A fault taken where no step waits (R240). -/
theorem Stored.raise (h : Stored s) (hway : s.partway = []) {c : Cause} (hc : c ≠ .none) (info : BitVec 12) :
    Inv (raise c info s) where
  frameBuffer := h.frameBuffer
  store := h.store
  parameter := h.parameter
  causeInFault := by simp [hc]
  infoWithCause := fun h0 => absurd h0 hc
  beforeHeader := by simp
  afterHeader := by simp
  inFault := fun _ => built_or_unbuilt_of_tableState h.table rfl
  geometry := by simp [Phase.busy]
  offset := by simp [Phase.busy]
  bitsHeld := h.bitsHeld
  bitCount := ⟨h.bitCount, by simp⟩
  notPartway := fun _ => hway
  terminator := by simp [Phase.busy]

/-- The cursor moved and the bits still lie below BITCNT (R129). -/
theorem Decoding.cursor (h : Decoding s) (same : sameBesidesCursor s t) (hb : bitsWithin t) (hc : t.bitcnt.toNat ≤ 7) :
    Decoding t where
  frameBuffer := by rw [same.fb]; exact h.frameBuffer
  store := by rw [same.table]; exact h.store
  parameter := by rw [same.tableMem]; exact h.parameter
  noCause := by rw [same.cause, same.errinfo]; exact h.noCause
  built := h.built.cursor same
  geometry := (geometryFits_congr same.config).trans h.geometry
  offset := by rw [same.outoff, frameSize_congr same.config]; exact h.offset
  bitsHeld := hb
  bitCount := hc
  terminator := by rw [same.termseen]; exact h.terminator

theorem Stored.cursor (h : Stored s) (hbuilt : Built s) (same : sameBesidesCursor s t) (hb : bitsWithin t)
    (hc : t.bitcnt.toNat ≤ 11) : Stored t where
  frameBuffer := by rw [same.fb]; exact h.frameBuffer
  store := by rw [same.table]; exact h.store
  parameter := by rw [same.tableMem]; exact h.parameter
  table := .inl (hbuilt.cursor same)
  bitsHeld := hb
  bitCount := hc

/-! ### The phases before the header step -/

/-- A state in which nothing has been read and no table begun, in IDLE or HDR. -/
structure Fresh (s : State) : Prop where
  frameBuffer : Memory.wf s.fb
  parameter : 258 ≤ s.tableMem ∧ s.tableMem ≤ 4096
  noCause : s.cause = .none ∧ s.errinfo = 0
  unbuilt : Unbuilt s
  rewound : Rewound s
  notPartway : s.partway = []

theorem Fresh.bitsHeld (h : Fresh s) : bitsWithin s := by
  obtain ⟨-, hbuf, hcnt⟩ := h.rewound.cursor
  rw [bitsWithin, hbuf, hcnt]; decide

theorem Fresh.bitCount (h : Fresh s) : s.bitcnt.toNat = 0 := by
  rw [h.rewound.cursor.2.2]; rfl

theorem Fresh.wfTable (h : Fresh s) : Table.wf s.table := by
  rw [h.unbuilt.store]; exact Table.wf_reset

theorem Fresh.inv (h : Fresh s) (hp : s.phase = .idle ∨ (s.phase = .hdr ∧ geometryFits s = true)) : Inv s := by
  have hp' : s.phase = .idle ∨ s.phase = .hdr := hp.imp_right And.left
  have hcnt := h.bitCount
  have hother : s.phase ≠ .fault ∧ s.phase ≠ .run ∧ s.phase ≠ .drain ∧ s.phase ≠ .done := by
    rcases hp' with hp' | hp' <;> simp [hp']
  obtain ⟨hfault, hrun, hdrain, hdone⟩ := hother
  exact
    { frameBuffer := h.frameBuffer, store := h.wfTable, parameter := h.parameter
      causeInFault := ⟨fun _ => hfault, fun _ => h.noCause.1⟩
      infoWithCause := fun _ => h.noCause.2
      beforeHeader := fun _ => ⟨h.unbuilt, h.rewound⟩
      afterHeader := fun ha => by simp [hrun, hdrain, hdone] at ha
      inFault := fun hf => absurd hf hfault
      geometry := fun hb => by
        rcases hp with hp | ⟨-, hfit⟩
        · simp [hp, Phase.busy] at hb
        · exact hfit
      offset := fun _ => by rw [h.unbuilt.nothingOut]; exact Nat.zero_le _
      bitsHeld := h.bitsHeld
      bitCount := by rw [hcnt]; simp
      notPartway := fun _ => h.notPartway
      terminator := ⟨fun hd => absurd hd hdone, fun _ => h.rewound.terminator⟩ }

theorem Fresh.stored (h : Fresh s) : Stored s :=
  ⟨h.frameBuffer, h.wfTable, h.parameter, .inr h.unbuilt, h.bitsHeld, by rw [h.bitCount]; decide⟩

/-- START and ABORT begin anew (R211, R216), whatever phase follows. -/
theorem Inv.fresh_wipe (h : Inv s) (p : Phase) : Fresh { wipe s with phase := p } where
  frameBuffer := h.frameBuffer
  parameter := h.parameter
  noCause := ⟨rfl, rfl⟩
  unbuilt := ⟨⟨rfl, rfl, rfl⟩, ⟨rfl, rfl⟩, rfl, rfl⟩
  rewound := ⟨⟨rfl, rfl, rfl⟩, rfl, rfl⟩
  notPartway := rfl

theorem Inv.fresh_hardReset (h : Inv s) : Fresh (hardReset s) where
  frameBuffer := h.frameBuffer
  parameter := h.parameter
  noCause := ⟨rfl, rfl⟩
  unbuilt := ⟨⟨rfl, rfl, rfl⟩, ⟨rfl, rfl⟩, rfl, rfl⟩
  rewound := ⟨⟨rfl, rfl, rfl⟩, rfl, rfl⟩
  notPartway := rfl

/-! ### The moves of the other agents -/

/-- Everything the decoder holds is the same: only the configuration, the frame buffer, the source and the model's own
fields may differ. -/
def sameDecoder (s t : State) : Prop :=
  { t with
    cw := s.cw, ch := s.ch, fx := s.fx, fy := s.fy, fw := s.fw, fh := s.fh, interlace := s.interlace, fb := s.fb
    source := s.source, sourceEnded := s.sourceEnded, turns := s.turns, returned := s.returned
    freeTick := s.freeTick } = s

/-- The engine and the frame buffer are as before: only the source and the model's own fields may differ. -/
def sameEngine (s t : State) : Prop :=
  { t with
    source := s.source, sourceEnded := s.sourceEnded, turns := s.turns, returned := s.returned
    freeTick := s.freeTick } = s

theorem sameEngine.fb (h : sameEngine s t) : t.fb = s.fb := by
  have hfield := congrArg State.fb h
  exact hfield

theorem sameEngine.phase (h : sameEngine s t) : t.phase = s.phase := by
  have hfield := congrArg State.phase h
  exact hfield

theorem sameEngine.config (h : sameEngine s t) : configOf t = configOf s := by
  have hfield := congrArg configOf h
  exact hfield

theorem sameEngine.sameDecoder (h : sameEngine s t) : sameDecoder s t := by
  rw [sameEngine] at h
  rw [Machine.sameDecoder, ← h]

theorem sameDecoder.phase (h : sameDecoder s t) : t.phase = s.phase := by
  have hfield := congrArg State.phase h
  exact hfield

/-- The invariant speaks of the configuration while BUSY only, and not of the source nor of the model's own fields. -/
theorem Inv.of_sameDecoder (h : Inv s) (same : sameDecoder s t) (hfb : Memory.wf t.fb)
    (hconf : s.phase.busy = true → configOf t = configOf s) : Inv t := by
  have hconf' : t.phase.busy = true → configOf t = configOf s := by rwa [same.phase]
  rw [← same] at h
  exact
    { frameBuffer := hfb, store := h.store, parameter := h.parameter
      causeInFault := h.causeInFault, infoWithCause := h.infoWithCause
      beforeHeader := fun hp => by
        obtain ⟨hu, hr⟩ := h.beforeHeader hp
        exact ⟨hu.of_tableState rfl, ⟨hr.cursor, hr.taken, hr.terminator⟩⟩
      afterHeader := fun hp => (h.afterHeader hp).of_tableState rfl
      inFault := fun hp => built_or_unbuilt_of_tableState (h.inFault hp) rfl
      geometry := fun hb => (geometryFits_congr (hconf' hb)).trans (h.geometry hb)
      offset := fun hb => by
        rw [frameSize_congr (hconf' hb)]
        exact h.offset hb
      bitsHeld := h.bitsHeld, bitCount := h.bitCount, notPartway := h.notPartway
      terminator := h.terminator }

/-- Everything a move of the host or of the source can do (R44, R45, R52, R61, R211 to R218, R260). -/
inductive OtherMove (s : State) : Turn → State → Prop
  /-- a read, the source, a write or command that is ignored: at most the source and the model's own fields change -/
  | outside {u : Turn} {t : State} (same : sameEngine s t) :
      OtherMove s u t
  | configured {off v : CsrWord} (idle : s.phase.busy = false) :
      OtherMove s (.host (.csrWrite off v)) (csrWriteConfig off v s)
  | cellWritten {addr : CsrWord} {v : Byte} (idle : s.phase.busy = false) :
      OtherMove s (.host (.fbWrite addr v)) (fbWrite addr.toNat v s)
  | started {v : CsrWord} (idle : s.phase.busy = false) (fits : geometryFits s = true) :
      OtherMove s (.host (.csrWrite 0 v)) { wipe s with phase := .hdr }
  | badGeometry {v : CsrWord} (idle : s.phase.busy = false) (misfit : geometryFits s = false) :
      OtherMove s (.host (.csrWrite 0 v)) (raise .badGeometry 0 (wipe s))
  | aborted {v : CsrWord} : OtherMove s (.host (.csrWrite 0 v)) { wipe s with phase := .idle }
  | hardwareReset : OtherMove s (.host .reset) (hardReset s)

theorem OtherMove.unchanged (u : Turn) (s : State) : OtherMove s u s :=
  .outside rfl

/-- A write to CTRL (R45, R211, R216, R217). -/
theorem otherMove_ctrl {v : CsrWord} (h : csrWrite 0 v s = .next t) : OtherMove s (.host (.csrWrite 0 v)) t := by
  rw [csrWrite, if_pos rfl] at h
  unfold decodeCtrl at h
  split_ifs at h
  · cases h; exact .aborted
  · simp only [exec, execStart] at h
    cases hbusy : s.phase.busy with
    | true => rw [if_pos hbusy] at h; cases h; exact .unchanged _ s
    | false =>
      rw [hbusy, if_neg (by decide)] at h
      cases hfit : geometryFits s with
      | true => rw [if_pos hfit] at h; cases h; exact .started hbusy hfit
      | false => rw [hfit, if_neg (by decide)] at h; cases h; exact .badGeometry hbusy hfit
  · cases h; exact .unchanged _ s

theorem csrWriteConfig_busy {off v : CsrWord} (h : s.phase.busy = true) : csrWriteConfig off v s = s := if_pos h

theorem otherMove_csrWrite {off v : CsrWord} (h : csrWrite off v s = .next t) :
    OtherMove s (.host (.csrWrite off v)) t := by
  by_cases hoff : off = 0
  · subst hoff; exact otherMove_ctrl h
  · rw [csrWrite, if_neg hoff] at h
    cases h
    cases hbusy : s.phase.busy with
    | true => rw [csrWriteConfig_busy hbusy]; exact .unchanged _ s
    | false => exact .configured hbusy

theorem otherMove_host {op : HostOp} (h : hostStep op s = .next t) : OtherMove s (.host op) t := by
  cases op with
  | csrRead off => cases h; exact .outside rfl
  | csrWrite off v => exact otherMove_csrWrite h
  | fbRead addr =>
    simp only [hostStep, hostFbRead] at h
    split at h <;> cases h
    exact .outside rfl
  | fbWrite addr v =>
    simp only [hostStep, hostFbWrite] at h
    split at h <;> cases h
    exact .cellWritten (Bool.eq_false_of_not_eq_true ‹_›)
  | positionSource bytes ended =>
    simp only [hostStep, positionSource] at h
    split at h <;> cases h
    exact .outside rfl
  | reset => cases h; exact .hardwareReset

theorem takeTurn_cases {turn : Turn} (hu : turn ≠ .engine) (h : takeTurn turn s = .next t) : OtherMove s turn t := by
  cases turn with
  | engine => exact absurd rfl hu
  | host op => exact otherMove_host h
  | deliver b =>
    cases h
    unfold deliver
    split
    · exact .unchanged _ s
    · exact .outside rfl
  | endOfStream => cases h; exact .outside rfl

/-- A step of another agent acts on the state without its turn. -/
theorem step_otherMove (he : engineMoves s = false) (h : step s = .next t) :
    ∃ turn rest, s.turns = turn :: rest ∧ OtherMove { s with turns := rest } turn t := by
  obtain ⟨turn, rest, hturns, hne, hstep⟩ := step_other he
  exact ⟨turn, rest, hturns, takeTurn_cases hne (hstep.symm.trans h)⟩

/-! ### The other agents keep the invariant -/

theorem csrWriteConfig_sameDecoder (off v : CsrWord) (s : State) : sameDecoder s (csrWriteConfig off v s) := by
  unfold csrWriteConfig
  split_ifs <;> rfl

theorem csrWriteConfig_fb (off v : CsrWord) (s : State) : (csrWriteConfig off v s).fb = s.fb := by
  unfold csrWriteConfig
  split_ifs <;> rfl

theorem Inv.otherMove (h : Inv s) {turn : Turn} (hm : OtherMove s turn t) : Inv t := by
  cases hm with
  | outside same => exact h.of_sameDecoder same.sameDecoder (same.fb ▸ h.frameBuffer) fun _ => same.config
  | configured idle =>
    refine h.of_sameDecoder (csrWriteConfig_sameDecoder _ _ s) ?_ fun hb => by rw [idle] at hb; cases hb
    rw [csrWriteConfig_fb]; exact h.frameBuffer
  | cellWritten idle => exact h.of_sameDecoder rfl (Memory.wf_write h.frameBuffer _ _) fun _ => rfl
  | started idle fits => exact (h.fresh_wipe .hdr).inv (.inr ⟨rfl, fits⟩)
  | badGeometry idle misfit => exact (h.fresh_wipe s.phase).stored.raise rfl (by decide) 0
  | aborted => exact (h.fresh_wipe .idle).inv (.inl rfl)
  | hardwareReset => exact h.fresh_hardReset.inv (.inl rfl)

theorem Inv.withTurns (h : Inv s) (rest : List Turn) : Inv { s with turns := rest } :=
  h.of_sameDecoder rfl h.frameBuffer fun _ => rfl

end Sys2Proof.Machine
namespace Sys2Proof.Machine

/-! ### The engine's steps keep the invariant -/

variable {s t u : State}

theorem Inv.headerStep (h : Inv s) (hp : s.phase = .hdr) (hs : headerStep s = .next t) : Inv t := by
  obtain ⟨hun, hre⟩ := h.beforeHeader (.inr hp)
  have hway := h.notPartway (by rw [hp]; decide)
  have hfit := h.geometry (by rw [hp]; rfl)
  have hst := h.stored
  have hcause := h.causeInFault.2 (by rw [hp]; decide)
  rcases headerStep_cases hp with ⟨-, -, he⟩ | ⟨-, -, he⟩ | ⟨b, rest, -, ⟨-, he⟩ | ⟨⟨h2, h8⟩, he⟩⟩ <;>
    cases he.symm.trans hs
  · exact h
  · exact hst.raise hway (by decide) 0
  · have hst' : Stored { s with source := rest, bytecnt := s.bytecnt + 1 } :=
      ⟨h.frameBuffer, h.store, h.parameter, .inr (hun.of_tableState rfl), h.bitsHeld, h.bitCount.1⟩
    exact hst'.raise hway (by decide) _
  · have hn : (b.setWidth 4).toNat = b.toNat := by rw [BitVec.toNat_setWidth]; omega
    have hbuilt := built_tableInit h2 h8 (s := { s with source := rest, bytecnt := s.bytecnt + 1, n := b.setWidth 4 })
      hn hun.store
    refine Decoding.inv ?_ (.inl rfl) fun hr => absurd rfl hr
    exact
      { frameBuffer := h.frameBuffer, store := Table.wf_writeRoots h.store h8, parameter := h.parameter
        noCause := ⟨hcause, h.infoWithCause hcause⟩
        built := hbuilt.of_tableState rfl
        geometry := hfit
        offset := h.offset (by rw [hp]; rfl)
        bitsHeld := h.bitsHeld
        bitCount := h.bitCount.2 (by rw [hp]; decide)
        terminator := hre.terminator }

theorem Inv.drainStep (h : Inv s) (hp : s.phase = .drain) (hs : drainStep s = .next t) : Inv t := by
  have hway := h.notPartway (by rw [hp]; decide)
  have hd := h.decoding (.inr hp)
  have moved (r : BitVec 8) (rest : List Byte) :
      Decoding { s with source := rest, bytecnt := s.bytecnt + 1, subrem := r } :=
    hd.cursor rfl hd.bitsHeld hd.bitCount
  rcases drainStep_cases hp with ⟨-, -, he⟩ | ⟨-, -, he⟩ | ⟨b, rest, -, ⟨-, he⟩ | ⟨-, -, he⟩ | ⟨-, -, he⟩⟩ <;>
    cases he.symm.trans hs
  · exact h
  · exact h.stored.raise hway (by decide) 0
  · exact (moved _ rest).inv (.inr hp) fun _ => hway
  · exact (moved _ rest).inv (.inr hp) fun _ => hway
  · exact
      { frameBuffer := h.frameBuffer, store := h.store, parameter := h.parameter
        causeInFault := by simp [hd.noCause.1]
        infoWithCause := h.infoWithCause
        beforeHeader := by simp
        afterHeader := fun _ => hd.built.of_tableState rfl
        inFault := by simp
        geometry := by simp [Phase.busy], offset := by simp [Phase.busy]
        bitsHeld := hd.bitsHeld
        bitCount := ⟨hd.stored.bitCount, fun _ => hd.bitCount⟩
        notPartway := fun _ => hway
        terminator := by simp [Phase.busy] }

/-! ### Code steps -/

theorem Stored.withTerminator (h : Stored s) : Stored { s with termseen := true } :=
  ⟨h.frameBuffer, h.store, h.parameter, built_or_unbuilt_of_tableState h.table rfl, h.bitsHeld, h.bitCount⟩

/-- Only the table's counts, PREV, PHASE, the bytes before the cursor and the model's count of free values differ. -/
def sameBesidesTable (s t : State) : Prop :=
  { t with
    nent := s.nent, kw := s.kw, frozen := s.frozen, prev := s.prev, prevv := s.prevv, phase := s.phase
    source := s.source, partway := s.partway, freeTick := s.freeTick } = s

theorem Decoding.of_built (h : Decoding s) (hb : Built t) (same : sameBesidesTable s t) : Decoding t := by
  rw [← same] at h
  exact ⟨h.frameBuffer, h.store, h.parameter, h.noCause, hb, h.geometry, h.offset, h.bitsHeld, h.bitCount, h.terminator⟩

theorem Decoding.resumed (h : Decoding s) : Decoding (resume s) := h.of_built h.built.resume rfl

/-- The source has not answered (U9). -/
theorem Decoding.stall (h : Decoding s) : Decoding (stall s) := h.of_built (h.built.of_tableState rfl) rfl

theorem Decoding.tableClear (h : Decoding s) : Decoding (tableClear s) := h.of_built h.built.clear rfl

theorem Decoding.stopRun (h : Decoding s) : Decoding (stopRun s) := h.of_built (h.built.of_tableState rfl) rfl

/-! #### The growth of the table -/

theorem Built.afterGrow (h : Built s) {f : Byte} {p : Entry} (hp : s.prevv = true → tableRead s s.prev.toNat = some p)
    (hf : f.toNat < clearCode s.n.toNat) : Built (afterGrow f p s) := by
  unfold Machine.afterGrow
  split
  · next hg => exact h.append hg.1 hg.2 (hp hg.2) hf
  · exact h

theorem Built.wf_afterGrow (h : Built s) (ht : Table.wf s.table) (f : Byte) (p : Entry) :
    Table.wf (Machine.afterGrow f p s).table := by
  unfold Machine.afterGrow
  split
  · next hg =>
    rw [withEntry_table]
    exact Table.wf_setKey ht (h.notFull hg.1) _
  · exact ht

/-- A code with a string is a defined entry. -/
theorem holdsEntry_of_string {fuel : Nat} {c : Code} {str : List Byte} (h : stringFrom s fuel c = some str) :
    holdsEntry s c.toNat := by
  cases fuel with
  | zero => cases h
  | succ fuel =>
    cases hr : tableRead s c.toNat with
    | none => simp [stringFrom, hr] at h
    | some e => exact ⟨e, hr⟩

/-- The end of a data code makes a defined entry the previous code (R165). -/
theorem Built.finishCode (h : Built s) {c : Code} (hc : holdsEntry s c.toNat) (len : Nat) (m : Memory) :
    Built (finishCode c len { s with fb := m }) where
  codeSize := h.codeSize
  width := h.width
  count := h.count
  frozenFull := h.frozenFull
  frozenWidth := h.frozenWidth
  openWidth := h.openWidth
  roots := h.roots
  appended := h.appended
  sentinelSlots := h.sentinelSlots
  previous := fun _ => hc
  noPrevious := fun hv => by cases hv

/-- Everything but what a data code writes is the same: the table, the cells, OUTOFF and PREV (R165). -/
def sameBesidesData (s t : State) : Prop :=
  { t with
    nent := s.nent, kw := s.kw, frozen := s.frozen, table := s.table, fb := s.fb
    outoff := s.outoff, prev := s.prev, prevv := s.prevv } = s

/-- A field that is not a data code's is the same. -/
theorem dataField {α : Type} (h : sameBesidesData s t) (g : State → α) :
    g { t with
      nent := s.nent, kw := s.kw, frozen := s.frozen, table := s.table, fb := s.fb
      outoff := s.outoff, prev := s.prev, prevv := s.prevv } = g s :=
  congrArg g h

section fields
variable (h : sameBesidesData s t)
include h
theorem sameBesidesData.config : configOf t = configOf s := dataField h configOf
theorem sameBesidesData.phase : t.phase = s.phase := dataField h State.phase
theorem sameBesidesData.cause : t.cause = s.cause := dataField h State.cause
theorem sameBesidesData.errinfo : t.errinfo = s.errinfo := dataField h State.errinfo
theorem sameBesidesData.bitbuf : t.bitbuf = s.bitbuf := dataField h State.bitbuf
theorem sameBesidesData.bitcnt : t.bitcnt = s.bitcnt := dataField h State.bitcnt
theorem sameBesidesData.termseen : t.termseen = s.termseen := dataField h State.termseen
theorem sameBesidesData.partway : t.partway = s.partway := dataField h State.partway
end fields

theorem afterDataCode_same (c : Code) (f : Byte) (len : Nat) (p : Entry) (m : Memory) (s : State) :
    sameBesidesData s (afterDataCode c f len p m s) :=
  afterGrow_field (α := State) f p s fun u =>
    { u with fb := s.fb, outoff := s.outoff, prev := s.prev, prevv := s.prevv }

theorem afterDataCode_outoff (c : Code) (f : Byte) (len : Nat) (p : Entry) (m : Memory) (s : State) :
    (afterDataCode c f len p m s).outoff = BitVec.ofNat 32 (s.outoff.toNat + len) := by
  have hout : (afterGrow f p s).outoff = s.outoff := afterGrow_field f p s State.outoff
  rw [afterDataCode, finishCode_outoff, hout]

theorem Decoding.afterDataCode (h : Decoding s) {c : Code} {f : Byte} {str : List Byte} {p : Entry} {m : Memory}
    (hp : s.prevv = true → tableRead s s.prev.toNat = some p) (hstr : DataString s c f str)
    (hroom : s.outoff.toNat + str.length ≤ s.fw.toNat * s.fh.toNat) (hout : StringWritten s str s.fb m) :
    Decoding (afterDataCode c f str.length p m s) := by
  have same := afterDataCode_same c f str.length p m s
  obtain ⟨-, -, -, -, -, -, -, hmem⟩ := configOf_eq_iff.1 same.config
  obtain ⟨fuel, hfuel⟩ := hstr.grown p hp
  exact
    { frameBuffer := hout.canonical h.frameBuffer
      store := h.built.wf_afterGrow h.store f p
      parameter := by rw [hmem]; exact h.parameter
      noCause := by rw [same.cause, same.errinfo]; exact h.noCause
      built := (h.built.afterGrow hp hstr.symbol).finishCode (holdsEntry_of_string hfuel) _ m
      geometry := (geometryFits_congr same.config).trans h.geometry
      offset := by
        rw [afterDataCode_outoff, frameSize_congr same.config, BitVec.toNat_ofNat]
        exact Nat.le_trans (Nat.mod_le _ _) hroom
      bitsHeld := by rw [bitsWithin, same.bitbuf, same.bitcnt]; exact h.bitsHeld
      bitCount := by rw [same.bitcnt]; exact h.bitCount
      terminator := by rw [same.termseen]; exact h.terminator }

/-! #### The step -/

/-- A code was read: the run goes on at the moved cursor, no step waits (R124, R129). -/
theorem Decoding.of_getCode (h : Decoding s) {c : Code} (hg : getCode (resume s) = .got c u) :
    Decoding u ∧ u.phase = s.phase ∧ u.partway = [] := by
  have hread := getCode_cases (resume s) h.built.width.2 h.bitCount h.bitsHeld
  rw [hg] at hread
  cases hread with
  | code _ _ same within _ _ _ _ held => exact ⟨h.resumed.cursor same within held, same.phase, same.partway⟩

/-- The bits are fewer than a code's where the bytes end inside one. -/
theorem Decoding.stored_of_short (h : Decoding s) (same : sameBesidesCursor (resume s) u) (within : bitsWithin u)
    (short : u.bitcnt.toNat < (resume s).kw.toNat) : Stored u := by
  have hkw : (resume s).kw.toNat ≤ 12 := h.built.width.2
  exact h.resumed.stored.cursor h.built.resume same within (by omega)

/-- The source ended inside a code (R120). -/
theorem Decoding.inv_of_raised (h : Decoding s) (hg : getCode (resume s) = .raised t) : Inv t := by
  have hread := getCode_cases (resume s) h.built.width.2 h.bitCount h.bitsHeld
  rw [hg] at hread
  cases hread with
  | ended u same within short => exact (h.stored_of_short same within short).raise same.partway (by decide) 0

/-- The terminator came inside a code (R122). -/
theorem Decoding.inv_of_terminated (h : Decoding s) (hg : getCode (resume s) = .terminated u) :
    Inv (raise .dataExhausted 0 { u with termseen := true }) := by
  have hread := getCode_cases (resume s) h.built.width.2 h.bitCount h.bitsHeld
  rw [hg] at hread
  cases hread with
  | terminated _ same within short =>
    exact (h.stored_of_short same within short).withTerminator.raise same.partway (by decide) 0

theorem Inv.codeStep (h : Inv s) (hp : s.phase = .run) (hs : codeStep s = .next t) : Inv t := by
  have hd := h.decoding (.inl hp)
  obtain ⟨t', ht', hcase⟩ := codeStep_cases h hp (addressesGood_of_geometryFits hd.geometry)
  cases ht'.symm.trans hs
  cases hcase with
  | waits => exact hd.stall.inv (.inl hp) fun hr => absurd hp hr
  | truncated u hg => exact hd.inv_of_raised hg
  | exhausted u hg => exact hd.inv_of_terminated hg
  | clear c u hg =>
    obtain ⟨hu, hphase, hway⟩ := hd.of_getCode hg
    exact hu.tableClear.inv (.inl (hphase.trans hp)) fun _ => hway
  | stop c u hg =>
    obtain ⟨hu, -, hway⟩ := hd.of_getCode hg
    exact hu.stopRun.inv (.inr rfl) fun _ => hway
  | illegal c u hg =>
    obtain ⟨hu, -, hway⟩ := hd.of_getCode hg
    exact hu.stored.raise hway (by decide) c
  | overrun c u hg =>
    obtain ⟨hu, -, hway⟩ := hd.of_getCode hg
    exact hu.stored.raise hway (by decide) c
  | noMemory c u hg =>
    obtain ⟨hu, -, hway⟩ := hd.of_getCode hg
    exact hu.stored.raise hway (by decide) c
  | data c u hg f str p m prevEntry string room slot output =>
    obtain ⟨hu, hphase, hway⟩ := hd.of_getCode hg
    have same := afterDataCode_same c f str.length p m u
    exact (hu.afterDataCode prevEntry string room output).inv (.inl (same.phase.trans (hphase.trans hp)))
      fun _ => same.partway.trans hway

theorem Inv.engineStep (h : Inv s) (hs : engineStep s = .next t) : Inv t := by
  unfold Machine.engineStep at hs
  cases hp : s.phase with
  | hdr => rw [hp] at hs; exact h.headerStep hp hs
  | run => rw [hp] at hs; exact h.codeStep hp hs
  | drain => rw [hp] at hs; exact h.drainStep hp hs
  | idle | done | fault => rw [hp] at hs; cases hs; exact h

/-- Settles O52: the engine's steps and the other agents' moves each keep the invariant, by the cases of what they can
do. -/
theorem stepKeepsTheInvariant : Obligations.StepKeepsTheInvariant := by
  intro s t h hs
  cases he : engineMoves s with
  | true => exact (h.withTurns s.turns.tail).engineStep ((step_engine he).symm.trans hs)
  | false =>
    obtain ⟨turn, rest, -, hmove⟩ := step_otherMove he hs
    exact (h.withTurns rest).otherMove hmove

end Sys2Proof.Machine
/-! ### What the engine does from any state

The lemmas of Laws/Steps.lean speak of states of the invariant; PHASE and the configuration follow their rules from every
state, so these say what a step can do without it. -/

namespace Sys2Proof.Machine

open Sys2Proof.Claims

variable {s t u : State}

/-! #### The cursor moves -/

/-- The reader moves the cursor only, and the one fault it takes is TruncatedRead (R120, R129). -/
inductive CursorMove {α : Type} (s : State) : Fetch α → Prop
  | got {a : α} {u : State} (same : sameBesidesCursor s u) : CursorMove s (.got a u)
  | raised {u : State} (same : sameBesidesCursor s u) : CursorMove s (.raised (raise .truncatedRead 0 u))
  | terminated {u : State} (same : sameBesidesCursor s u) : CursorMove s (.terminated u)
  | waiting : CursorMove s .waiting

theorem CursorMove.of_same {α : Type} {x : Fetch α} (hx : CursorMove u x) (same : sameBesidesCursor s u) :
    CursorMove s x := by
  cases hx with
  | got h => exact .got (same.trans h)
  | raised h => exact .raised (same.trans h)
  | terminated h => exact .terminated (same.trans h)
  | waiting => exact .waiting

theorem CursorMove.andThen {α β : Type} {x : Fetch α} {f : α → State → Fetch β} (hx : CursorMove s x)
    (hf : ∀ a u, CursorMove u (f a u)) : CursorMove s (x.andThen f) := by
  cases hx with
  | got h => exact (hf _ _).of_same h
  | raised h => exact .raised h
  | terminated h => exact .terminated h
  | waiting => exact .waiting

theorem nextDataByte_move (s : State) : CursorMove s (nextDataByte s) := by
  rcases nextDataByte_cases s with ⟨b, t, he, same, -⟩ | ⟨t, he, same, -⟩ | ⟨t, he, same, -⟩ | ⟨he, -⟩ <;> rw [he]
  · exact .got same
  · exact .raised same
  · exact .terminated same
  · exact .waiting

theorem gather_move (w fuel : Nat) (s : State) : CursorMove s (gather w fuel s) := by
  induction fuel generalizing s with
  | zero => exact .got (.refl s)
  | succ fuel ih =>
    simp only [gather]
    split
    · exact (nextDataByte_move s).andThen fun b u => (ih _).of_same (mergeByte_same b u)
    · exact .got (.refl s)

theorem getCode_move (s : State) : CursorMove s (getCode s) :=
  (gather_move _ _ s).andThen fun _ u => .got (dropBits_same _ u)

/-! #### The execution of a code -/

/-- Everything the execution of a code can do where it does not stop (R163 to R170). -/
inductive CodeEffect (s : State) : State → Prop
  | cleared : CodeEffect s (tableClear s)
  | stopped : CodeEffect s (stopRun s)
  | raised (c : Cause) (info : BitVec 12) : CodeEffect s (raise c info s)
  | data {t : State} (same : sameBesidesData s t) : CodeEffect s t

/-- An emission writes cells only, or the model stops (R172). -/
theorem emit_ok_or_stop (e : Code) (count : Nat) (s : State) :
    (∃ m, emit e count s = .ok { s with fb := m }) ∨ ∃ r, emit e count s = .stop r := by
  induction count generalizing e s with
  | zero => exact .inl ⟨s.fb, rfl⟩
  | succ count ih =>
    simp only [emit]
    split
    · exact .inr ⟨_, rfl⟩
    · split
      · exact .inr ⟨_, rfl⟩
      · split
        · exact ih _ _
        · exact .inr ⟨_, rfl⟩

/-- Growing the table raises before it writes, writes the table, or stops (R146). -/
theorem grow_ok_or_raised_or_stop (c : Code) (f : Byte) (s : State) :
    (∃ u, grow c f s = .ok u ∧ sameBesidesData s u) ∨ grow c f s = .raised (raise .outOfMemory c s) ∨
      ∃ r, grow c f s = .stop r := by
  unfold grow append
  split
  · split
    · exact .inr (.inl rfl)
    · split
      · exact .inr (.inr ⟨_, rfl⟩)
      · next p _ =>
        exact .inl ⟨_, rfl, withEntry_field (α := State) f p s fun u =>
          { u with fb := s.fb, outoff := s.outoff, prev := s.prev, prevv := s.prevv }⟩
  · exact .inl ⟨s, rfl, rfl⟩

/-- What ends a data code keeps everything but what a data code writes. -/
theorem sameBesidesData.finishCode (h : sameBesidesData s u) (c : Code) (len : Nat) (m : Memory) :
    sameBesidesData s (finishCode c len { u with fb := m }) := h

theorem dataCode_effect {c : Code} {fl : Option (Byte × Nat)} (h : dataCode c fl s = .next t) : CodeEffect s t := by
  unfold dataCode at h
  split at h
  · cases h
  · next f len =>
    split at h
    · cases h; exact .raised _ _
    · unfold growEmitFinish at h
      rcases grow_ok_or_raised_or_stop c f s with ⟨u, hu, same⟩ | hu | ⟨r, hu⟩ <;> simp only [hu] at h
      · rcases emit_ok_or_stop c len u with ⟨m, hm⟩ | ⟨r, hm⟩ <;> simp only [hm] at h <;> cases h
        exact .data (same.finishCode c len m)
      · cases h; exact .raised _ _
      · cases h

/-- A meaning under its row's condition does what the meaning does. -/
theorem next_of_whenCodeFits {i : Instr} {o : Host.Outcome State Fault Refusal} (h : whenCodeFits i s o = .next t) :
    o = .next t := by
  unfold whenCodeFits at h
  split at h
  · exact h
  · cases h

theorem exec_of_clrOf {n : Nat} {i : Instr} (hi : clrOf n = some i) (h : exec i s = .next t) : t = tableClear s := by
  unfold clrOf at hi
  split at hi <;> cases hi <;> cases next_of_whenCodeFits h <;> rfl

theorem exec_of_stopOf {n : Nat} {i : Instr} (hi : stopOf n = some i) (h : exec i s = .next t) : t = stopRun s := by
  unfold stopOf at hi
  split at hi <;> cases hi <;> cases next_of_whenCodeFits h <;> rfl

theorem exec_of_litOf {n : Nat} {c : Code} {i : Instr} (hi : litOf n c = some i) (h : exec i s = .next t) :
    CodeEffect s t := by
  unfold litOf at hi
  split at hi <;> cases hi <;> exact dataCode_effect (next_of_whenCodeFits h)

/-- The execution of a decoded code, by the lines of R100. -/
theorem exec_of_decodeCode {x : CodeCtx} {c : Code} {i : Instr} (hi : decodeCode x c = some i)
    (h : exec i s = .next t) : CodeEffect s t := by
  unfold decodeCode at hi
  split_ifs at hi
  · rw [exec_of_clrOf hi h]; exact .cleared
  · rw [exec_of_stopOf hi h]; exact .stopped
  · exact exec_of_litOf hi h
  · cases hi; exact dataCode_effect (next_of_whenCodeFits h)
  · cases hi; exact dataCode_effect (next_of_whenCodeFits h)
  · cases hi; cases next_of_whenCodeFits h; exact .raised _ _

/-! #### The engine's steps -/

/-- Everything a code step can do from any state (R161, R120, R122). -/
inductive CodeMove (s : State) : State → Prop
  | waits : CodeMove s (stall s)
  | truncated {u : State} (same : sameBesidesCursor (resume s) u) : CodeMove s (raise .truncatedRead 0 u)
  | terminator {u t : State} (same : sameBesidesCursor (resume s) u) (term : execTerm u = .next t) : CodeMove s t
  | executed {u t : State} (same : sameBesidesCursor (resume s) u) (effect : CodeEffect u t) : CodeMove s t

theorem codeStep_move (h : codeStep s = .next t) : CodeMove s t := by
  have hm := getCode_move (resume s)
  unfold codeStep at h
  generalize getCode (resume s) = g at hm h
  cases hm with
  | got same =>
    simp only [Fetch.finish] at h
    split at h
    · next i hi => exact .executed same (exec_of_decodeCode hi h)
    · cases h
  | raised same => cases h; exact .truncated same
  | terminated same => exact .terminator same h
  | waiting => cases h; exact .waits

/-! #### The configuration -/

theorem CodeEffect.config (h : CodeEffect s t) : configOf t = configOf s := by
  cases h with
  | cleared | stopped | raised => rfl
  | data same => exact same.config

theorem execTerm_config (h : execTerm s = .next t) : configOf t = configOf s := by
  simp only [execTerm] at h
  split_ifs at h <;> cases h <;> rfl

theorem CodeMove.config (h : CodeMove s t) : configOf t = configOf s := by
  cases h with
  | waits => rfl
  | truncated same => exact same.config
  | terminator same term => exact (execTerm_config term).trans same.config
  | executed same effect => exact effect.config.trans same.config

theorem headerStep_config (hp : s.phase = .hdr) (h : headerStep s = .next t) : configOf t = configOf s := by
  rcases headerStep_cases hp with ⟨-, -, he⟩ | ⟨-, -, he⟩ | ⟨b, rest, -, ⟨-, he⟩ | ⟨-, he⟩⟩ <;>
    cases he.symm.trans h <;> rfl

theorem drainStep_config (hp : s.phase = .drain) (h : drainStep s = .next t) : configOf t = configOf s := by
  rcases drainStep_cases hp with ⟨-, -, he⟩ | ⟨-, -, he⟩ | ⟨b, rest, -, ⟨-, he⟩ | ⟨-, -, he⟩ | ⟨-, -, he⟩⟩ <;>
    cases he.symm.trans h <;> rfl

theorem engineStep_config (h : engineStep s = .next t) : configOf t = configOf s := by
  unfold engineStep at h
  cases hp : s.phase with
  | hdr => rw [hp] at h; exact headerStep_config hp h
  | run => rw [hp] at h; exact (codeStep_move h).config
  | drain => rw [hp] at h; exact drainStep_config hp h
  | idle | done | fault => rw [hp] at h; cases h; rfl

/-- While BUSY only a hardware reset touches the configuration (R52, R260). -/
theorem OtherMove.config {turn : Turn} (h : OtherMove s turn t) (hbusy : s.phase.busy = true)
    (hreset : turn ≠ .host .reset) : configOf t = configOf s := by
  cases h with
  | outside same => exact same.config
  | configured idle => rw [idle] at hbusy; cases hbusy
  | cellWritten | started | badGeometry | aborted => rfl
  | hardwareReset => exact absurd rfl hreset

/-- Settles O55: the engine's moves keep the configuration in every phase, the others' while BUSY. -/
theorem runKeepsItsConfiguration : Obligations.RunKeepsItsConfiguration := by
  intro s t hs hmove
  refine configOf_eq_iff.1 ?_
  cases he : engineMoves s with
  | true => exact engineStep_config (s := afterTurn s) ((step_engine he).symm.trans hs)
  | false =>
    rw [he] at hmove
    obtain ⟨hbusy, hreset⟩ := hmove.resolve_left (by decide)
    obtain ⟨turn, rest, hturns, hother⟩ := step_otherMove he hs
    exact hother.config hbusy fun hr => hreset rest (hr ▸ hturns)

/-! #### PHASE -/

/-- A code leads from its phase to itself, to DRAIN or to FAULT (R39). -/
theorem CodeEffect.phase (h : CodeEffect s t) : t.phase = s.phase ∨ t.phase = .drain ∨ t.phase = .fault := by
  cases h with
  | cleared => exact .inl rfl
  | stopped => exact .inr (.inl rfl)
  | raised => exact .inr (.inr rfl)
  | data same => exact .inl same.phase

theorem execTerm_phase_of_run (hp : s.phase = .run) (h : execTerm s = .next t) : t.phase = .fault := by
  simp only [execTerm] at h
  split_ifs at h
  cases h; rfl

theorem CodeMove.phase (h : CodeMove s t) (hp : s.phase = .run) : engineEdge .run t.phase = true := by
  cases h with
  | waits => rw [stall_phase, hp]; rfl
  | truncated => rfl
  | terminator same term => rw [execTerm_phase_of_run (same.phase.trans hp) term]; rfl
  | executed same effect =>
    rcases effect.phase with ht | ht | ht
    · rw [ht, same.phase, resume_phase, hp]; rfl
    · rw [ht]; rfl
    · rw [ht]; rfl

theorem headerStep_phase (hp : s.phase = .hdr) (h : headerStep s = .next t) : engineEdge .hdr t.phase = true := by
  rcases headerStep_cases hp with ⟨-, -, he⟩ | ⟨-, -, he⟩ | ⟨b, rest, -, ⟨-, he⟩ | ⟨-, he⟩⟩ <;>
    cases he.symm.trans h <;> simp [engineEdge, hp]

theorem drainStep_phase (hp : s.phase = .drain) (h : drainStep s = .next t) : engineEdge .drain t.phase = true := by
  rcases drainStep_cases hp with ⟨-, -, he⟩ | ⟨-, -, he⟩ | ⟨b, rest, -, ⟨-, he⟩ | ⟨-, -, he⟩ | ⟨-, -, he⟩⟩ <;>
    cases he.symm.trans h <;> simp [engineEdge, hp]

theorem engineStep_phase (h : engineStep s = .next t) : engineEdge s.phase t.phase = true := by
  unfold engineStep at h
  cases hp : s.phase with
  | hdr => rw [hp] at h; exact headerStep_phase hp h
  | run => rw [hp] at h; exact (codeStep_move h).phase hp
  | drain => rw [hp] at h; exact drainStep_phase hp h
  | idle | done | fault => rw [hp] at h; cases h; rw [hp]; rfl

theorem hostEdge_self (p : Phase) : hostEdge p p = true := by cases p <;> rfl

theorem hostEdge_idle (p : Phase) : hostEdge p .idle = true := by cases p <;> rfl

/-- START leads from the phases that are not BUSY to HDR and FAULT (R211, R212, R217). -/
theorem hostEdge_start {p : Phase} (h : p.busy = false) : hostEdge p .hdr = true ∧ hostEdge p .fault = true := by
  revert h
  cases p <;> decide

theorem OtherMove.phase {turn : Turn} (h : OtherMove s turn t) : hostEdge s.phase t.phase = true := by
  cases h with
  | outside same => rw [same.phase]; exact hostEdge_self _
  | configured => rw [(csrWriteConfig_sameDecoder _ _ s).phase]; exact hostEdge_self _
  | cellWritten => exact hostEdge_self _
  | started idle => exact (hostEdge_start idle).1
  | badGeometry idle => exact (hostEdge_start idle).2
  | aborted | hardwareReset => exact hostEdge_idle _

/-- Settles O49, by what the engine's steps and the other agents' moves can do. -/
theorem phasesFollowTheirTransitions : Obligations.PhasesFollowTheirTransitions := by
  intro s t hs
  refine ⟨fun he => ?_, fun he => ?_⟩
  · exact engineStep_phase (s := afterTurn s) ((step_engine he).symm.trans hs)
  · obtain ⟨turn, rest, -, hother⟩ := step_otherMove he hs
    exact hother.phase

end Sys2Proof.Machine
/-! ### What the host reads and writes -/

namespace Sys2Proof.Machine

variable {s : State}

/-! #### STATUS (R44, R46) -/

theorem Phase.code_le (p : Phase) : p.code ≤ 5 := by cases p <;> decide
theorem Phase.code_eq_iff {p q : Phase} : p.code = q.code ↔ p = q := by cases p <;> cases q <;> decide
theorem Cause.code_le (c : Cause) : c.code ≤ 7 := by cases c <;> decide
theorem Cause.code_eq_iff {c d : Cause} : c.code = d.code ↔ c = d := by cases c <;> cases d <;> decide

theorem Phase.busy_iff {p : Phase} : p.busy = true ↔ p = .hdr ∨ p = .run ∨ p = .drain := by cases p <;> decide

/-- The bit fields of the STATUS word (R44). -/
structure StatusFields (s : State) (w : Nat) : Prop where
  phase : w % 8 = s.phase.code
  busy : w / 2 ^ 3 % 2 = s.phase.busy.toNat
  cause : w / 2 ^ 4 % 16 = s.cause.code
  frozen : w / 2 ^ 8 % 2 = s.frozen.toNat
  prevv : w / 2 ^ 9 % 2 = s.prevv.toNat
  termseen : w / 2 ^ 10 % 2 = s.termseen.toNat
  reserved : w / 2 ^ 11 % 2 = 0
  kw : w / 2 ^ 12 % 16 = s.kw.toNat
  n : w / 2 ^ 16 = s.n.toNat

/-- No field of the STATUS word reaches into the next. -/
theorem statusWord_fields (s : State) : StatusFields s (statusWord s).toNat := by
  have hphase := s.phase.code_le
  have hcause := s.cause.code_le
  have hbusy := s.phase.busy.toNat_le
  have hfrozen := s.frozen.toNat_le
  have hprevv := s.prevv.toNat_le
  have hterm := s.termseen.toNat_le
  have hkw := s.kw.isLt
  have hn := s.n.isLt
  rw [statusWord, BitVec.toNat_ofNat, Nat.mod_eq_of_lt (by omega)]
  constructor <;> omega

theorem StatusFields.lt {w : Nat} (h : StatusFields s w) : w < 2 ^ 20 := by
  have hn := h.n
  have hlt := s.n.isLt
  omega

/-- Settles O33, from the bit fields of the STATUS word. -/
theorem statusShowsItsFields : Obligations.StatusShowsItsFields := by
  intro s
  have h : StatusFields s (csrRead 0x04 s).toNat := statusWord_fields s
  have phase (p : Phase) : (csrRead 0x04 s).toNat % 8 = p.code ↔ s.phase = p := by
    rw [h.phase, Phase.code_eq_iff]
  have cause (c : Cause) : (csrRead 0x04 s).toNat / 2 ^ 4 % 16 = c.code ↔ s.cause = c := by
    rw [h.cause, Cause.code_eq_iff]
  refine ⟨_, rfl, h.lt, phase .idle, phase .hdr, phase .run, phase .drain, phase .done, phase .fault, ?_,
    cause .none, cause .badGeometry, cause .badCodeSize, cause .truncatedRead, cause .dataExhausted, cause .invalidCode,
    cause .outputOverrun, cause .outOfMemory, ?_, ?_, ?_, h.reserved, h.kw, h.n⟩
  · rw [h.busy, Bool.toNat_eq_one, Phase.busy_iff]
  · rw [h.frozen, Bool.toNat_eq_one]
  · rw [h.prevv, Bool.toNat_eq_one]
  · rw [h.termseen, Bool.toNat_eq_one]

/-! #### A listed move -/

theorem step_of_turns {turn : Turn} {rest : List Turn} (h : s.turns = turn :: rest) :
    step s = takeTurn turn { s with turns := rest } := by
  rw [step, nextMove, h]

/-! #### CSR reads -/

/-- The registers stand at the aligned offsets up to 0x24; every other offset reads 0 (R44). -/
theorem csrRead_unmapped {off : CsrWord} (h : 0x24 < off.toNat ∨ off.toNat % 4 ≠ 0) (s : State) : csrRead off s = 0 := by
  have ne (k : CsrWord) (hk : ¬(0x24 < k.toNat ∨ k.toNat % 4 ≠ 0)) : off ≠ k := fun he => hk (he ▸ h)
  simp only [csrRead, if_neg (ne 0x04 (by decide)), if_neg (ne 0x08 (by decide)), if_neg (ne 0x0C (by decide)),
    if_neg (ne 0x10 (by decide)), if_neg (ne 0x14 (by decide)), if_neg (ne 0x18 (by decide)),
    if_neg (ne 0x1C (by decide)), if_neg (ne 0x20 (by decide)), if_neg (ne 0x24 (by decide))]

theorem pairWord_toNat (lo hi : BitVec 16) : (pairWord lo hi).toNat = lo.toNat + 2 ^ 16 * hi.toNat := by
  rw [pairWord, BitVec.toNat_append, Nat.shiftLeft_eq, Nat.mul_comm, ← Nat.two_pow_add_eq_or_of_lt lo.isLt, Nat.add_comm]

/-- Settles O34, offset by offset. -/
theorem csrReadsShowTheRegisters : Obligations.CsrReadsShowTheRegisters := by
  intro s
  refine ⟨rfl, pairWord_toNat _ _, pairWord_toNat _ _, pairWord_toNat _ _, ?_, rfl, ?_, ?_, rfl,
    fun off h => csrRead_unmapped h s, fun off rest hturns => ?_⟩
  · show (BitVec.ofNat 32 s.interlace.toNat).toNat = _
    cases s.interlace <;> rfl
  · exact BitVec.toNat_setWidth_of_le (show 13 ≤ 32 by decide)
  · exact BitVec.toNat_setWidth_of_le (show 12 ≤ 32 by decide)
  · rw [step_of_turns hturns]; rfl

/-! #### CSR writes -/

theorem step_csrWrite {off v : CsrWord} {rest : List Turn} (h : s.turns = .host (.csrWrite off v) :: rest) :
    step s = csrWrite off v { s with turns := rest } := step_of_turns h

theorem csrWrite_abort {v : CsrWord} (h1 : v.getLsbD 1 = true) (s : State) : csrWrite 0 v s = exec .abort s := by
  simp only [csrWrite, decodeCtrl, h1, if_true]

theorem csrWrite_start {v : CsrWord} (h1 : v.getLsbD 1 = false) (h0 : v.getLsbD 0 = true) (s : State) :
    csrWrite 0 v s = exec .start s := by
  simp only [csrWrite, decodeCtrl, h1, h0, if_true, Bool.false_eq_true, if_false]

theorem csrWrite_noCommand {v : CsrWord} (h1 : v.getLsbD 1 = false) (h0 : v.getLsbD 0 = false) (s : State) :
    csrWrite 0 v s = .next s := by
  simp only [csrWrite, decodeCtrl, h1, h0, if_true, Bool.false_eq_true, if_false]

/-- START while BUSY is ignored (R217). -/
theorem exec_start_busy (h : s.phase.busy = true) : exec .start s = .next s := if_pos h

/-- Settles O32, by the bits of the word. -/
theorem ctrlWordsAreCommands : Obligations.CtrlWordsAreCommands := by
  intro s v rest hturns
  rw [step_csrWrite hturns]
  exact ⟨fun h1 => csrWrite_abort h1 _, fun h1 h0 _ => csrWrite_start h1 h0 _,
    fun h1 h0 hbusy => (csrWrite_start h1 h0 _).trans (exec_start_busy hbusy), fun h1 h0 => csrWrite_noCommand h1 h0 _⟩

/-- The fields of a configuration word: bits 15:0, bits 31:16 and bit 0 (R47 to R50). -/
theorem setWidth_low (v : CsrWord) : v.setWidth 16 = BitVec.ofNat 16 (v.toNat % 2 ^ 16) := by
  apply BitVec.eq_of_toNat_eq; simp

theorem setWidth_high (v : CsrWord) : (v >>> 16).setWidth 16 = BitVec.ofNat 16 (v.toNat / 2 ^ 16) := by
  apply BitVec.eq_of_toNat_eq; simp [Nat.shiftRight_eq_div_pow]

theorem getLsbD_zero_eq_decide (v : CsrWord) : v.getLsbD 0 = decide (v.toNat % 2 = 1) := Nat.testBit_zero _

/-- Settles O35, by BUSY and the offset. -/
theorem configurationWritesWhenIdle : Obligations.ConfigurationWritesWhenIdle := by
  intro s off v rest hturns hoff
  rw [step_csrWrite hturns, csrWrite, if_neg hoff]
  refine ⟨fun hbusy => ?_, fun hidle => ?_⟩
  · rw [csrWriteConfig_busy (s := { s with turns := rest }) hbusy]
  · have hfree : ¬ s.phase.busy = true := by simp [hidle]
    simp only [csrWriteConfig, if_neg hfree, ← setWidth_low, ← setWidth_high, ← getLsbD_zero_eq_decide]
    refine ⟨?_, ?_, ?_, ?_, ?_⟩
    · rintro rfl; rfl
    · rintro rfl; rfl
    · rintro rfl; rfl
    · rintro rfl; rfl
    · intro h1 h2 h3 h4
      rw [if_neg h1, if_neg h2, if_neg h3, if_neg h4]

end Sys2Proof.Machine
/-! ### The frame buffer and the bytes of a waiting step (20_memory.md) -/

namespace Sys2Proof.Machine

variable {s t u : State}

/-! #### The pixels an engine move adds (R62, R82, R172, R174) -/

/-- OUTOFF and the frame buffer. -/
def outputOf (s : State) : BitVec 32 × Memory := (s.outoff, s.fb)

theorem outputOf_eq_iff : outputOf t = outputOf s ↔ t.outoff = s.outoff ∧ t.fb = s.fb := by
  simp [outputOf]

/-- From `s` to `t` the cells of the output offsets added are written, and no others. -/
structure OnlyNewPixels (s t : State) : Prop where
  grows : s.outoff.toNat ≤ t.outoff.toNat
  written : ∀ p, s.outoff.toNat ≤ p → p < t.outoff.toNat →
    ∃ a v, pixelAddr s p = some a ∧ Memory.read t.fb a = some v
  kept : ∀ a, (∀ p, s.outoff.toNat ≤ p → p < t.outoff.toNat → pixelAddr s p ≠ some a) →
    Memory.read t.fb a = Memory.read s.fb a

theorem OnlyNewPixels.of_sameOutput (h : outputOf t = outputOf s) : OnlyNewPixels s t := by
  obtain ⟨hout, hfb⟩ := outputOf_eq_iff.1 h
  exact ⟨by rw [hout], fun p hlow hhigh => by rw [hout] at hhigh; omega, fun a _ => by rw [hfb]⟩

theorem sameBesidesCursor.output (h : sameBesidesCursor s t) : outputOf t = outputOf s := cursorField h outputOf

/-- Which cells are new depends on the state before only through its output and its configuration. -/
theorem OnlyNewPixels.of_sameStart (h : OnlyNewPixels u t) (hout : outputOf u = outputOf s)
    (hconf : configOf u = configOf s) : OnlyNewPixels s t := by
  obtain ⟨hoff, hfb⟩ := outputOf_eq_iff.1 hout
  obtain ⟨hcw, -, hfx, hfy, hfw, hfh, hint, -⟩ := configOf_eq_iff.1 hconf
  have haddr := pixelAddr_congr hcw hfx hfy hfw hfh hint
  obtain ⟨grows, written, kept⟩ := h
  simp only [hoff, hfb, haddr] at grows written kept
  exact ⟨grows, written, kept⟩

/-- A string written at OUTOFF is the new pixels where OUTOFF moves by its length. -/
theorem StringWritten.onlyNewPixels {str : List Byte} (h : StringWritten s str s.fb t.fb)
    (hout : t.outoff.toNat = s.outoff.toNat + str.length) : OnlyNewPixels s t where
  grows := by omega
  written p hlow hhigh := by
    obtain ⟨j, rfl⟩ := Nat.exists_eq_add_of_le hlow
    obtain ⟨a, ha, hread⟩ := h.written j _ (List.getElem?_eq_getElem (by omega))
    exact ⟨a, _, ha, hread⟩
  kept a hnew := h.kept a fun j hj => hnew _ (by omega) (by omega)

theorem frameSize_lt (s : State) : s.fw.toNat * s.fh.toNat < 2 ^ 32 :=
  calc s.fw.toNat * s.fh.toNat < 2 ^ 16 * 2 ^ 16 := Nat.mul_lt_mul'' s.fw.isLt s.fh.isLt
    _ = 2 ^ 32 := by decide

/-- OUTOFF does not wrap around inside the rectangle (R270). -/
theorem afterDataCode_outoff_toNat {len : Nat} (hroom : s.outoff.toNat + len ≤ s.fw.toNat * s.fh.toNat) (c : Code)
    (f : Byte) (p : Entry) (m : Memory) : (afterDataCode c f len p m s).outoff.toNat = s.outoff.toNat + len := by
  rw [afterDataCode_outoff, BitVec.toNat_ofNat, Nat.mod_eq_of_lt (Nat.lt_of_le_of_lt hroom (frameSize_lt s))]

theorem CursorMove.same_of_got {α : Type} {a : α} (h : CursorMove s (.got a u)) : sameBesidesCursor s u := by
  cases h with
  | got same => exact same

theorem CursorMove.same_of_terminated {α : Type} (h : CursorMove s (.terminated u : Fetch α)) :
    sameBesidesCursor s u := by
  cases h with
  | terminated same => exact same

/-- A fault of the reader leaves the output (R129, R240). -/
theorem CursorMove.outputOf_of_raised {α : Type} (h : CursorMove s (.raised u : Fetch α)) : outputOf u = outputOf s := by
  cases h with
  | raised same => exact same.output

/-- Only a data code writes pixels. -/
theorem CodeStep.onlyNewPixels (h : CodeStep s t) : OnlyNewPixels s t := by
  have hmove := getCode_move (resume s)
  cases h with
  | waits => exact .of_sameOutput rfl
  | truncated u hg => rw [hg] at hmove; exact .of_sameOutput hmove.outputOf_of_raised
  | exhausted u hg => rw [hg] at hmove; exact .of_sameOutput hmove.same_of_terminated.output
  | clear c u hg | stop c u hg | illegal c u hg | overrun c u hg | noMemory c u hg =>
    rw [hg] at hmove; exact .of_sameOutput hmove.same_of_got.output
  | data c u hg f str p m _ _ room _ output =>
    rw [hg] at hmove
    have hnew : OnlyNewPixels u (afterDataCode c f str.length p m u) :=
      StringWritten.onlyNewPixels output (afterDataCode_outoff_toNat room c f p m)
    exact hnew.of_sameStart hmove.same_of_got.output hmove.same_of_got.config

theorem headerStep_output (hp : s.phase = .hdr) (h : headerStep s = .next t) : outputOf t = outputOf s := by
  rcases headerStep_cases hp with ⟨-, -, he⟩ | ⟨-, -, he⟩ | ⟨b, rest, -, ⟨-, he⟩ | ⟨-, he⟩⟩ <;>
    cases he.symm.trans h <;> rfl

theorem drainStep_output (hp : s.phase = .drain) (h : drainStep s = .next t) : outputOf t = outputOf s := by
  rcases drainStep_cases hp with ⟨-, -, he⟩ | ⟨-, -, he⟩ | ⟨b, rest, -, ⟨-, he⟩ | ⟨-, -, he⟩ | ⟨-, -, he⟩⟩ <;>
    cases he.symm.trans h <;> rfl

theorem Inv.codeStep_onlyNewPixels (h : Inv s) (hp : s.phase = .run) (hs : Machine.codeStep s = .next t) :
    OnlyNewPixels s t := by
  obtain ⟨t', ht', hcase⟩ := codeStep_cases h hp (addressesGood_of_geometryFits (h.decoding (.inl hp)).geometry)
  cases ht'.symm.trans hs
  exact hcase.onlyNewPixels

theorem Inv.engineStep_onlyNewPixels (h : Inv s) (hs : Machine.engineStep s = .next t) : OnlyNewPixels s t := by
  unfold Machine.engineStep at hs
  cases hp : s.phase with
  | hdr => rw [hp] at hs; exact .of_sameOutput (headerStep_output hp hs)
  | run => rw [hp] at hs; exact h.codeStep_onlyNewPixels hp hs
  | drain => rw [hp] at hs; exact .of_sameOutput (drainStep_output hp hs)
  | idle | done | fault => rw [hp] at hs; cases hs; exact .of_sameOutput rfl

/-- Settles O56: of the engine's steps only a data code writes pixels, and it writes its string at OUTOFF. -/
theorem engineWritesOnlyTheNewPixels : Obligations.EngineWritesOnlyTheNewPixels := by
  intro s t h he hs
  have hafter : OnlyNewPixels (afterTurn s) t :=
    (h.withTurns s.turns.tail).engineStep_onlyNewPixels ((step_engine he).symm.trans hs)
  obtain ⟨grows, written, kept⟩ := hafter.of_sameStart (s := s) rfl rfl
  exact ⟨grows, written, kept⟩

/-! #### Frame-buffer accesses (R60, R68, R76, R77) -/

/-- Settles O45, by what a read after a write returns. -/
theorem frameBufferWriteSetsOneCell : Obligations.FrameBufferWriteSetsOneCell := fun s a v =>
  ⟨fun b => Memory.read_write s.fb a b v, fun h => Memory.wf_write h a v, rfl⟩

theorem Memory.value_of_read {m : Memory} {a : Nat} {v : Byte} (h : Memory.read m a = some v) :
    Memory.value m a = v := by
  rw [Memory.value, h]

theorem step_fbWrite_idle {addr : CsrWord} {v : Byte} {rest : List Turn}
    (h : s.turns = .host (.fbWrite addr v) :: rest) (hidle : s.phase.busy = false) :
    step s = .next (fbWrite addr.toNat v { s with turns := rest }) :=
  (step_of_turns h).trans (if_neg (by simp [hidle]))

theorem step_fbWrite_busy {addr : CsrWord} {v : Byte} {rest : List Turn}
    (h : s.turns = .host (.fbWrite addr v) :: rest) (hbusy : s.phase.busy = true) :
    step s = .refused .frameBufferWhileBusy :=
  (step_of_turns h).trans (if_pos hbusy)

theorem step_fbRead_idle {addr : CsrWord} {rest : List Turn} (h : s.turns = .host (.fbRead addr) :: rest)
    (hidle : s.phase.busy = false) :
    step s = .next
      { s with turns := rest, returned := some ((Memory.value s.fb addr.toNat).setWidth 32) } :=
  (step_of_turns h).trans (if_neg (by simp [hidle]))

theorem step_fbRead_busy {addr : CsrWord} {rest : List Turn} (h : s.turns = .host (.fbRead addr) :: rest)
    (hbusy : s.phase.busy = true) : step s = .refused .frameBufferWhileBusy :=
  (step_of_turns h).trans (if_pos hbusy)

/-- Settles O36, by BUSY and the access. -/
theorem hostReachesTheFrameBufferWhenIdle : Obligations.HostReachesTheFrameBufferWhenIdle := by
  intro s addr v rest
  refine ⟨fun hturns hidle => ?_, fun hturns hidle => ?_, fun hbusy => ⟨fun hturns => ?_, fun hturns => ?_⟩⟩
  · exact ⟨_, step_fbWrite_idle hturns hidle, rfl, rfl, fun a => Memory.read_write s.fb addr.toNat a v⟩
  · refine ⟨_, step_fbRead_idle hturns hidle, fun x hx => ?_⟩
    rw [Memory.value_of_read hx, BitVec.toNat_setWidth_of_le (by decide)]
  · exact step_fbWrite_busy hturns hbusy
  · exact step_fbRead_busy hturns hbusy

/-! #### A code step that waits (R67, R120, U9) -/

theorem engineStep_run (h : s.phase = .run) : engineStep s = codeStep s := by
  rw [engineStep, h]

theorem codeStep_waiting (h : getCode (resume s) = .waiting) : codeStep s = .next (stall s) := by
  rw [codeStep, h, Fetch.finish]

/-- Settles O57: waiting moves the source's bytes to the step, which reads them back before the later ones; ABORT and
reset empty them. -/
theorem waitingStepKeepsItsBytes : Obligations.WaitingStepKeepsItsBytes := by
  intro s hp
  refine ⟨fun hwait => ?_, fun more ended => ?_, ?_, fun rest hturns => ?_⟩
  · exact ⟨stall s, (engineStep_run hp).trans (codeStep_waiting hwait), rfl, rfl, rfl⟩
  · rw [engineStep_run (s := { stall s with source := more, sourceEnded := ended }) hp, codeStep_stall,
      engineStep_run (s := { s with source := s.source ++ more, sourceEnded := ended }) hp]
  · exact ⟨_, rfl, rfl, rfl⟩
  · exact ⟨_, step_of_turns (s := stall s) hturns, rfl, rfl⟩

end Sys2Proof.Machine
/-! ### Encoding (30_encoding.md)

The lines of R100 as a relation between a context, a code and its item; decoding and the rows' conditions each agree with
it. -/

namespace Sys2Proof

open Sys2Proof.Machine Sys2Proof.Claims

/-! #### Words -/

/-- Settles O1: each word is decoded by evaluation. -/
theorem wordsOfTheTableDecode : Obligations.WordsOfTheTableDecode := by
  unfold Obligations.WordsOfTheTableDecode
  decide

theorem length_leBytes (k w : Nat) : (leBytes k w).length = k := by
  induction k generalizing w with
  | zero => rfl
  | succ k ih => rw [leBytes, List.length_cons, ih]

theorem leNat_leBytes (k w : Nat) : leNat (leBytes k w) = w % 256 ^ k := by
  induction k generalizing w with
  | zero => rw [Nat.pow_zero, Nat.mod_one]; rfl
  | succ k ih => rw [leBytes, leNat_cons, ih, BitVec.toNat_ofNat, pow_succ' 256 k, Nat.mod_mul]

/-- A code written in two bytes is read back at every width that holds it (R94, R95). -/
theorem decode_codeBytes (x : CodeCtx) {kw : Nat} {c : Code} (hc : c.toNat < 2 ^ kw) (hkw : kw ≤ 12) :
    decode (.code x kw) (encodingBytes (.code c)) = decodeCode x c := by
  have hval : leNat (leBytes 2 c.toNat) % 2 ^ kw = c.toNat := by
    rw [leNat_leBytes, Nat.mod_eq_of_lt (Nat.lt_trans c.isLt (by decide)), Nat.mod_eq_of_lt hc]
  rw [decode, encodingBytes, length_leBytes, if_neg (by omega), hval, BitVec.ofNat_toNat, BitVec.setWidth_eq]

/-! #### The classes of codes (R100) -/

/-- The item `i` is the one of the line of R100 that matches the code `c` in the context `x`. -/
inductive ClassLine (x : CodeCtx) (c : Code) : Instr → Prop
  | clr {i : Instr} (hc : c.toNat = 2 ^ x.n) (hi : clrOf x.n = some i) : ClassLine x c i
  | stop {i : Instr} (hc : c.toNat = 2 ^ x.n + 1) (hi : stopOf x.n = some i) : ClassLine x c i
  | lit {i : Instr} (hc : c.toNat < 2 ^ x.n) (hi : litOf x.n c = some i) : ClassLine x c i
  | ref (hc : 2 ^ x.n + 1 < c.toNat) (hlt : c.toNat < x.nent) : ClassLine x c (.ref c)
  | kwk (hc : 2 ^ x.n + 1 < c.toNat) (hk : isKwk x c = true) : ClassLine x c (.kwk c)
  | illegal (hc : 2 ^ x.n + 1 < c.toNat) (hge : x.nent ≤ c.toNat) (hk : isKwk x c = false) :
      ClassLine x c (.illegal c)

theorem isKwk_iff {x : CodeCtx} {c : Code} :
    isKwk x c = true ↔ c.toNat = x.nent ∧ x.frozen = false ∧ x.prevv = true := by
  simp [isKwk, and_assoc]

/-- With a legal code size (R91) the decoder starts at the first line of R100. -/
theorem decodeCode_legal {x : CodeCtx} (hn : 2 ≤ x.n ∧ x.n ≤ 8) (c : Code) :
    decodeCode x c =
      if c.toNat = 2 ^ x.n then clrOf x.n
      else if c.toNat = 2 ^ x.n + 1 then stopOf x.n
      else if c.toNat < 2 ^ x.n then litOf x.n c
      else if c.toNat < x.nent then some (.ref c)
      else if isKwk x c then some (.kwk c)
      else some (.illegal c) :=
  if_neg (by simp only [Bool.or_eq_true, decide_eq_true_eq]; exact fun h => h.elim hn.1.not_gt hn.2.not_gt)

variable {x : CodeCtx} {c : Code} {i : Instr}

/-- The decoder follows the lines of R100. -/
theorem ClassLine.decodeCode (h : ClassLine x c i) (hn : 2 ≤ x.n ∧ x.n ≤ 8) : decodeCode x c = some i := by
  rw [decodeCode_legal hn]
  cases h with
  | clr hc hi => rw [if_pos hc, hi]
  | stop hc hi => rw [if_neg (by omega), if_pos hc, hi]
  | lit hc hi => rw [if_neg (by omega), if_neg (by omega), if_pos hc, hi]
  | ref hc hlt => rw [if_neg (by omega), if_neg (by omega), if_neg (by omega), if_pos hlt]
  | kwk hc hk =>
    have hnent := (isKwk_iff.1 hk).1
    rw [if_neg (by omega), if_neg (by omega), if_neg (by omega), if_neg (by omega), if_pos hk]
  | illegal hc hge hk =>
    rw [if_neg (by omega), if_neg (by omega), if_neg (by omega), if_neg (by omega), hk, if_neg Bool.false_ne_true]

theorem legalSize_cases {n : Nat} (hn : 2 ≤ n ∧ n ≤ 8) :
    n = 2 ∨ n = 3 ∨ n = 4 ∨ n = 5 ∨ n = 6 ∨ n = 7 ∨ n = 8 := by omega

/-- Every legal code size has a row of each of the classes CLR, STOP and LIT. -/
theorem exists_rows {n : Nat} (hn : 2 ≤ n ∧ n ≤ 8) (c : Code) :
    (∃ i, clrOf n = some i) ∧ (∃ i, stopOf n = some i) ∧ ∃ i, litOf n c = some i := by
  rcases legalSize_cases hn with rfl | rfl | rfl | rfl | rfl | rfl | rfl <;> exact ⟨⟨_, rfl⟩, ⟨_, rfl⟩, ⟨_, rfl⟩⟩

/-- Some line matches every code (R100). -/
theorem exists_classLine (hn : 2 ≤ x.n ∧ x.n ≤ 8) (c : Code) : ∃ i, ClassLine x c i := by
  obtain ⟨⟨i, hi⟩, ⟨j, hj⟩, ⟨k, hk⟩⟩ := exists_rows hn c
  rcases Nat.lt_trichotomy c.toNat (2 ^ x.n) with hlt | heq | hgt
  · exact ⟨k, .lit hlt hk⟩
  · exact ⟨i, .clr heq hi⟩
  · rcases Nat.eq_or_lt_of_le (Nat.succ_le_of_lt hgt) with heq | hgt
    · exact ⟨j, .stop heq.symm hj⟩
    · rcases Nat.lt_or_ge c.toNat x.nent with hlt | hge
      · exact ⟨_, .ref hgt hlt⟩
      · cases hkwk : isKwk x c with
        | true => exact ⟨_, .kwk hgt hkwk⟩
        | false => exact ⟨_, .illegal hgt hge hkwk⟩

/-! #### The rows and their encodings (R101 to R106) -/

theorem encode_clrOf {n : Nat} (hi : clrOf n = some i) (hc : c.toNat = 2 ^ n) : encode i = .code c := by
  unfold clrOf at hi
  split at hi <;> cases hi <;> exact congrArg Encoding.code (BitVec.eq_of_toNat_eq hc.symm)

theorem encode_stopOf {n : Nat} (hi : stopOf n = some i) (hc : c.toNat = 2 ^ n + 1) : encode i = .code c := by
  unfold stopOf at hi
  split at hi <;> cases hi <;> exact congrArg Encoding.code (BitVec.eq_of_toNat_eq hc.symm)

/-- The low `w` bits of a code below `2^w` are the code. -/
theorem setWidth_root {w : Nat} (hc : c.toNat < 2 ^ w) : (c.setWidth w).setWidth 12 = c := by
  apply BitVec.eq_of_toNat_eq
  rw [BitVec.toNat_setWidth, BitVec.toNat_setWidth, Nat.mod_eq_of_lt hc, Nat.mod_eq_of_lt c.isLt]

theorem encode_litOf {n : Nat} (hi : litOf n c = some i) (hc : c.toNat < 2 ^ n) : encode i = .code c := by
  unfold litOf at hi
  split at hi <;> cases hi <;> exact congrArg Encoding.code (setWidth_root hc)

theorem fitsCode_clrOf (hi : clrOf x.n = some i) : fitsCode x i = true := by
  unfold clrOf at hi
  split at hi <;> cases hi <;> exact beq_iff_eq.2 ‹_›

theorem fitsCode_stopOf (hi : stopOf x.n = some i) : fitsCode x i = true := by
  unfold stopOf at hi
  split at hi <;> cases hi <;> exact beq_iff_eq.2 ‹_›

theorem fitsCode_litOf (hi : litOf x.n c = some i) : fitsCode x i = true := by
  unfold litOf at hi
  split at hi <;> cases hi <;> exact beq_iff_eq.2 ‹_›

theorem fitsCode_ref_iff :
    fitsCode x (.ref c) = true ↔ (2 ≤ x.n ∧ x.n ≤ 8) ∧ 2 ^ x.n + 1 < c.toNat ∧ c.toNat < x.nent := by
  simp only [fitsCode, Bool.and_eq_true, decide_eq_true_eq, and_assoc]
  exact Iff.rfl

theorem fitsCode_kwk_iff :
    fitsCode x (.kwk c) = true ↔ (2 ≤ x.n ∧ x.n ≤ 8) ∧ 2 ^ x.n + 1 < c.toNat ∧ isKwk x c = true := by
  simp only [fitsCode, Bool.and_eq_true, decide_eq_true_eq, and_assoc]
  exact Iff.rfl

theorem fitsCode_illegal_iff :
    fitsCode x (.illegal c) = true ↔
      (2 ≤ x.n ∧ x.n ≤ 8) ∧ 2 ^ x.n + 1 < c.toNat ∧ x.nent ≤ c.toNat ∧ isKwk x c = false := by
  simp only [fitsCode, Bool.and_eq_true, Bool.not_eq_true', decide_eq_true_eq, and_assoc]
  exact Iff.rfl

theorem legalSize_of_fits (hfit : fitsCode x i = true) : 2 ≤ x.n ∧ x.n ≤ 8 := by
  cases i
  case ref c => exact (fitsCode_ref_iff.1 hfit).1
  case kwk c => exact (fitsCode_kwk_iff.1 hfit).1
  case illegal c => exact (fitsCode_illegal_iff.1 hfit).1
  case codesize | sublen | term | start | abort | row => cases hfit
  all_goals
    have hn := beq_iff_eq.1 hfit
    omega

/-- The item of a line encodes to the code and meets its row's condition. -/
theorem ClassLine.row (h : ClassLine x c i) (hn : 2 ≤ x.n ∧ x.n ≤ 8) : encode i = .code c ∧ fitsCode x i = true := by
  cases h with
  | clr hc hi => exact ⟨encode_clrOf hi hc, fitsCode_clrOf hi⟩
  | stop hc hi => exact ⟨encode_stopOf hi hc, fitsCode_stopOf hi⟩
  | lit hc hi => exact ⟨encode_litOf hi hc, fitsCode_litOf hi⟩
  | ref hc hlt => exact ⟨rfl, fitsCode_ref_iff.2 ⟨hn, hc, hlt⟩⟩
  | kwk hc hk => exact ⟨rfl, fitsCode_kwk_iff.2 ⟨hn, hc, hk⟩⟩
  | illegal hc hge hk => exact ⟨rfl, fitsCode_illegal_iff.2 ⟨hn, hc, hge, hk⟩⟩

/-- A colour index of `w` bits, zero-extended to a code, is below CLEAR and its low `w` bits are the index (R103). -/
theorem root_setWidth {w : Nat} (k : BitVec w) (hw : w ≤ 12) :
    (k.setWidth 12).toNat < 2 ^ w ∧ (k.setWidth 12).setWidth w = k := by
  have hk : (k.setWidth 12).toNat = k.toNat := by
    rw [BitVec.toNat_setWidth, Nat.mod_eq_of_lt (Nat.lt_of_lt_of_le k.isLt (Nat.pow_le_pow_right (by decide) hw))]
  exact ⟨hk ▸ k.isLt, BitVec.eq_of_toNat_eq (by rw [BitVec.toNat_setWidth, hk, Nat.mod_eq_of_lt k.isLt])⟩

/-- The line of a LIT item of code size `w`: its code is a root, whose low bits are the index. -/
theorem classLine_lit {w : Nat} {mk : BitVec w → Instr} (hrow : ∀ c, litOf w c = some (mk (c.setWidth w)))
    (hw : w ≤ 12) {k : BitVec w} (hn : x.n = w) (hc : k.setWidth 12 = c) : ClassLine x c (mk k) := by
  subst hn hc
  obtain ⟨hlt, hk⟩ := root_setWidth k hw
  exact .lit hlt (by rw [hrow, hk])

/-- An item with a code that meets its row's condition is the item of the line that matches the code. -/
theorem classLine_of_fits (henc : encode i = .code c) (hfit : fitsCode x i = true) : ClassLine x c i := by
  cases i
  case clrN2 | clrN3 | clrN4 | clrN5 | clrN6 | clrN7 | clrN8 =>
    have hn := beq_iff_eq.1 hfit
    cases henc
    exact .clr (by rw [hn]; rfl) (by rw [hn]; rfl)
  case stopN2 | stopN3 | stopN4 | stopN5 | stopN6 | stopN7 | stopN8 =>
    have hn := beq_iff_eq.1 hfit
    cases henc
    exact .stop (by rw [hn]; rfl) (by rw [hn]; rfl)
  case litN2 k | litN3 k | litN4 k | litN5 k | litN6 k | litN7 k | litN8 k =>
    exact classLine_lit (fun _ => rfl) (by decide) (beq_iff_eq.1 hfit) (Encoding.code.inj henc)
  case ref d =>
    cases henc
    obtain ⟨-, hc, hlt⟩ := fitsCode_ref_iff.1 hfit
    exact .ref hc hlt
  case kwk d =>
    cases henc
    obtain ⟨-, hc, hk⟩ := fitsCode_kwk_iff.1 hfit
    exact .kwk hc hk
  case illegal d =>
    cases henc
    obtain ⟨-, hc, hge, hk⟩ := fitsCode_illegal_iff.1 hfit
    exact .illegal hc hge hk
  case codesize | sublen | term | start | abort | row => cases hfit

/-- An item with a code that meets its row's condition is what the code decodes to. -/
theorem decodeCode_of_fits (henc : encode i = .code c) (hfit : fitsCode x i = true) : decodeCode x c = some i :=
  (classLine_of_fits henc hfit).decodeCode (legalSize_of_fits hfit)

/-- Settles O3: each clause is a line of R100; some line matches, and an item that meets its row's condition is the one
the decoder gives. -/
theorem everyCodeFallsInOneClass : Obligations.EveryCodeFallsInOneClass := by
  intro x c h2 h8
  have hn := And.intro h2 h8
  obtain ⟨⟨clr, hclr⟩, ⟨stop, hstop⟩, ⟨lit, hlit⟩⟩ := exists_rows hn c
  obtain ⟨i, hi⟩ := exists_classLine hn c
  obtain ⟨henc, hfit⟩ := hi.row hn
  refine ⟨fun hc => ?_, fun hc => ?_, fun hc => ?_, fun hc hlt => ?_, fun hc heq hf hp => ?_, fun hc hnot => ?_,
    i, hi.decodeCode hn, henc, hfit, fun j hj hjfit => ?_⟩
  · exact hclr ▸ (ClassLine.clr hc hclr).decodeCode hn
  · exact hstop ▸ (ClassLine.stop hc hstop).decodeCode hn
  · exact hlit ▸ (ClassLine.lit hc hlit).decodeCode hn
  · exact (ClassLine.ref hc hlt).decodeCode hn
  · exact (ClassLine.kwk hc (isKwk_iff.2 ⟨heq, hf, hp⟩)).decodeCode hn
  · have hk : isKwk x c = false := by
      rw [← Bool.not_eq_true, isKwk_iff]
      rintro ⟨heq, hf, hp⟩
      rcases hnot with hgt | ⟨-, hf' | hp'⟩
      · omega
      · exact Bool.false_ne_true (hf.symm.trans hf')
      · exact Bool.false_ne_true (hp'.symm.trans hp)
    exact (ClassLine.illegal hc (by omega) hk).decodeCode hn
  · exact Option.some.inj ((decodeCode_of_fits hj hjfit).symm.trans (hi.decodeCode hn))

/-! #### Slots (R90, R94, R112) -/

/-- What stands at a code slot has a code that fits the width, and meets its row's condition. -/
theorem standsAt_code_iff {kw : Nat} :
    standsAt (.code x kw) i = true ↔
      ∃ c, encode i = .code c ∧ fitsCode x i = true ∧ c.toNat < 2 ^ kw ∧ kw ≤ 12 := by
  rw [standsAt]
  cases henc : encode i <;> simp [and_assoc]

/-- An item with a code that meets its row's condition stands at a slot of full width. -/
theorem exists_slot (x : CodeCtx) (henc : encode i = .code c) (hfit : fitsCode x i = true) :
    ∃ slot, standsAt slot i = true :=
  ⟨.code x 12, standsAt_code_iff.2 ⟨c, henc, hfit, c.isLt, Nat.le_refl _⟩⟩

/-- Decoding at a slot inverts the encoding of what stands there. -/
theorem decode_encodeBytes {slot : Slot} (h : standsAt slot i = true) : decode slot (encodeBytes i) = some i := by
  cases slot with
  | code x kw =>
    obtain ⟨c, henc, hfit, hc, hkw⟩ := standsAt_code_iff.1 h
    rw [encodeBytes, henc, decode_codeBytes x hc hkw, decodeCode_of_fits henc hfit]
  | codeSize =>
    cases i
    case codesize => rfl
    all_goals cases h
  | length =>
    cases i
    case sublen l => exact congrArg some (if_neg (of_decide_eq_true h))
    case term => rfl
    all_goals cases h
  | ctrl =>
    cases i
    case start | abort => rfl
    all_goals cases h

/-- Every well-formed item but ROW has a slot (R109). -/
theorem exists_slot_of_wellFormed (hwf : i.wellFormed = true) :
    (∃ y h, i = .row y h) ∨ ∃ slot, standsAt slot i = true := by
  have legal : 2 ≤ 2 ∧ 2 ≤ 8 := by decide
  cases i
  case row y h => exact .inl ⟨y, h, rfl⟩
  case codesize b => exact .inr ⟨.codeSize, rfl⟩
  case sublen l => exact .inr ⟨.length, hwf⟩
  case term => exact .inr ⟨.length, rfl⟩
  case start | abort => exact .inr ⟨.ctrl, rfl⟩
  case ref c =>
    have hc : 6 ≤ c.toNat := of_decide_eq_true hwf
    exact .inr (exists_slot { n := 2, nent := c.toNat + 1, frozen := false, prevv := false } rfl
      (fitsCode_ref_iff.2 ⟨legal, hc, Nat.lt_succ_self _⟩))
  case kwk c =>
    have hc : 6 ≤ c.toNat := of_decide_eq_true hwf
    exact .inr (exists_slot { n := 2, nent := c.toNat, frozen := false, prevv := true } rfl
      (fitsCode_kwk_iff.2 ⟨legal, hc, isKwk_iff.2 ⟨rfl, rfl, rfl⟩⟩))
  case illegal c =>
    have hc : 6 ≤ c.toNat := of_decide_eq_true hwf
    exact .inr (exists_slot (freshCtx 2) rfl
      (fitsCode_illegal_iff.2 ⟨legal, hc, hc, Bool.and_false _⟩))
  case clrN2 | stopN2 | litN2 => exact .inr (exists_slot (freshCtx 2) rfl rfl)
  case clrN3 | stopN3 | litN3 => exact .inr (exists_slot (freshCtx 3) rfl rfl)
  case clrN4 | stopN4 | litN4 => exact .inr (exists_slot (freshCtx 4) rfl rfl)
  case clrN5 | stopN5 | litN5 => exact .inr (exists_slot (freshCtx 5) rfl rfl)
  case clrN6 | stopN6 | litN6 => exact .inr (exists_slot (freshCtx 6) rfl rfl)
  case clrN7 | stopN7 | litN7 => exact .inr (exists_slot (freshCtx 7) rfl rfl)
  case clrN8 | stopN8 | litN8 => exact .inr (exists_slot (freshCtx 8) rfl rfl)

/-- Settles O2: what stands at a code slot is the item of the line that matches its code; the other slots read one word
each. -/
theorem decodeInvertsEncode : Obligations.DecodeInvertsEncode :=
  ⟨fun _ _ => decode_encodeBytes, fun _ => exists_slot_of_wellFormed⟩

end Sys2Proof
/-! ### The packer (R111): sub-blocks and the layout of codes -/

namespace Sys2Proof

open Sys2Proof.Machine Sys2Proof.Claims

/-! #### Sub-blocks (R92, R93, R123) -/

/-- What is left of the current sub-block comes first, then the payload of the sub-blocks after it. -/
theorem payloadFrom_append (bytes rest : List Byte) :
    payloadFrom bytes.length (bytes ++ rest) = bytes ++ payloadFrom 0 rest := by
  induction bytes with
  | nil => rfl
  | cons b bytes ih => exact (payloadFrom_succ _ b _).trans (congrArg (b :: ·) ih)

/-- A sub-block is read back as its bytes (R92). -/
theorem payloadFrom_subBlock {bytes : List Byte} (hpos : 1 ≤ bytes.length) (hle : bytes.length ≤ 255)
    (rest : List Byte) :
    payloadFrom 0 (BitVec.ofNat 8 bytes.length :: (bytes ++ rest)) = bytes ++ payloadFrom 0 rest := by
  have hlen : (BitVec.ofNat 8 bytes.length).toNat = bytes.length := by
    rw [BitVec.toNat_ofNat, Nat.mod_eq_of_lt (by omega)]
  have hne : BitVec.ofNat 8 bytes.length ≠ 0 := fun h0 =>
    absurd (hlen.symm.trans (congrArg BitVec.toNat h0)) (Nat.ne_of_gt hpos)
  rw [payloadFrom_zero, if_neg hne, hlen, payloadFrom_append]

/-- A chunk's length byte counts the bytes taken. -/
theorem packChunks_cons (L fuel : Nat) (b : Byte) (bytes : List Byte) :
    packChunks L (fuel + 1) (b :: bytes) =
      BitVec.ofNat 8 ((b :: bytes).take L).length ::
        ((b :: bytes).take L ++ packChunks L fuel ((b :: bytes).drop L)) := by
  rw [packChunks, List.length_take, List.length_cons]

/-- With fuel for one sub-block per byte the whole payload is cut. -/
theorem payloadFrom_packChunks {L : Nat} (hpos : 1 ≤ L) (hle : L ≤ 255) (rest : List Byte) {fuel : Nat}
    {bytes : List Byte} (hfuel : bytes.length ≤ fuel) :
    payloadFrom 0 (packChunks L fuel bytes ++ 0 :: rest) = bytes := by
  induction fuel generalizing bytes with
  | zero =>
    rw [List.eq_nil_of_length_eq_zero (Nat.le_zero.1 hfuel)]
    rfl
  | succ fuel ih =>
    cases bytes with
    | nil => rfl
    | cons b bytes =>
      have hdrop : ((b :: bytes).drop L).length ≤ fuel := by
        rw [List.length_drop]
        omega
      have htake : 1 ≤ ((b :: bytes).take L).length ∧ ((b :: bytes).take L).length ≤ 255 := by
        rw [List.length_take, List.length_cons]
        omega
      rw [packChunks_cons, List.cons_append, List.append_assoc, payloadFrom_subBlock htake.1 htake.2, ih hdrop,
        List.take_append_drop]

/-- Settles O4. -/
theorem cuttingIntoSubBlocksKeepsThePayload : Obligations.CuttingIntoSubBlocksKeepsThePayload :=
  fun _ _ rest hpos hle => payloadFrom_packChunks hpos hle rest (Nat.le_refl _)

/-! #### Bits from the lowest upward (R64, R111) -/

/-- The width state of the packer, on which the widths of later codes depend. -/
def widthOf (p : Packer) : Nat × Nat × Bool × Bool := (p.kw, p.nent, p.frozen, p.prevv)

/-- The bits packed so far as one number: the payload, then the accumulator (R64). -/
def packedBits (p : Packer) : Nat := leNat p.payload + 2 ^ (8 * p.payload.length) * p.acc

/-- How many bits `packedBits` has. -/
def packedCount (p : Packer) : Nat := 8 * p.payload.length + p.nb

theorem widthOf_packFlush (fuel : Nat) (p : Packer) : widthOf (packFlush fuel p) = widthOf p := by
  induction fuel generalizing p with
  | zero => rfl
  | succ fuel ih =>
    rw [packFlush]
    split
    · rfl
    · exact ih _

@[simp] theorem packWidth_acc (n c : Nat) (p : Packer) : (packWidth n c p).acc = p.acc := by
  simp only [packWidth]
  split_ifs <;> rfl

@[simp] theorem packWidth_nb (n c : Nat) (p : Packer) : (packWidth n c p).nb = p.nb := by
  simp only [packWidth]
  split_ifs <;> rfl

@[simp] theorem packWidth_payload (n c : Nat) (p : Packer) : (packWidth n c p).payload = p.payload := by
  simp only [packWidth]
  split_ifs <;> rfl

/-- The width state after a code depends on the width state before it only. -/
theorem widthOf_packWidth_congr {p q : Packer} (h : widthOf p = widthOf q) (n c : Nat) :
    widthOf (packWidth n c p) = widthOf (packWidth n c q) := by
  simp only [widthOf, Prod.mk.injEq] at h
  obtain ⟨hkw, hnent, hfrozen, hprevv⟩ := h
  simp only [packWidth, hkw, hnent, hfrozen, hprevv]
  split_ifs <;> simp [widthOf, *]

theorem packedNumber_congr {p q : Packer} (h : widthOf p = widthOf q) (n : Nat) (codes : List Nat) :
    packedNumber n codes p = packedNumber n codes q := by
  induction codes generalizing p q with
  | nil => rfl
  | cons c codes ih =>
    have hkw : p.kw = q.kw := congrArg Prod.fst h
    rw [packedNumber, packedNumber, hkw, ih (widthOf_packWidth_congr h n c)]

theorem leNat_append (l m : List Byte) : leNat (l ++ m) = leNat l + 2 ^ (8 * l.length) * leNat m := by
  induction l with
  | nil => simp [leNat]
  | cons b l ih =>
    rw [List.cons_append, leNat_cons, leNat_cons, ih, List.length_cons, Nat.mul_succ, Nat.pow_add]
    ring

/-- Widths stay within 12 bits (R148): the width grows before the table reaches 4096 entries only. -/
theorem packWidth_kw_le {n : Nat} (hn : n ≤ 8) (c : Nat) {p : Packer} (hp : p.kw ≤ 12) : (packWidth n c p).kw ≤ 12 := by
  simp only [packWidth]
  split_ifs with hclear hstop hgrow hfull hwiden
  · exact Nat.le_trans (Nat.succ_le_succ hn) (by decide)
  · exact hp
  · exact hp
  · have : p.kw ≠ 12 := fun h12 => hfull (hwiden.trans (by rw [h12]; rfl))
    exact Nat.lt_of_le_of_ne hp this
  · exact hp
  · exact hp

/-- One round of the flush: the accumulator's low byte goes to the payload. -/
def moveByte (p : Packer) : Packer :=
  { p with acc := p.acc / 256, nb := p.nb - 8, payload := p.payload ++ [BitVec.ofNat 8 p.acc] }

theorem packFlush_succ (fuel : Nat) (p : Packer) :
    packFlush (fuel + 1) p = if p.nb < 8 then p else packFlush fuel (moveByte p) := rfl

theorem packedBits_moveByte (p : Packer) : packedBits (moveByte p) = packedBits p := by
  have hsplit : p.acc % 2 ^ 8 + 256 * (p.acc / 256) = p.acc := Nat.mod_add_div _ _
  simp only [packedBits, moveByte, leNat_append, leNat, BitVec.toNat_ofNat, List.length_append,
    List.length_singleton, Nat.mul_add, Nat.pow_add]
  calc _ = leNat p.payload + 2 ^ (8 * p.payload.length) * (p.acc % 2 ^ 8 + 256 * (p.acc / 256)) := by ring
    _ = _ := by rw [hsplit]

theorem packedCount_moveByte {p : Packer} (hnb : 8 ≤ p.nb) : packedCount (moveByte p) = packedCount p := by
  simp only [packedCount, moveByte, List.length_append, List.length_singleton]
  omega

theorem moveByte_acc_lt {p : Packer} (hnb : 8 ≤ p.nb) (hacc : p.acc < 2 ^ p.nb) :
    (moveByte p).acc < 2 ^ (moveByte p).nb := by
  have hpow : 2 ^ p.nb = 256 * 2 ^ (p.nb - 8) := (pow_mul_pow_sub 2 hnb).symm
  exact Nat.div_lt_of_lt_mul (hpow ▸ hacc)

/-- Moving bytes to the payload keeps the bits packed and how many they are. -/
theorem packFlush_bits (fuel : Nat) {p : Packer} (hacc : p.acc < 2 ^ p.nb) :
    packedBits (packFlush fuel p) = packedBits p ∧ packedCount (packFlush fuel p) = packedCount p ∧
      (packFlush fuel p).acc < 2 ^ (packFlush fuel p).nb := by
  induction fuel generalizing p with
  | zero => exact ⟨rfl, rfl, hacc⟩
  | succ fuel ih =>
    rw [packFlush_succ]
    split
    · exact ⟨rfl, rfl, hacc⟩
    · next hnb =>
      have h8 := Nat.le_of_not_lt hnb
      rw [← packedBits_moveByte p, ← packedCount_moveByte h8]
      exact ih (moveByte_acc_lt h8 hacc)

/-- Each byte moved leaves 8 bits fewer. -/
theorem packFlush_nb_lt (fuel : Nat) {p : Packer} (hnb : p.nb < 8 * (fuel + 1)) : (packFlush fuel p).nb < 8 := by
  induction fuel generalizing p with
  | zero => exact hnb
  | succ fuel ih =>
    rw [packFlush_succ]
    split
    · assumption
    · exact ih (Nat.sub_lt_left_of_lt_add (by omega) (by omega))

/-- Between two codes fewer than 8 bits wait in the accumulator, and widths are at most 12 bits (R111). -/
structure Packer.Between (p : Packer) : Prop where
  held : p.nb < 8
  fits : p.acc < 2 ^ p.nb
  width : p.kw ≤ 12

/-- The packer with a code put above the bits in its accumulator. -/
def putCode (c : Nat) (p : Packer) : Packer := { p with acc := p.acc + c * 2 ^ p.nb, nb := p.nb + p.kw }

theorem packCode_some {n c : Nat} {p q : Packer} (h : packCode n c p = some q) :
    c < 2 ^ p.kw ∧ q = packWidth n c (packFlush 2 (putCode c p)) := by
  rw [packCode] at h
  split at h
  · exact ⟨‹_›, (Option.some.inj h).symm⟩
  · cases h

theorem putCode_acc_lt {c : Nat} {p : Packer} (hacc : p.acc < 2 ^ p.nb) (hc : c < 2 ^ p.kw) :
    (putCode c p).acc < 2 ^ (putCode c p).nb :=
  calc p.acc + c * 2 ^ p.nb < 2 ^ p.nb + c * 2 ^ p.nb := Nat.add_lt_add_right hacc _
    _ = (c + 1) * 2 ^ p.nb := by ring
    _ ≤ 2 ^ p.kw * 2 ^ p.nb := Nat.mul_le_mul_right _ hc
    _ = 2 ^ (p.nb + p.kw) := by rw [Nat.pow_add, Nat.mul_comm]

theorem packedBits_putCode (c : Nat) (p : Packer) :
    packedBits (putCode c p) = packedBits p + 2 ^ packedCount p * c := by
  simp only [packedBits, packedCount, putCode, Nat.pow_add]
  ring

theorem packedCount_putCode (c : Nat) (p : Packer) : packedCount (putCode c p) = packedCount p + p.kw :=
  (Nat.add_assoc _ _ _).symm

/-- A code is packed above the bits before it, at the width of the packer's state. -/
theorem packCode_bits {n c : Nat} {p q : Packer} (hp : p.Between) (h : packCode n c p = some q) :
    packedBits q = packedBits p + 2 ^ packedCount p * c ∧ packedCount q = packedCount p + p.kw := by
  obtain ⟨hc, rfl⟩ := packCode_some h
  obtain ⟨hbits, hcount, -⟩ := packFlush_bits 2 (putCode_acc_lt hp.fits hc)
  rw [packedBits_putCode] at hbits
  rw [packedCount_putCode] at hcount
  simp only [packedBits, packedCount, packWidth_acc, packWidth_nb, packWidth_payload] at hbits hcount ⊢
  exact ⟨hbits, hcount⟩

/-- After a code the width state is the one `packedNumber` goes on with. -/
theorem packCode_width {n c : Nat} {p q : Packer} (h : packCode n c p = some q) :
    widthOf q = widthOf (packWidth n c p) := by
  obtain ⟨-, rfl⟩ := packCode_some h
  exact widthOf_packWidth_congr (q := p) (widthOf_packFlush 2 (putCode c p)) n c

theorem Packer.Between.packCode {n c : Nat} {p q : Packer} (hp : p.Between) (hn : n ≤ 8)
    (h : packCode n c p = some q) : q.Between := by
  have hkw : q.kw = (packWidth n c p).kw := congrArg Prod.fst (packCode_width h)
  obtain ⟨hc, rfl⟩ := packCode_some h
  have hnb : (putCode c p).nb < 8 * (2 + 1) :=
    Nat.lt_of_lt_of_le (Nat.add_lt_add_of_lt_of_le hp.held hp.width) (by decide)
  obtain ⟨-, -, hacc⟩ := packFlush_bits 2 (putCode_acc_lt hp.fits hc)
  exact {
    held := by rw [packWidth_nb]; exact packFlush_nb_lt 2 hnb
    fits := by rw [packWidth_acc, packWidth_nb]; exact hacc
    width := by rw [hkw]; exact packWidth_kw_le hn c hp.width }

/-- A list of codes is laid out above the bits before it. -/
theorem packCodes_bits {n : Nat} (hn : n ≤ 8) {codes : List Nat} {p q : Packer} (hp : p.Between)
    (h : packCodes n codes p = some q) :
    packedBits q = packedBits p + 2 ^ packedCount p * packedNumber n codes p ∧ q.Between := by
  induction codes generalizing p with
  | nil =>
    cases h
    exact ⟨rfl, hp⟩
  | cons c codes ih =>
    rw [packCodes] at h
    split at h
    · cases h
    · next r hr =>
      obtain ⟨hbits, hcount⟩ := packCode_bits hp hr
      obtain ⟨hrest, hq⟩ := ih (hp.packCode hn hr) h
      refine ⟨?_, hq⟩
      rw [hrest, hbits, hcount, packedNumber_congr (packCode_width hr), packedNumber, Nat.pow_add]
      ring

theorem between_packStart {n : Nat} (hn : n ≤ 8) : (packStart n).Between where
  held := Nat.zero_lt_succ 7
  fits := Nat.zero_lt_one
  width := Nat.le_trans (Nat.succ_le_succ hn) (by decide)

theorem packedBits_packStart (n : Nat) : packedBits (packStart n) = 0 := rfl
theorem packedCount_packStart (n : Nat) : packedCount (packStart n) = 0 := rfl

/-- Settles O5: from the empty packer the bits packed are the codes alone. -/
theorem packerLaysCodesOutLowBitFirst : Obligations.PackerLaysCodesOutLowBitFirst := by
  intro n codes p _ hn h
  obtain ⟨hbits, hbetween⟩ := packCodes_bits hn (between_packStart hn) h
  rw [packedBits_packStart, packedCount_packStart, Nat.pow_zero, Nat.one_mul, Nat.zero_add] at hbits
  exact ⟨hbits, hbetween.held, hbetween.fits⟩

end Sys2Proof
/-! ### The bit reader (40_bit_reader.md)

R126 is proved by rewriting: the execution of a code commutes with replacing the cut of the payload, and two readers at
the same payload take the same code. -/

namespace Sys2Proof.Machine

open Sys2Proof.Claims

variable {s t u v : State}

/-! #### Bytes of the source (R120, R122, R128) -/

/-- Settles O6, by what the source holds. -/
theorem srcNextTakesOneByte : Obligations.SrcNextTakesOneByte := fun s =>
  ⟨fun _ _ hs => ⟨srcNext_cons hs, BitVec.toNat_add s.bytecnt 1⟩, srcNext_ended, srcNext_waiting⟩

theorem lengthDue_iff : lengthDue s = true ↔ (s.phase = .run ∨ s.phase = .drain) ∧ s.subrem = 0 := by
  simp [lengthDue]

theorem exec_sublen {l : Byte} (hp : s.phase = .run ∨ s.phase = .drain) (h0 : s.subrem = 0) (hl : l ≠ 0) :
    exec (.sublen l) s = .next (loadSubBlock l s) :=
  if_pos ⟨lengthDue_iff.2 ⟨hp, h0⟩, hl⟩

/-- Settles O25: the length byte is due. -/
theorem lengthByteLoadsSubrem : Obligations.LengthByteLoadsSubrem := fun _ _ => exec_sublen

theorem exec_term_drain (hp : s.phase = .drain) (h0 : s.subrem = 0) :
    exec .term s = .next { s with termseen := true, phase := .done } := by
  rw [exec, execTerm, if_pos (lengthDue_iff.2 ⟨.inr hp, h0⟩)]
  exact if_neg (by simp [hp])

theorem exec_term_run (hp : s.phase = .run) (h0 : s.subrem = 0) :
    exec .term s = .next (raise .dataExhausted 0 { s with termseen := true }) := by
  rw [exec, execTerm, if_pos (lengthDue_iff.2 ⟨.inl hp, h0⟩)]
  exact if_pos hp

/-- Settles O26, by the phase. -/
theorem terminatorEndsTheRun : Obligations.TerminatorEndsTheRun := fun _ h0 =>
  ⟨fun hp => exec_term_drain hp h0, fun hp => exec_term_run hp h0⟩

theorem engineStep_drain (h : s.phase = .drain) : engineStep s = drainStep s := by
  rw [engineStep, h]

theorem drainStep_cons {b : Byte} {rest : List Byte} (h : s.source = b :: rest) :
    drainStep s =
      if s.subrem = 0 then exec (decodeLength b) { s with source := rest, bytecnt := s.bytecnt + 1 }
      else .next { s with source := rest, bytecnt := s.bytecnt + 1, subrem := s.subrem - 1 } := by
  rw [drainStep, srcNext_cons h]
  rfl

/-- Settles O27: a byte is payload or is executed as a length byte. -/
theorem drainStepDiscardsOneByte : Obligations.DrainStepDiscardsOneByte := by
  intro s hp
  rw [engineStep_drain hp]
  refine ⟨fun b rest hs h0 => ?_, fun b rest hs h0 hb => ?_, fun rest hs h0 => ?_, fun hs he => ?_⟩
  · rw [drainStep_cons hs, if_neg h0]
  · rw [drainStep_cons hs, if_pos h0, decodeLength, if_neg hb]
    exact exec_sublen (s := { s with source := rest, bytecnt := s.bytecnt + 1 }) (.inr hp) h0 hb
  · rw [drainStep_cons hs, if_pos h0]
    exact exec_term_drain (s := { s with source := rest, bytecnt := s.bytecnt + 1 }) hp h0
  · rw [drainStep, srcNext_ended hs he]
    rfl

theorem nextDataByte_inside (h0 : s.subrem ≠ 0) :
    nextDataByte s = (srcNext s).andThen fun b t => .got b (countPayload t) := by
  rw [nextDataByte, openSubBlock, if_neg h0]
  rfl

theorem nextDataByte_payload {b : Byte} {rest : List Byte} (h0 : s.subrem ≠ 0) (hs : s.source = b :: rest) :
    nextDataByte s = .got b { s with source := rest, bytecnt := s.bytecnt + 1, subrem := s.subrem - 1 } := by
  rw [nextDataByte_inside h0, srcNext_cons hs]
  rfl

/-- A length byte is taken, then the reader is inside its sub-block. -/
theorem nextDataByte_boundary {l : Byte} {rest : List Byte} (h0 : s.subrem = 0) (hs : s.source = l :: rest)
    (hl : l ≠ 0) :
    nextDataByte s = nextDataByte (loadSubBlock l { s with source := rest, bytecnt := s.bytecnt + 1 }) := by
  rw [nextDataByte_inside (s := loadSubBlock l { s with source := rest, bytecnt := s.bytecnt + 1 }) hl,
    nextDataByte, openSubBlock, if_pos h0, srcNext_cons hs]
  simp only [Fetch.andThen, if_neg hl]

theorem nextDataByte_terminator {rest : List Byte} (h0 : s.subrem = 0) (hs : s.source = 0 :: rest) :
    nextDataByte s = .terminated { s with source := rest, bytecnt := s.bytecnt + 1 } := by
  rw [nextDataByte, openSubBlock, if_pos h0, srcNext_cons hs]
  rfl

theorem nextDataByte_ended (hs : s.source = []) (he : s.sourceEnded = true) :
    nextDataByte s = .raised (raise .truncatedRead 0 s) := by
  by_cases h0 : s.subrem = 0
  · rw [nextDataByte, openSubBlock, if_pos h0, srcNext_ended hs he]
    rfl
  · rw [nextDataByte_inside h0, srcNext_ended hs he]
    rfl

/-- Settles O7, by SUBREM and the bytes the source holds. -/
theorem nextDataByteCrossesSubBlocks : Obligations.NextDataByteCrossesSubBlocks := by
  intro s
  refine ⟨fun b rest h0 hs => nextDataByte_payload h0 hs, fun l b rest h0 hl hs => ?_, fun rest h0 hs => ?_, nextDataByte_ended,
    fun l h0 hl hs he => ?_⟩
  · rw [nextDataByte_boundary h0 hs hl, nextDataByte_payload (b := b) (rest := rest) hl rfl]
    simp [loadSubBlock, BitVec.add_assoc]
  · exact ⟨_, nextDataByte_terminator h0 hs, rfl, fun hp => exec_term_run hp h0⟩
  · rw [nextDataByte_boundary h0 hs hl]
    exact nextDataByte_ended rfl he

/-! #### Codes (R124, R125, R129) -/

theorem unreadBits_of_payload_nil (h : payload s = []) : unreadBits s = s.bitbuf.toNat := by
  simp [unreadBits, h, leNat]

theorem unreadCount_of_payload_nil (h : payload s = []) : unreadCount s = s.bitcnt.toNat := by
  simp [unreadCount, h]

/-- Settles O8: of the ways `GetCode` can end only the code has enough bits. -/
theorem getCodeReturnsTheNextBits : Obligations.GetCodeReturnsTheNextBits := by
  intro s hkw h7 hb henough
  have hread := getCode_cases s hkw h7 hb
  generalize getCode s = g at hread ⊢
  cases hread with
  | code c t same within value bits count term held => exact ⟨c, t, rfl, value, bits, count, held, within, same⟩
  | ended t same within short few => exact absurd few (Nat.not_lt.2 henough)
  | terminated t same within short few => exact absurd few (Nat.not_lt.2 henough)
  | waiting few => exact absurd few (Nat.not_lt.2 henough)

/-- Settles O9: of the ways `GetCode` can end a code has too many bits. -/
theorem getCodeWithoutTheBits : Obligations.GetCodeWithoutTheBits := by
  intro s hkw h7 hb hshort
  have hread := getCode_cases s hkw h7 hb
  generalize getCode s = g at hread ⊢
  cases hread with
  | code c t same within value bits count => omega
  | ended t same within short few rest bits count used term finished =>
    rw [unreadBits_of_payload_nil rest] at bits
    rw [unreadCount_of_payload_nil rest] at count
    exact .inl ⟨t, rfl, same, finished, used, bits, count⟩
  | terminated t same within short few bits count term due =>
    exact .inr (.inl ⟨t, rfl, same, due, bits.symm, count.symm⟩)
  | waiting few term still => exact .inr (.inr ⟨rfl, still⟩)

/-- Settles O10: the bytes taken are those the bits that were missing ask for. -/
theorem getCodeReadsNothingAhead : Obligations.GetCodeReadsNothingAhead := by
  intro s t c hkw h7 hb hg
  have hread := getCode_cases s hkw h7 hb
  rw [hg] at hread
  cases hread with
  | code _ _ same within value bits count term held measure hbytes =>
    obtain ⟨taken, k, hsource, -, -, hlow, hhigh, hbits, hcounted⟩ := hbytes
    refine ⟨taken, k, hsource, hlow, hhigh, hbits, held, fun henough => ?_, ?_⟩
    · exact List.eq_nil_of_length_eq_zero (by omega)
    · rw [hcounted, BitVec.toNat_add, BitVec.toNat_ofNat, Nat.add_mod_mod]

/-! #### The cut into sub-blocks (R123, R126) -/

/-- `s` with the bytes before it cut, and counted so far, as before `v`. -/
def withCutOf (v s : State) : State :=
  { s with subrem := v.subrem, source := v.source, partway := v.partway, bytecnt := v.bytecnt }

/-- `s` with the bits held as `v` holds them, and cut as before `v`. -/
def withReaderOf (v s : State) : State := { withCutOf v s with bitbuf := v.bitbuf, bitcnt := v.bitcnt }

theorem withReaderOf_cursor (w : State) (h : sameBesidesCursor s u) : withReaderOf w u = withReaderOf w s :=
  cursorField h (withReaderOf w)

end Sys2Proof.Machine

namespace Sys2Proof.Claims

open Sys2Proof.Machine

variable {s t u v : State}

theorem sameButCut_iff : sameButCut s t ↔ withCutOf s t = s := .rfl

/-- A field that is not the cut's is the same. -/
theorem cutField {α : Type} (h : sameButCut s t) (f : State → α) : f (withCutOf s t) = f s :=
  congrArg f (sameButCut_iff.1 h)

theorem sameButCut.eq_withCutOf (h : sameButCut s t) : t = withCutOf t s := cutField h (withCutOf t)

theorem sameButCut.phase (h : sameButCut s t) : t.phase = s.phase := cutField h State.phase
theorem sameButCut.kw (h : sameButCut s t) : t.kw = s.kw := cutField h State.kw
theorem sameButCut.bitbuf (h : sameButCut s t) : t.bitbuf = s.bitbuf := cutField h State.bitbuf
theorem sameButCut.bitcnt (h : sameButCut s t) : t.bitcnt = s.bitcnt := cutField h State.bitcnt
theorem sameButCut.sourceEnded (h : sameButCut s t) : t.sourceEnded = s.sourceEnded := cutField h State.sourceEnded
theorem sameButCut.codeCtx (h : sameButCut s t) : codeCtx t = codeCtx s := cutField h Machine.codeCtx

theorem sameButCut.resume (h : sameButCut s t) : sameButCut (resume s) (resume t) :=
  cutField h (withCutOf (Machine.resume s))

theorem sameButCut.stall (h : sameButCut s t) : sameButCut (stall s) (stall t) :=
  cutField h (withCutOf (Machine.stall s))

theorem sameButCut.raise (h : sameButCut s t) (c : Cause) (info : BitVec 12) :
    sameButCut (raise c info s) (raise c info t) :=
  cutField h (Machine.raise c info)

theorem sameButCut.withTerminator (h : sameButCut s t) :
    sameButCut { s with termseen := true } { t with termseen := true } := by
  have hfield := cutField h fun w : State => { w with termseen := true }
  exact hfield

/-- Readers that move on to the same bits held differ in the cut only. -/
theorem sameButCut.cursor (h : sameButCut s t) (hs : sameBesidesCursor s u) (ht : sameBesidesCursor t v)
    (hbuf : v.bitbuf = u.bitbuf) (hcnt : v.bitcnt = u.bitcnt) : sameButCut u v :=
  calc withCutOf u v = withReaderOf u v := by rw [withReaderOf, ← hbuf, ← hcnt]; rfl
    _ = withReaderOf u t := withReaderOf_cursor u ht
    _ = withReaderOf u s := cutField h (withReaderOf u)
    _ = withReaderOf u u := (withReaderOf_cursor u hs).symm

end Sys2Proof.Claims

namespace Sys2Proof.Machine

open Sys2Proof.Claims

variable {s t u v : State}

/-! ##### The code read -/

/-- Readers at the same payload, whatever its cut, and with the same bits held. -/
structure SameReading (s t : State) : Prop where
  cut : sameButCut s t
  payload : payload t = payload s
  terminator : terminatorStands t = terminatorStands s

theorem SameReading.unreadBits (h : SameReading s t) : unreadBits t = unreadBits s := by
  rw [Machine.unreadBits, Machine.unreadBits, h.payload, h.cut.bitbuf, h.cut.bitcnt]

theorem SameReading.unreadCount (h : SameReading s t) : unreadCount t = unreadCount s := by
  rw [Machine.unreadCount, Machine.unreadCount, h.payload, h.cut.bitcnt]

/-- `GetCode` from `s` and from `t` ends in the same way. -/
inductive SameRead (s t : State) : Fetch Code → Fetch Code → Prop
  | got (c : Code) {u v : State} (left : sameBesidesCursor s u) (right : sameBesidesCursor t v)
      (same : SameReading u v) : SameRead s t (.got c u) (.got c v)
  | raised {u v : State} (cut : sameButCut u v) :
      SameRead s t (.raised (raise .truncatedRead 0 u)) (.raised (raise .truncatedRead 0 v))
  | terminated {u v : State} (left : sameBesidesCursor s u) (cut : sameButCut u v) (due : u.subrem = 0 ∧ v.subrem = 0) :
      SameRead s t (.terminated u) (.terminated v)
  | waiting : SameRead s t .waiting .waiting

/-- The bits held follow from their number, the unread bits and the payload. -/
theorem bitbuf_eq_of_unreadBits (hcnt : v.bitcnt = u.bitcnt) (hpay : payload v = payload u)
    (hbits : unreadBits v = unreadBits u) : v.bitbuf = u.bitbuf := by
  rw [unreadBits, unreadBits, hcnt, hpay] at hbits
  exact BitVec.eq_of_toNat_eq (Nat.add_right_cancel hbits)

theorem SameReading.getCode (h : SameReading s t) (hkw : s.kw.toNat ≤ 12) (h7 : s.bitcnt.toNat ≤ 7)
    (hb : bitsWithin s) : SameRead s t (getCode s) (getCode t) := by
  have hcount := h.unreadCount
  have hbits := h.unreadBits
  have hs := getCode_cases s hkw h7 hb
  have ht := getCode_cases t (by rwa [h.cut.kw]) (by rwa [h.cut.bitcnt])
    (by rwa [bitsWithin, h.cut.bitbuf, h.cut.bitcnt])
  generalize Machine.getCode s = x at hs ⊢
  generalize Machine.getCode t = y at ht ⊢
  have hw : t.kw.toNat = s.kw.toNat := by rw [h.cut.kw]
  have hheld : t.bitcnt.toNat = s.bitcnt.toNat := by rw [h.cut.bitcnt]
  cases hs with
  | code c u left _ value bits count term held _ taken =>
    cases ht with
    | code d v right _ value' bits' count' term' held' _ taken' =>
      obtain ⟨_, k, -, hpay, -, -, -, hk, -⟩ := taken
      obtain ⟨_, j, -, hpay', -, -, -, hj, -⟩ := taken'
      have hcd : d = c := BitVec.eq_of_toNat_eq (by rw [value, value', hbits, hw])
      have hjk : j = k := by omega
      have hcnt : v.bitcnt = u.bitcnt := BitVec.eq_of_toNat_eq (by omega)
      have hpayload : Machine.payload v = Machine.payload u := by rw [hpay, hpay', h.payload, hjk]
      have hbuf := bitbuf_eq_of_unreadBits hcnt hpayload (by rw [bits, bits', hbits, hw])
      rw [hcd]
      exact .got c left right ⟨h.cut.cursor left right hbuf hcnt, hpayload, by rw [term, term', h.terminator]⟩
    | _ => omega
  | ended u left _ _ few rest bits count _ term finished =>
    cases ht with
    | ended v right _ _ _ rest' bits' count' =>
      have hcnt : v.bitcnt = u.bitcnt := BitVec.eq_of_toNat_eq (by
        rw [← unreadCount_of_payload_nil rest, ← unreadCount_of_payload_nil rest', count, count', hcount])
      have hbuf := bitbuf_eq_of_unreadBits hcnt (rest'.trans rest.symm) (by rw [bits, bits', hbits])
      exact .raised (h.cut.cursor left right hbuf hcnt)
    | code => omega
    | terminated _ _ _ _ _ _ _ term' => rw [h.terminator, term] at term'; cases term'
    | waiting _ _ still => rw [h.cut.sourceEnded, finished] at still; cases still
  | terminated u left _ _ few bits count term due =>
    cases ht with
    | terminated v right _ _ _ bits' count' _ due' =>
      have hcnt : v.bitcnt = u.bitcnt := BitVec.eq_of_toNat_eq (by rw [← count, ← count', hcount])
      have hbuf : v.bitbuf = u.bitbuf := BitVec.eq_of_toNat_eq (by rw [← bits, ← bits', hbits])
      exact .terminated left (h.cut.cursor left right hbuf hcnt) ⟨due, due'⟩
    | code => omega
    | ended _ _ _ _ _ _ _ _ _ term' => rw [h.terminator, term] at term'; cases term'
    | waiting _ term' => rw [h.terminator, term] at term'; cases term'
  | waiting few term still =>
    cases ht with
    | waiting => exact .waiting
    | code => omega
    | ended _ _ _ _ _ _ _ _ _ _ finished => rw [h.cut.sourceEnded, still] at finished; cases finished
    | terminated _ _ _ _ _ _ _ term' => rw [h.terminator, term] at term'; cases term'

/-! ##### The execution of the code -/

/-- An outcome with its next state changed by `f`. -/
def onNext (f : State → State) : Host.Outcome State Fault Refusal → Host.Outcome State Fault Refusal
  | .next s => .next (f s)
  | .fault r => .fault r
  | .refused r => .refused r

/-- The end of a part of a data code with its state changed by `f`. -/
def Progress.onState (f : State → State) : Progress → Progress
  | .ok s => .ok (f s)
  | .raised s => .raised (f s)
  | .stop r => .stop r

theorem tableRead_withCutOf (v s : State) (i : Nat) : tableRead (withCutOf v s) i = tableRead s i := rfl

theorem firstFrom_withCutOf (v s : State) (fuel : Nat) (c : Code) :
    firstFrom (withCutOf v s) fuel c = firstFrom s fuel c := by
  induction fuel generalizing c with
  | zero => rfl
  | succ fuel ih => simp only [firstFrom, tableRead_withCutOf, ih]

theorem symbolAndLength_withCutOf (v s : State) (c : Code) :
    symbolAndLength (withCutOf v s) c = symbolAndLength s c := by
  have hfirst : firstSymbol (withCutOf v s) c = firstSymbol s c := firstFrom_withCutOf v s _ c
  have hlen : stringLength (withCutOf v s) c = stringLength s c := rfl
  rw [symbolAndLength, hfirst, hlen, symbolAndLength]

theorem countEntry_withCutOf (v s : State) : countEntry (withCutOf v s) = withCutOf v (countEntry s) := by
  simp only [countEntry, apply_ite (withCutOf v)]
  rfl

theorem append_withCutOf (c : Code) (f : Byte) (v s : State) :
    append c f (withCutOf v s) = (append c f s).onState (withCutOf v) := by
  rw [append, append, apply_ite (Progress.onState (withCutOf v))]
  refine if_congr .rfl rfl ?_
  have hprev : tableRead (withCutOf v s) (withCutOf v s).prev.toNat = tableRead s s.prev.toNat := rfl
  rw [hprev]
  cases tableRead s s.prev.toNat with
  | none => rfl
  | some p => exact congrArg Progress.ok (countEntry_withCutOf v (tableWrite s.nent.toNat _ s))

theorem grow_withCutOf (c : Code) (f : Byte) (v s : State) :
    grow c f (withCutOf v s) = (grow c f s).onState (withCutOf v) := by
  rw [grow, grow, apply_ite (Progress.onState (withCutOf v))]
  exact if_congr .rfl (append_withCutOf c f v s) rfl

theorem emit_withCutOf (e : Code) (count : Nat) (v s : State) :
    emit e count (withCutOf v s) = (emit e count s).onState (withCutOf v) := by
  induction count generalizing e s with
  | zero => rfl
  | succ count ih =>
    have hpixel : pixelAddr (withCutOf v s) ((withCutOf v s).outoff.toNat + count) =
      pixelAddr s (s.outoff.toNat + count) := rfl
    rw [emit, emit, tableRead_withCutOf, hpixel]
    cases tableRead s e.toNat with
    | none => rfl
    | some x =>
      cases pixelAddr s (s.outoff.toNat + count) with
      | none => rfl
      | some a =>
        refine Eq.trans ?_ (apply_ite (Progress.onState (withCutOf v)) (a < fbCells s) _ _).symm
        exact if_congr .rfl (ih x.pre (fbWrite a x.suf s)) rfl

theorem growEmitFinish_withCutOf (c : Code) (f : Byte) (len : Nat) (v s : State) :
    growEmitFinish c f len (withCutOf v s) = onNext (withCutOf v) (growEmitFinish c f len s) := by
  rw [growEmitFinish, growEmitFinish, grow_withCutOf]
  cases grow c f s with
  | raised u => rfl
  | stop r => rfl
  | ok u =>
    simp only [Progress.onState, emit_withCutOf]
    cases emit c len u <;> rfl

theorem dataCode_withCutOf (c : Code) (fl : Option (Byte × Nat)) (v s : State) :
    dataCode c fl (withCutOf v s) = onNext (withCutOf v) (dataCode c fl s) := by
  cases fl with
  | none => rfl
  | some fl =>
    rw [dataCode, dataCode, apply_ite (onNext (withCutOf v))]
    exact if_congr .rfl rfl (growEmitFinish_withCutOf c fl.1 fl.2 v s)

/-- A row's condition does not look at the cut. -/
theorem whenCodeFits_withCutOf {o o' : Host.Outcome State Fault Refusal} (i : Instr)
    (h : o' = onNext (withCutOf v) o) :
    whenCodeFits i (withCutOf v s) o' = onNext (withCutOf v) (whenCodeFits i s o) := by
  rw [whenCodeFits, whenCodeFits, apply_ite (onNext (withCutOf v))]
  exact if_congr .rfl h rfl

theorem exec_clrOf_withCutOf {n : Nat} {i : Instr} (hi : clrOf n = some i) (v s : State) :
    exec i (withCutOf v s) = onNext (withCutOf v) (exec i s) := by
  unfold clrOf at hi
  split at hi <;> cases hi <;> exact whenCodeFits_withCutOf _ rfl

theorem exec_stopOf_withCutOf {n : Nat} {i : Instr} (hi : stopOf n = some i) (v s : State) :
    exec i (withCutOf v s) = onNext (withCutOf v) (exec i s) := by
  unfold stopOf at hi
  split at hi <;> cases hi <;> exact whenCodeFits_withCutOf _ rfl

theorem exec_litOf_withCutOf {n : Nat} {c : Code} {i : Instr} (hi : litOf n c = some i) (v s : State) :
    exec i (withCutOf v s) = onNext (withCutOf v) (exec i s) := by
  unfold litOf at hi
  split at hi <;> cases hi <;> exact whenCodeFits_withCutOf _ (dataCode_withCutOf _ _ v s)

/-- The execution of a decoded code commutes with the cut, by the lines of R100. -/
theorem exec_withCutOf {x : CodeCtx} {c : Code} {i : Instr} (hi : decodeCode x c = some i) (v s : State) :
    exec i (withCutOf v s) = onNext (withCutOf v) (exec i s) := by
  unfold decodeCode at hi
  split_ifs at hi
  · exact exec_clrOf_withCutOf hi v s
  · exact exec_stopOf_withCutOf hi v s
  · exact exec_litOf_withCutOf hi v s
  · cases hi
    refine whenCodeFits_withCutOf _ ?_
    rw [symbolAndLength_withCutOf, dataCode_withCutOf]
  · cases hi
    refine whenCodeFits_withCutOf _ ?_
    have hkwk : kwkSymbolAndLength (withCutOf v s) = kwkSymbolAndLength s := by
      rw [kwkSymbolAndLength, symbolAndLength_withCutOf]
      rfl
    rw [hkwk, dataCode_withCutOf]
  · cases hi
    exact whenCodeFits_withCutOf _ rfl

/-! ##### The step -/

theorem resume_of_partway_nil (h : s.partway = []) : resume s = s := by
  rw [resume, h, List.nil_append, ← h]

/-- A code read from two cuts of the payload is executed in the same way, and moves neither cursor: a state with its own
cut is itself, so `exec_withCutOf` is also the frame rule. -/
theorem SameReading.exec (h : SameReading u v) (hu : u.partway = []) (hv : v.partway = []) {x : CodeCtx} {c : Code}
    {i : Instr} (hi : decodeCode x c = some i) {s' : State} (hs : exec i u = .next s') :
    ∃ t', exec i v = .next t' ∧ sameButCut s' t' ∧ samePayload s' t' := by
  have hframe : s' = withCutOf u s' := by
    have hself := exec_withCutOf hi u u
    rw [show withCutOf u u = u from rfl, hs] at hself
    exact Host.Outcome.next.inj hself
  refine ⟨withCutOf v s', ?_, sameButCut_iff.2 rfl, ?_⟩
  · rw [h.cut.eq_withCutOf, exec_withCutOf hi, hs]
    rfl
  · rw [hframe, samePayload, resume_of_partway_nil (s := withCutOf u s') hu,
      resume_of_partway_nil (s := withCutOf v (withCutOf u s')) hv]
    exact ⟨h.payload, h.terminator⟩

/-- Settles O11: the two readers read in the same way, and what follows the code read does not look at the cut. -/
theorem splitOfThePayloadHasNoEffect : Obligations.SplitOfThePayloadHasNoEffect := by
  intro s t s' hI _ hp hcut hpay hs
  have hd := hI.decoding (.inl hp)
  have hread := SameReading.getCode ⟨hcut.resume, hpay.1, hpay.2⟩ hd.built.width.2 hd.bitCount hd.bitsHeld
  rw [engineStep_run hp, codeStep] at hs
  rw [engineStep_run (hcut.phase.trans hp), codeStep]
  generalize Machine.getCode (resume s) = x at hread hs
  generalize Machine.getCode (resume t) = y at hread ⊢
  cases hread with
  | got c left right same =>
    simp only [Fetch.finish, same.cut.codeCtx] at hs ⊢
    split at hs
    · next i hi =>
      obtain ⟨t', ht', hcut', hpay'⟩ := same.exec left.partway right.partway hi hs
      exact ⟨t', ht', hcut', fun _ => hpay'⟩
    · cases hs
  | raised cut =>
    cases hs
    exact ⟨_, rfl, cut.raise .truncatedRead 0, fun hf => absurd rfl hf⟩
  | terminated left cut due =>
    have hu := left.phase.trans hp
    rw [Fetch.finish, exec_term_run hu due.1] at hs
    cases hs
    exact ⟨_, exec_term_run (cut.phase.trans hu) due.2, cut.withTerminator.raise .dataExhausted 0,
      fun hf => absurd rfl hf⟩
  | waiting =>
    cases hs
    exact ⟨stall t, rfl, hcut.stall, fun _ => by rwa [samePayload, resume_stall, resume_stall]⟩

end Sys2Proof.Machine
/-! ### The code table (41_code_table.md) -/

namespace Sys2Proof.Machine

open Sys2Proof.Claims

variable {s t : State}

/-! #### No step stops (R42, R68, R100, R196) -/

theorem headerStep_next (hp : s.phase = .hdr) : ∃ t, headerStep s = .next t := by
  rcases headerStep_cases hp with ⟨-, -, he⟩ | ⟨-, -, he⟩ | ⟨_, _, -, ⟨-, he⟩ | ⟨-, he⟩⟩ <;> exact ⟨_, he⟩

theorem drainStep_next (hp : s.phase = .drain) : ∃ t, drainStep s = .next t := by
  rcases drainStep_cases hp with ⟨-, -, he⟩ | ⟨-, -, he⟩ | ⟨_, _, -, ⟨-, he⟩ | ⟨-, -, he⟩ | ⟨-, -, he⟩⟩ <;>
    exact ⟨_, he⟩

/-- A code of a run has a class, its string is in the table, and its pixels are in the rectangle, which START found to
lie in the canvas. -/
theorem Inv.codeStep_next (h : Inv s) (hp : s.phase = .run) : ∃ t, Machine.codeStep s = .next t := by
  obtain ⟨t, ht, -⟩ := codeStep_cases h hp (addressesGood_of_geometryFits (h.decoding (.inl hp)).geometry)
  exact ⟨t, ht⟩

theorem Inv.engineStep_next (h : Inv s) : ∃ t, Machine.engineStep s = .next t := by
  unfold Machine.engineStep
  cases hp : s.phase with
  | hdr => exact headerStep_next hp
  | run => exact h.codeStep_next hp
  | drain => exact drainStep_next hp
  | idle | done | fault => exact ⟨s, rfl⟩

theorem exec_start_next (s : State) : ∃ t, exec .start s = .next t := by
  simp only [exec, execStart]
  split_ifs <;> exact ⟨_, rfl⟩

/-- A write to CTRL is a command or ignored, and no command stops (R45). -/
theorem csrWrite_next (off v : CsrWord) (s : State) : ∃ t, csrWrite off v s = .next t := by
  by_cases hoff : off = 0
  · subst hoff
    cases h1 : v.getLsbD 1 with
    | true => exact ⟨_, csrWrite_abort h1 s⟩
    | false =>
      cases h0 : v.getLsbD 0 with
      | true => rw [csrWrite_start h1 h0]; exact exec_start_next s
      | false => exact ⟨s, csrWrite_noCommand h1 h0 s⟩
  · exact ⟨_, if_neg hoff⟩

/-- The host's moves stop only where R77 and R218 forbid them. -/
theorem hostStep_next {op : HostOp} (hallowed : forbiddenWhileBusy (.host op) = true → s.phase.busy = false) :
    ∃ t, hostStep op s = .next t := by
  cases op with
  | csrRead off => exact ⟨_, rfl⟩
  | csrWrite off v => exact csrWrite_next off v s
  | reset => exact ⟨_, rfl⟩
  | fbRead | fbWrite | positionSource => exact ⟨_, if_neg (by rw [hallowed rfl]; decide)⟩

theorem Inv.takeTurn_next (h : Inv s) {turn : Turn}
    (hallowed : forbiddenWhileBusy turn = true → s.phase.busy = false) : ∃ t, takeTurn turn s = .next t := by
  cases turn with
  | engine => exact h.engineStep_next
  | host op => exact hostStep_next hallowed
  | deliver b => exact ⟨_, rfl⟩
  | endOfStream => exact ⟨_, rfl⟩

/-- Settles O53: the move of the agent whose turn it is has a next state; taking the turn off the list keeps the
invariant. -/
theorem stepNeverStops : Obligations.StepNeverStops := by
  intro s h hallowed
  cases hturns : s.turns with
  | nil =>
    rw [step, nextMove, hturns]
    exact h.engineStep_next
  | cons turn rest =>
    rw [step_of_turns hturns]
    exact (h.withTurns rest).takeTurn_next (hallowed turn rest hturns)

/-! #### Strings of defined entries (R143 to R145, R41, R270) -/

/-- Settles O18, by the induction along the links to a root in `Built.stringFrom`; the slot of CLEAR is not defined, so the bound
holds from `2^N` on. -/
theorem definedEntriesHaveTheirStrings : Obligations.DefinedEntriesHaveTheirStrings := by
  intro s c h hp hdef
  obtain ⟨e, f, l, hs⟩ := (h.afterHeader (.inl hp)).stringAt hdef
  exact ⟨f, l, e, hs.string, hs.read, hs.length, hs.first, hs.symbols, hs.root, hs.bound⟩

/-! #### Data codes -/

theorem whenCodeFits_of_fits {i : Instr} {o : Host.Outcome State Fault Refusal} (hp : s.phase = .run)
    (hfit : fitsCode (codeCtx s) i = true) : whenCodeFits i s o = o := if_pos ⟨hp, hfit⟩

/-- The code a LIT passes on, by way of a byte, is its index zero-extended (R103, R166). -/
theorem literal_setWidth {w : Nat} (k : BitVec w) (hw : w ≤ 8) (s : State) :
    literal (k.setWidth 8) s = dataCode (k.setWidth 12) (some (k.setWidth 8, 1)) s := by
  rw [literal, BitVec.setWidth_setWidth (by omega)]

/-- The first symbol and the length of a REF are those of its string (R167). -/
theorem Built.symbolAndLength_of_string (h : Built s) {c : Code} {f : Byte} {l : List Byte}
    (hstr : stringOf s c = some (f :: l)) : symbolAndLength s c = some (f, l.length + 1) := by
  obtain ⟨e, he⟩ := holdsEntry_of_string hstr
  obtain ⟨e', f', l', hs⟩ := h.stringAt (tableRead_some he).1
  cases hstr.symm.trans hs.string
  exact hs.symbolAndLength

theorem Built.kwkSymbolAndLength_of_string (h : Built s) {f : Byte} {l : List Byte}
    (hstr : stringOf s s.prev = some (f :: l)) : kwkSymbolAndLength s = some (f, (f :: l ++ [f]).length) := by
  rw [kwkSymbolAndLength, h.symbolAndLength_of_string hstr, List.length_append]
  rfl

theorem exec_lit {w : Nat} {k : BitVec w} {i : Instr}
    (hexec : exec i s = whenCodeFits i s (literal (k.setWidth 8) s)) (hw : w ≤ 8) (hp : s.phase = .run)
    (hfit : fitsCode (codeCtx s) i = true) :
    exec i s = dataCode (k.setWidth 12) (some (k.setWidth 8, 1)) s := by
  rw [hexec, whenCodeFits_of_fits hp hfit, literal_setWidth k hw]

/-- A LIT, REF or KWK is `dataCode` with its string's first symbol and length (R165 to R169). -/
theorem exec_of_dataCodeAt {i : Instr} {c : Code} {str : List Byte} {f : Byte} (h : DataCodeAt s i c str f)
    (hB : Built s) (hp : s.phase = .run) : exec i s = dataCode c (some (f, str.length)) s := by
  cases h with
  | litN2 k hn | litN3 k hn | litN4 k hn | litN5 k hn | litN6 k hn | litN7 k hn =>
    exact exec_lit rfl (by decide) hp (beq_iff_eq.2 hn)
  | litN8 _ hn =>
    have hlit := exec_lit (k := f) (i := .litN8 f) rfl (by decide) hp (beq_iff_eq.2 hn)
    rwa [BitVec.setWidth_eq] at hlit
  | ref c f l low high string =>
    refine (whenCodeFits_of_fits (i := .ref c) hp (fitsCode_ref_iff.2 ⟨hB.codeSize, low, high⟩)).trans ?_
    rw [hB.symbolAndLength_of_string string]
    rfl
  | kwk c f l next notFrozen hasPrev string =>
    have hlow : 2 ^ s.n.toNat + 1 < c.toNat := next ▸ hB.count.1
    have hkwk : isKwk (codeCtx s) c = true := isKwk_iff.2 ⟨next, notFrozen, hasPrev⟩
    refine (whenCodeFits_of_fits (i := .kwk c) hp (fitsCode_kwk_iff.2 ⟨hB.codeSize, hlow, hkwk⟩)).trans ?_
    rw [hB.kwkSymbolAndLength_of_string string]

/-- The append finds no slot, and nothing was written before it (R146, R165). -/
theorem dataCode_of_fullStore {c : Code} {f : Byte} {len : Nat} (hroom : roomFor s len) (hf : s.frozen = false)
    (hv : s.prevv = true) (hfull : s.tableMem ≤ s.nent.toNat) :
    dataCode c (some (f, len)) s = .next (raise .outOfMemory c s) := by
  have hgrow : grow c f s = .raised (raise .outOfMemory c s) := by
    rw [grow, hf, hv]
    exact if_pos hfull
  rw [dataCode, if_neg (Nat.not_lt.2 hroom), growEmitFinish, hgrow]

/-- Settles O20: the code is `dataCode` with its string, whose append raises. -/
theorem fullStoreFaults : Obligations.FullStoreFaults := by
  intro s i c str f h hp hcode hroom hf hv hfull
  rw [exec_of_dataCodeAt hcode (h.afterHeader (.inl hp)) hp, dataCode_of_fullStore hroom hf hv hfull]
  rfl

/-! #### The frozen table (R148) -/

/-- A data code over a frozen table appends nothing. -/
theorem dataCode_of_frozen {c : Code} {fl : Option (Byte × Nat)} (hf : s.frozen = true)
    (h : dataCode c fl s = .next t) : TableKept s t := by
  have hgrow : ∀ f, grow c f s = .ok s := fun f => by
    rw [grow, hf]
    rfl
  unfold dataCode at h
  split at h
  · cases h
  · next f len =>
    split at h
    · cases h
      exact ⟨⟨rfl, rfl, rfl⟩, rfl⟩
    · simp only [growEmitFinish, hgrow] at h
      rcases emit_ok_or_stop c len s with ⟨m, hm⟩ | ⟨r, hm⟩ <;> simp only [hm] at h <;> cases h
      exact ⟨⟨rfl, rfl, rfl⟩, rfl⟩

/-- Settles O22: STOP and the faults do not write the table, and a data code over a frozen one appends nothing. -/
theorem frozenTableStaysUntilClear : Obligations.FrozenTableStaysUntilClear := by
  intro s t i c _ hf henc hclr h
  have hkept : TableKept s t := by
    cases i
    case clrN2 => exact absurd rfl (hclr 2)
    case clrN3 => exact absurd rfl (hclr 3)
    case clrN4 => exact absurd rfl (hclr 4)
    case clrN5 => exact absurd rfl (hclr 5)
    case clrN6 => exact absurd rfl (hclr 6)
    case clrN7 => exact absurd rfl (hclr 7)
    case clrN8 => exact absurd rfl (hclr 8)
    case stopN2 | stopN3 | stopN4 | stopN5 | stopN6 | stopN7 | stopN8 =>
      cases next_of_whenCodeFits h
      exact ⟨⟨rfl, rfl, rfl⟩, rfl⟩
    case litN2 | litN3 | litN4 | litN5 | litN6 | litN7 | litN8 | ref | kwk =>
      exact dataCode_of_frozen hf (next_of_whenCodeFits h)
    case illegal =>
      cases next_of_whenCodeFits h
      exact ⟨⟨rfl, rfl, rfl⟩, rfl⟩
    case codesize | sublen | term | start | abort | row => cases henc
  obtain ⟨⟨hnent, hkw, hfrozen⟩, htable⟩ := hkept
  exact ⟨hnent, hkw, hfrozen.trans hf, htable⟩

end Sys2Proof.Machine
/-! ### The decoder (42_lzw_decoder.md) -/

namespace Sys2Proof.Machine

open Sys2Proof.Claims

variable {s t : State}

/-! #### Data codes (R165 to R173) -/

/-- A LIT of any width stands for the root of its index (R166). -/
theorem Built.litString (h : Built s) {w : Nat} (k : BitVec w) (hn : s.n.toNat = w) :
    DataString s (k.setWidth 12) (k.setWidth 8) [k.setWidth 8] := by
  have hw : w ≤ 8 := hn ▸ h.codeSize.2
  have hbyte : (k.setWidth 8).toNat = k.toNat := BitVec.toNat_setWidth_of_le hw
  have hcode : (k.setWidth 12).toNat = k.toNat := BitVec.toNat_setWidth_of_le (by omega)
  refine h.literalString ?_ (hcode.trans hbyte.symm)
  rw [hbyte, hn]
  exact k.isLt

/-- The string a LIT, REF or KWK stands for is the one its emission reads (R165 to R169). -/
theorem dataString_of_dataCodeAt {i : Instr} {c : Code} {str : List Byte} {f : Byte} (h : DataCodeAt s i c str f)
    (hB : Built s) : DataString s c f str := by
  cases h with
  | litN2 k hn | litN3 k hn | litN4 k hn | litN5 k hn | litN6 k hn | litN7 k hn => exact hB.litString k hn
  | litN8 _ hn =>
    have hlit := hB.litString f hn
    rwa [BitVec.setWidth_eq] at hlit
  | ref c f l low high string =>
    obtain ⟨f', str, hds, hstr, -⟩ := hB.referenceString ((definedEntry_iff s c.toNat).2 (.inr ⟨low, high⟩))
    obtain ⟨l', rfl⟩ := hds.first
    cases string.symm.trans hstr
    exact hds
  | kwk c f l next notFrozen hasPrev string =>
    obtain ⟨f', l', hds, hstr, -⟩ := hB.kwkString next notFrozen hasPrev
    cases string.symm.trans hstr
    exact hds

/-- The entry an append writes, the counts after it, and that no other slot changes (R146 to R148). -/
theorem Built.grows (h : Built s) (hf : s.frozen = false) {p : Entry} (hp : tableRead s s.prev.toNat = some p)
    (f : Byte) : Grows f s (withEntry f p s) where
  count := withEntry_nent f p (h.notFull hf)
  entry := ⟨p, hp, by rw [withEntry_table, getKey_setKey_same]⟩
  others k hk := by rw [withEntry_table, getKey_setKey_other hk]
  frozen := by simp [withEntry_frozen, hf]
  width := withEntry_kw f p h.width.2

/-- The emission and the bookkeeping leave the table that step (3) of R165 made. -/
theorem afterDataCode_tableKept (c : Code) (f : Byte) (len : Nat) (p : Entry) (m : Memory) (s : State) :
    TableKept (afterGrow f p s) (afterDataCode c f len p m s) :=
  ⟨⟨rfl, rfl, rfl⟩, rfl⟩

theorem grows_of_tableKept {f : Byte} {u : State} (h : Grows f s t) (kept : TableKept t u) : Grows f s u := by
  obtain ⟨⟨hnent, hkw, hfrozen⟩, htable⟩ := kept
  exact ⟨by rw [hnent]; exact h.count, by rw [htable]; exact h.entry, by rw [htable]; exact h.others,
    by rw [hfrozen]; exact h.frozen, by rw [hkw]; exact h.width⟩

/-- What a data code that is not cut short leaves (R165). -/
theorem Built.dataCodeDone (h : Built s) {c : Code} {f : Byte} {str : List Byte} {p : Entry} {m : Memory}
    (hp : s.prevv = true → tableRead s s.prev.toNat = some p) (hroom : roomFor s str.length)
    (hout : StringWritten s str s.fb m) : DataCodeDone c str f s (afterDataCode c f str.length p m s) := by
  have kept := afterDataCode_tableKept c f str.length p m s
  exact
    { grown := fun hg => by
        rw [Machine.afterGrow, if_pos hg] at kept
        exact grows_of_tableKept (h.grows hg.1 (hp hg.2) f) kept
      notGrown := fun hg => by rwa [Machine.afterGrow, if_neg hg] at kept
      pixels := ⟨hout.written, hout.kept⟩
      offset := afterDataCode_outoff_toNat hroom c f p m
      previous := ⟨rfl, rfl⟩
      rest := afterDataCode_same c f str.length p m s }

/-- In a run a LIT, REF or KWK whose string fits and whose entry finds a slot completes (R165). -/
theorem Inv.exec_dataCode_done (h : Inv s) (hp : s.phase = .run) {i : Instr} {c : Code} {str : List Byte} {f : Byte}
    (hcode : DataCodeAt s i c str f) (hroom : roomFor s str.length) (hslot : storeHasRoom s) :
    ∃ t, exec i s = .next t ∧ DataCodeDone c str f s t := by
  have hd := h.decoding (.inl hp)
  obtain ⟨p, hprev⟩ := hd.built.prevEntry
  have hstring := dataString_of_dataCodeAt hcode hd.built
  rw [exec_of_dataCodeAt hcode hd.built hp]
  rcases dataCode_cases c f str hprev (fun _ => hstring.grown p hprev)
    (addressesGood_of_geometryFits hd.geometry) with ⟨hover, -⟩ | ⟨-, hf, hv, hfull, -⟩ | ⟨-, -, m, hout, he⟩
  · exact absurd hover (Nat.not_lt.2 hroom)
  · exact absurd (hslot hf hv) (Nat.not_lt.2 hfull)
  · exact ⟨_, he, hd.built.dataCodeDone hprev hroom hout⟩

/-- Settles O15: each LIT is a data code whose string is its index. -/
theorem literalCodeEmitsItsIndex : Obligations.LiteralCodeEmitsItsIndex := by
  intro s h hp hroom hslot
  have completes {i : Instr} {c : Code} {k : Byte} (hcode : DataCodeAt s i c [k] k) :
      ∃ t, exec i s = .next t ∧ DataCodeDone c [k] k s t := h.exec_dataCode_done hp hcode hroom hslot
  exact ⟨fun k hn => completes (.litN2 k hn), fun k hn => completes (.litN3 k hn), fun k hn => completes (.litN4 k hn),
    fun k hn => completes (.litN5 k hn), fun k hn => completes (.litN6 k hn), fun k hn => completes (.litN7 k hn),
    fun k hn => completes (.litN8 k hn)⟩

/-- Settles O16: a REF is a data code whose string is that of its entry. -/
theorem referenceCodeEmitsItsString : Obligations.ReferenceCodeEmitsItsString := by
  intro s c f l h hp hlow hhigh hstr hroom hslot
  exact h.exec_dataCode_done hp (.ref c f l hlow hhigh hstr) hroom hslot

/-- Settles O17: a KWK is a data code whose string is that of the entry it appends. -/
theorem kwkCodeEmitsThePreviousStringAndItsFirst : Obligations.KwkCodeEmitsThePreviousStringAndItsFirst := by
  intro s c f l h hp hnext hf hv hstr hroom hslot
  refine h.exec_dataCode_done hp (.kwk c f l hnext hf hv hstr) ?_ fun _ _ => hslot
  rwa [List.length_append]

/-- Settles O19: the overrun check of `dataCode` comes before its writes. -/
theorem stringPastTheRectangleFaults : Obligations.StringPastTheRectangleFaults := by
  intro s i c str f h hp hcode hover
  rw [exec_of_dataCodeAt hcode (h.afterHeader (.inl hp)) hp, dataCode, if_pos hover]
  rfl

/-- Settles O21: such a code is in the row of ILLEGAL, being no KWK. -/
theorem illegalCodeFaults : Obligations.IllegalCodeFaults := by
  intro s c hp h2 h8 hlow hcode
  have hcount : s.nent.toNat ≤ c.toNat := by omega
  have hkwk : isKwk (codeCtx s) c = false := by
    rw [Bool.eq_false_iff]
    intro hk
    obtain ⟨heq, hf, hv⟩ := isKwk_iff.1 hk
    rcases hcode with hlt | ⟨-, hf' | hv'⟩
    · exact absurd heq (Nat.ne_of_gt hlt)
    · exact absurd (hf.symm.trans hf') (by decide)
    · exact absurd (hv.symm.trans hv') (by decide)
  exact whenCodeFits_of_fits hp (fitsCode_illegal_iff.2 ⟨⟨h2, h8⟩, hlow, hcount, hkwk⟩)

/-! #### The sentinel codes (R163, R164) -/

theorem exec_clrOf_eq {i : Instr} (hi : clrOf s.n.toNat = some i) (hp : s.phase = .run) :
    exec i s = .next (tableClear s) := by
  have hexec : exec i s = whenCodeFits i s (.next (tableClear s)) := by
    unfold clrOf at hi
    split at hi <;> cases hi <;> rfl
  rw [hexec, whenCodeFits_of_fits hp (fitsCode_clrOf hi)]

theorem exec_stopOf_eq {i : Instr} (hi : stopOf s.n.toNat = some i) (hp : s.phase = .run) :
    exec i s = .next (stopRun s) := by
  have hexec : exec i s = whenCodeFits i s (.next (stopRun s)) := by
    unfold stopOf at hi
    split at hi <;> cases hi <;> rfl
  rw [hexec, whenCodeFits_of_fits hp (fitsCode_stopOf hi)]

theorem tableClear_clearDone (h8 : s.n.toNat ≤ 8) : ClearDone s.n.toNat s (tableClear s) :=
  ⟨initialCounts_nent_toNat h8 s, initialCounts_kw_toNat h8 s, rfl, rfl, rfl⟩

theorem exec_clr_done {n : Nat} {i : Instr} (hi : clrOf n = some i) (hp : s.phase = .run) (hn : s.n.toNat = n) :
    ∃ t, exec i s = .next t ∧ ClearDone n s t := by
  subst hn
  have hlegal := legalSize_of_fits (x := codeCtx s) (fitsCode_clrOf hi)
  exact ⟨_, exec_clrOf_eq hi hp, tableClear_clearDone hlegal.2⟩

theorem exec_stop_drain {n : Nat} {i : Instr} (hi : stopOf n = some i) (hp : s.phase = .run) (hn : s.n.toNat = n) :
    exec i s = .next { s with phase := .drain } := by
  subst hn
  exact exec_stopOf_eq hi hp

/-- Settles O13: the CLR of the state's own code size is `tableClear`. -/
theorem clearCodeRestoresTheInitialTable : Obligations.ClearCodeRestoresTheInitialTable := fun _ hp =>
  ⟨exec_clr_done rfl hp, exec_clr_done rfl hp, exec_clr_done rfl hp, exec_clr_done rfl hp, exec_clr_done rfl hp,
    exec_clr_done rfl hp, exec_clr_done rfl hp⟩

/-- Settles O14: the STOP of the state's own code size is `stopRun`. -/
theorem stopCodeEntersTheDrain : Obligations.StopCodeEntersTheDrain := fun _ hp =>
  ⟨exec_stop_drain rfl hp, exec_stop_drain rfl hp, exec_stop_drain rfl hp, exec_stop_drain rfl hp,
    exec_stop_drain rfl hp, exec_stop_drain rfl hp, exec_stop_drain rfl hp⟩

/-! #### The item a step runs (R161, R175, R213, R128, R45) -/

section
variable {α : Type} {x : Fetch α} {w u : State} {k : α → State → Host.Outcome State Fault Refusal}

theorem finish_got {a : α} (h : x = .got a u) : x.finish w k = k a u := by rw [h, Fetch.finish]
theorem finish_raised (h : x = .raised u) : x.finish w k = .next u := by rw [h, Fetch.finish]
theorem finish_terminated (h : x = .terminated u) : x.finish w k = exec .term u := by rw [h, Fetch.finish]
theorem finish_waiting (h : x = .waiting) : x.finish w k = .next w := by rw [h, Fetch.finish]

end

theorem engineStep_hdr (h : s.phase = .hdr) : engineStep s = headerStep s := by
  rw [engineStep, h]

theorem engineStep_inactive (h : s.phase = .idle ∨ s.phase = .done ∨ s.phase = .fault) : engineStep s = .next s := by
  rcases h with h | h | h <;> rw [engineStep, h]

theorem csrWrite_command {v : CsrWord} {i : Instr} (hi : decodeCtrl v = some i) (s : State) :
    csrWrite 0 v s = exec i s := by
  simp only [csrWrite, hi, if_true]

/-- Settles O12, by PHASE and what the step fetched; the engine's move acts on the state without its turn. -/
theorem stepRunsTheDecodedItem : Obligations.StepRunsTheDecodedItem := by
  intro s
  refine ⟨fun he => ?_, fun v rest i hturns hi => (step_csrWrite hturns).trans (csrWrite_command hi _)⟩
  rw [step_engine he]
  refine ⟨fun hp => ?run, fun hp => ?hdr, fun hp => ?drain, engineStep_inactive (s := afterTurn s)⟩
  case run =>
    rw [engineStep_run (s := afterTurn s) hp, codeStep]
    refine ⟨fun c s1 i hg hi => ?_, fun _ => finish_terminated, fun _ => finish_raised, finish_waiting⟩
    rw [finish_got hg, hi]
  case hdr =>
    rw [engineStep_hdr (s := afterTurn s) hp, headerStep]
    exact ⟨fun _ _ => finish_got, fun _ => finish_raised, finish_waiting⟩
  case drain =>
    rw [engineStep_drain (s := afterTurn s) hp, drainStep]
    exact ⟨fun _ _ hg hlength => (finish_got hg).trans (if_pos hlength),
      fun _ _ hg hpayload => (finish_got hg).trans (if_neg hpayload), fun _ => finish_raised, finish_waiting⟩

end Sys2Proof.Machine

/-! ### The interlace unit: ROW and the pixel address (R190 to R197) -/

namespace Sys2Proof.Machine

variable {s : State}

/-! #### `Row` pass by pass (R192) -/

theorem rowOnDomain_pass1 {y h : Nat} (hlt : y < (h + 7) / 8) : rowOnDomain y h = 8 * y := by
  rw [rowOnDomain_eq, if_pos hlt]

theorem rowOnDomain_pass2 {y h : Nat} (hge : (h + 7) / 8 ≤ y) (hlt : y < (h + 7) / 8 + (h + 3) / 8) :
    rowOnDomain y h = 8 * (y - (h + 7) / 8) + 4 := by
  rw [rowOnDomain_eq, if_neg (by omega), if_pos (by omega)]

theorem rowOnDomain_pass3 {y h : Nat} (hge : (h + 7) / 8 + (h + 3) / 8 ≤ y)
    (hlt : y < (h + 7) / 8 + (h + 3) / 8 + (h + 1) / 4) :
    rowOnDomain y h = 4 * (y - (h + 7) / 8 - (h + 3) / 8) + 2 := by
  rw [rowOnDomain_eq, if_neg (by omega), if_neg (by omega), if_pos (by omega)]

theorem rowOnDomain_pass4 {y h : Nat} (hge : (h + 7) / 8 + (h + 3) / 8 + (h + 1) / 4 ≤ y) :
    rowOnDomain y h = 2 * (y - (h + 7) / 8 - (h + 3) / 8 - (h + 1) / 4) + 1 := by
  rw [rowOnDomain_eq, if_neg (by omega), if_neg (by omega), if_neg (by omega)]

/-! #### The domain of `Row` (R194) and the meaning of ROW -/

theorem rowOf_eq_some_iff {y h r : Nat} : rowOf y h = some r ↔ y < h ∧ rowOnDomain y h = r := by
  simp [rowOf]

theorem rowOf_of_lt {y h : Nat} (hy : y < h) : rowOf y h = some (rowOnDomain y h) := if_pos hy

theorem rowOf_of_le {y h : Nat} (hy : h ≤ y) : rowOf y h = none := if_neg (Nat.not_lt.2 hy)

theorem exec_row (y h : BitVec 16) (s : State) : exec (.row y h) s = execRow y h s := rfl

theorem exec_row_of_some {y h : BitVec 16} {r : Nat} (hr : rowOf y.toNat h.toNat = some r) :
    exec (.row y h) s = .next { s with returned := some (BitVec.ofNat 32 r) } := by
  rw [exec_row, execRow, hr]

theorem exec_row_of_none {y h : BitVec 16} (hr : rowOf y.toNat h.toNat = none) :
    exec (.row y h) s = .refused .rowOutsideDomain := by
  rw [exec_row, execRow, hr]

/-- Settles O39, by the pass `y` lies in. -/
theorem rowFollowsTheFourPasses : Obligations.RowFollowsTheFourPasses := fun _ _ _ hy =>
  ⟨_, exec_row_of_some (rowOf_of_lt hy), rowOnDomain_lt hy, rowOf_of_lt hy,
    rowOnDomain_pass1, rowOnDomain_pass2, rowOnDomain_pass3, rowOnDomain_pass4⟩

/-- Settles O40: `Row` has no value there. -/
theorem rowOutsideItsDomainIsRefused : Obligations.RowOutsideItsDomainIsRefused := fun _ _ _ hy =>
  exec_row_of_none (rowOf_of_le hy)

/-! #### The inverse of `Row` by residue (R193) -/

theorem rowOf_of_mod_eight_eq_zero {r h : Nat} (hr : r < h) (hmod : r % 8 = 0) : rowOf (r / 8) h = some r :=
  rowOf_eq_some_iff.2 ⟨by omega, (rowOnDomain_pass1 (by omega)).trans (by omega)⟩

theorem rowOf_of_mod_eight_eq_four {r h : Nat} (hr : r < h) (hmod : r % 8 = 4) :
    rowOf ((h + 7) / 8 + r / 8) h = some r :=
  rowOf_eq_some_iff.2 ⟨by omega, (rowOnDomain_pass2 (by omega) (by omega)).trans (by omega)⟩

theorem rowOf_of_mod_four_eq_two {r h : Nat} (hr : r < h) (hmod : r % 4 = 2) :
    rowOf ((h + 7) / 8 + (h + 3) / 8 + r / 4) h = some r :=
  rowOf_eq_some_iff.2 ⟨by omega, (rowOnDomain_pass3 (by omega) (by omega)).trans (by omega)⟩

theorem rowOf_of_odd {r h : Nat} (hr : r < h) (hmod : r % 2 = 1) :
    rowOf ((h + 7) / 8 + (h + 3) / 8 + (h + 1) / 4 + r / 2) h = some r :=
  rowOf_eq_some_iff.2 ⟨by omega, (rowOnDomain_pass4 (by omega)).trans (by omega)⟩

theorem rowOf_injective {y z h r : Nat} (hy : rowOf y h = some r) (hz : rowOf z h = some r) : y = z := by
  obtain ⟨hyh, hyr⟩ := rowOf_eq_some_iff.1 hy
  obtain ⟨hzh, hzr⟩ := rowOf_eq_some_iff.1 hz
  exact rowOnDomain_injective hyh hzh (hyr.trans hzr.symm)

/-- Settles O41: the residue of the physical row tells its pass, and what is left is its index in the pass. -/
theorem rowIsABijection : Obligations.RowIsABijection := fun _ _ =>
  ⟨fun _ hy => ⟨_, rowOnDomain_lt hy, rowOf_of_lt hy⟩, fun _ _ _ => rowOf_injective, fun _ hr =>
    ⟨rowOf_of_mod_eight_eq_zero hr, rowOf_of_mod_eight_eq_four hr, rowOf_of_mod_four_eq_two hr, rowOf_of_odd hr⟩⟩

/-! #### The pixel address (R195 to R197) -/

/-- Settles O42: the line of an offset in the rectangle is in the domain of `Row`. -/
theorem pixelAddressIsRowMajor : Obligations.PixelAddressIsRowMajor := by
  intro s p hp
  have haddr := pixelAddr_eq hp
  refine ⟨fun hplain => ?_, fun hinterlace => ?_⟩
  · rwa [if_neg (by simp [hplain])] at haddr
  · rw [if_pos hinterlace] at haddr
    exact ⟨_, rowOf_of_lt (Nat.div_lt_of_lt_mul hp), haddr⟩

/-- Settles O43: the cell's column and row are the rectangle's corner plus the column and output row of the offset. -/
theorem pixelAddressStaysInside : Obligations.PixelAddressStaysInside := by
  intro s p hfit hp
  obtain ⟨hx, hy⟩ := (geometryFits_iff s).1 hfit
  obtain ⟨a, ha, hbuffer⟩ := (addressesGood_of_geometryFits hfit).inside p hp
  obtain ⟨hcol, hline, haddr⟩ := pixelAddr_some ha
  have hrow := outputRow_lt hline
  exact ⟨a, s.fx.toNat + p % s.fw.toNat, s.fy.toNat + outputRow s (p / s.fw.toNat), ha, haddr,
    by omega, by omega, by omega, by omega, by omega, by omega, hbuffer⟩

/-- Settles O44: the address tells row and column, and `Row` is injective. -/
theorem pixelAddressIsInjective : Obligations.PixelAddressIsInjective := fun _ p q a hfit =>
  (addressesGood_of_geometryFits hfit).distinct p q a

end Sys2Proof.Machine

/-! ### Host control (44_host_control.md) -/

namespace Sys2Proof.Machine

open Sys2Proof.Claims

variable {s : State}

/-! #### The code-size byte (R213, R142) -/

theorem exec_codesize_of_legal {b : Byte} (hp : s.phase = .hdr) (h2 : 2 ≤ b.toNat) (h8 : b.toNat ≤ 8) :
    exec (.codesize b) s = .next { tableInit b.toNat { s with n := b.setWidth 4 } with phase := .run } :=
  (if_pos hp).trans (if_neg (by simp only [Config.minN, Config.maxN]; omega))

theorem headerDone_tableInit {b : Byte} (h8 : b.toNat ≤ 8) (s : State) :
    HeaderDone b.toNat s { tableInit b.toNat { s with n := b.setWidth 4 } with phase := .run } := by
  have hn : (b.setWidth 4).toNat = b.toNat := by rw [BitVec.toNat_setWidth]; omega
  have hread (k : Nat) := getKey_writeRoots k b.toNat s.table
  exact ⟨hn, rfl, initialCounts_nent_toNat h8 s, initialCounts_kw_toNat h8 s, rfl, rfl,
    fun k hk => (hread k).trans (if_pos hk), fun k hk => (hread k).trans (if_neg (Nat.not_lt.2 hk)), rfl⟩

/-- Settles O23: `TableInit` writes the roots and leaves every slot above them. -/
theorem codeSizeByteBuildsTheInitialTable : Obligations.CodeSizeByteBuildsTheInitialTable := fun s _ hp h2 h8 =>
  ⟨_, exec_codesize_of_legal hp h2 h8, headerDone_tableInit h8 s⟩

/-! #### START and ABORT (R211 to R217) -/

theorem Phase.busy_eq_false_iff {p : Phase} : p.busy = false ↔ p = .idle ∨ p = .done ∨ p = .fault := by
  cases p <;> decide

theorem geometryFits_eq_false_iff (s : State) :
    geometryFits s = false ↔ s.cw.toNat < s.fx.toNat + s.fw.toNat ∨ s.ch.toNat < s.fy.toNat + s.fh.toNat := by
  rw [← Bool.not_eq_true, geometryFits_iff]; omega

theorem exec_start_of_idle (hidle : s.phase.busy = false) :
    exec .start s =
      if geometryFits s then .next { wipe s with phase := .hdr } else .next (raise .badGeometry 0 (wipe s)) :=
  if_neg (by simp [hidle])

theorem exec_start_of_fits (hidle : s.phase.busy = false) (hfits : geometryFits s = true) :
    exec .start s = .next { wipe s with phase := .hdr } :=
  (exec_start_of_idle hidle).trans (if_pos hfits)

theorem exec_start_of_misfit (hidle : s.phase.busy = false) (hmisfit : geometryFits s = false) :
    exec .start s = .next (raise .badGeometry 0 (wipe s)) :=
  (exec_start_of_idle hidle).trans (if_neg (by simp [hmisfit]))

theorem wiped_wipe (p : Phase) (s : State) : Wiped p .none s { wipe s with phase := p } := rfl

theorem wiped_raise_wipe (c : Cause) (s : State) : Wiped .fault c s (raise c 0 (wipe s)) := rfl

/-- Settles O28: the geometry check passes and the run begins on the cleared state. -/
theorem startBeginsARun : Obligations.StartBeginsARun := fun s hphase hx hy =>
  ⟨_, exec_start_of_fits (Phase.busy_eq_false_iff.2 hphase) ((geometryFits_iff s).2 ⟨hx, hy⟩), wiped_wipe .hdr s⟩

/-- Settles O29: the geometry check fails after the clearing. -/
theorem startChecksTheGeometry : Obligations.StartChecksTheGeometry := fun s hphase hleaves =>
  ⟨_, exec_start_of_misfit (Phase.busy_eq_false_iff.2 hphase) ((geometryFits_eq_false_iff s).2 hleaves),
    wiped_raise_wipe .badGeometry s⟩

/-- Settles O30: the three phases are those of BUSY. -/
theorem startWhileBusyIsIgnored : Obligations.StartWhileBusyIsIgnored := fun _ hphase =>
  exec_start_busy (Phase.busy_iff.2 hphase)

theorem exec_abort (s : State) : exec .abort s = .next { wipe s with phase := .idle } := rfl

/-- Settles O31: ABORT asks for no phase. -/
theorem abortReturnsToIdle : Obligations.AbortReturnsToIdle := fun s => ⟨_, exec_abort s, wiped_wipe .idle s⟩

/-! #### The byte source (R218, R61) -/

theorem step_positionSource_idle {bytes : List Byte} {ended : Bool} {rest : List Turn}
    (h : s.turns = .host (.positionSource bytes ended) :: rest) (hidle : s.phase.busy = false) :
    step s = .next { s with turns := rest, source := bytes, sourceEnded := ended } :=
  (step_of_turns h).trans (if_neg (by simp [hidle]))

theorem step_positionSource_busy {bytes : List Byte} {ended : Bool} {rest : List Turn}
    (h : s.turns = .host (.positionSource bytes ended) :: rest) (hbusy : s.phase.busy = true) :
    step s = .refused .sourceWhileBusy :=
  (step_of_turns h).trans (if_pos hbusy)

theorem deliver_of_open (b : Byte) (hopen : s.sourceEnded = false) :
    deliver b s = { s with source := s.source ++ [b] } :=
  if_neg (by simp [hopen])

theorem deliver_of_ended (b : Byte) (hended : s.sourceEnded = true) : deliver b s = s := if_pos hended

theorem step_deliver {b : Byte} {rest : List Turn} (h : s.turns = .deliver b :: rest) :
    step s = .next (deliver b { s with turns := rest }) :=
  step_of_turns h

theorem step_endOfStream {rest : List Turn} (h : s.turns = .endOfStream :: rest) :
    step s = .next { s with turns := rest, sourceEnded := true } :=
  step_of_turns h

/-- Settles O37, move by move: positioning by BUSY, delivery by whether the stream has ended. -/
theorem sourceIsMovedByHostAndSource : Obligations.SourceIsMovedByHostAndSource := by
  intro s bytes ended b rest
  refine ⟨fun hturns => ⟨step_positionSource_idle hturns, step_positionSource_busy hturns⟩,
    fun hturns => ⟨fun hopen => ?_, fun hended => ?_⟩, step_endOfStream⟩
  · rw [step_deliver hturns, deliver_of_open (s := { s with turns := rest }) b hopen]
  · rw [step_deliver hturns, deliver_of_ended (s := { s with turns := rest }) b hended]

end Sys2Proof.Machine

/-! ### Faults (60_exceptions.md) -/

namespace Sys2Proof.Machine

open Sys2Proof.Claims

variable {s t u : State}

/-! #### A code step that faults (R241, R242) -/

/-- `u` holds every bit that is unread from `s` on: the bytes delivered are merged, and only the cursor moved (R129). -/
structure AllBitsHeld (s u : State) : Prop where
  same : sameBesidesCursor s u
  bits : u.bitbuf.toNat = unreadBits s
  count : u.bitcnt.toNat = unreadCount s

theorem Decoding.allBitsHeld_of_raised (h : Decoding s) (hg : getCode (resume s) = .raised t) :
    ∃ u, AllBitsHeld (resume s) u ∧ t = raise .truncatedRead 0 u := by
  have hread := getCode_cases (resume s) h.built.width.2 h.bitCount h.bitsHeld
  rw [hg] at hread
  cases hread with
  | ended u same within short few rest bits count =>
    exact ⟨u, ⟨same, (unreadBits_of_payload_nil rest).symm.trans bits,
      (unreadCount_of_payload_nil rest).symm.trans count⟩, rfl⟩

theorem Decoding.allBitsHeld_of_terminated (h : Decoding s) (hg : getCode (resume s) = .terminated u) :
    AllBitsHeld (resume s) u := by
  have hread := getCode_cases (resume s) h.built.width.2 h.bitCount h.bitsHeld
  rw [hg] at hread
  cases hread with
  | terminated _ same within short few bits count => exact ⟨same, bits.symm, count.symm⟩

/-- The causes a code can have once its bits are consumed (R235 to R237). -/
def Cause.ofCode (c : Cause) : Prop := c = .invalidCode ∨ c = .outputOverrun ∨ c = .outOfMemory

/-- The causes of the reader inside a code (R120, R122). -/
def Cause.ofReader (c : Cause) : Prop := c = .truncatedRead ∨ c = .dataExhausted

theorem Cause.not_ofReader_of_ofCode {c : Cause} (h : c.ofCode) : ¬ c.ofReader := by
  rcases h with rfl | rfl | rfl <;> simp [Cause.ofReader]

/-- A fault of a code step: the cursor is that after the code, or at the end of the bits. -/
inductive PreciseFault (s : State) : State → Prop
  | ofCode {cause : Cause} (hcause : cause.ofCode) {c : Code} {u : State} (read : getCode (resume s) = .got c u) :
      PreciseFault s (raise cause c u)
  | ofReader {cause : Cause} (hcause : cause.ofReader) {u : State} (held : AllBitsHeld (resume s) u) :
      PreciseFault s (raise cause 0 { u with termseen := decide (cause = .dataExhausted) })

/-- TERMSEEN is 0 during a run, so a source that ends leaves it. -/
theorem Decoding.preciseFault_of_raised (h : Decoding s) (hg : getCode (resume s) = .raised t) : PreciseFault s t := by
  obtain ⟨u, held, rfl⟩ := h.allBitsHeld_of_raised hg
  have hterm : u.termseen = false := held.same.termseen.trans h.terminator
  have hu : { u with termseen := decide (Cause.truncatedRead = .dataExhausted) } = u := by
    rw [decide_eq_false (by decide), ← hterm]
  have hfault := PreciseFault.ofReader (cause := .truncatedRead) (.inl rfl) held
  rwa [hu] at hfault

theorem CodeStep.preciseFault (h : CodeStep s t) (hd : Decoding s) (hp : s.phase = .run) (hf : t.phase = .fault) :
    PreciseFault s t := by
  have hrun {c : Code} {u : State} (hg : getCode (resume s) = .got c u) : u.phase = .run :=
    (hd.of_getCode hg).2.1.trans hp
  cases h with
  | waits => cases hp.symm.trans hf
  | truncated u hg => exact hd.preciseFault_of_raised hg
  | exhausted u hg => exact .ofReader (cause := .dataExhausted) (.inr rfl) (hd.allBitsHeld_of_terminated hg)
  | clear c u hg => cases (hrun hg).symm.trans hf
  | stop => cases hf
  | illegal c u hg => exact .ofCode (.inl rfl) hg
  | overrun c u hg => exact .ofCode (.inr (.inl rfl)) hg
  | noMemory c u hg => exact .ofCode (.inr (.inr rfl)) hg
  | data c u hg f str p m =>
    have hphase := (afterDataCode_same c f str.length p m u).phase.trans (hrun hg)
    cases hphase.symm.trans hf

theorem Inv.codeStep_preciseFault (h : Inv s) (hp : s.phase = .run) (hs : Machine.codeStep s = .next t)
    (hf : t.phase = .fault) : PreciseFault s t := by
  have hd := h.decoding (.inl hp)
  obtain ⟨t', ht', hcase⟩ := codeStep_cases h hp (addressesGood_of_geometryFits hd.geometry)
  cases ht'.symm.trans hs
  exact hcase.preciseFault hd hp hf

/-- Settles O47: a code step faults at the cursor after its code, or where the reader stopped with all bits held. -/
theorem codeStepFaultsArePrecise : Obligations.CodeStepFaultsArePrecise := by
  intro s t h hp hs hf
  cases h.codeStep_preciseFault hp ((engineStep_run hp).symm.trans hs) hf with
  | @ofCode cause hcause c u read =>
    have hmove := getCode_move (resume s)
    rw [read] at hmove
    exact ⟨fun _ => ⟨c, u, read, hmove.same_of_got, rfl⟩,
      fun hreader => absurd hreader (Cause.not_ofReader_of_ofCode hcause),
      hcause.imp_right (.imp_right .inl)⟩
  | @ofReader cause hcause u held =>
    exact ⟨fun hcode => absurd hcause (Cause.not_ofReader_of_ofCode hcode),
      fun _ => ⟨u, held.same, held.bits, held.count, rfl⟩,
      .inr (.inr (.inr hcause))⟩

/-! #### FAULT is final (R243, R244) -/

/-- A field that is the decoder's is the same. -/
theorem decoderField {α : Type} (h : sameDecoder s t) (f : State → α) :
    f { t with
      cw := s.cw, ch := s.ch, fx := s.fx, fy := s.fy, fw := s.fw, fh := s.fh, interlace := s.interlace, fb := s.fb
      source := s.source, sourceEnded := s.sourceEnded, turns := s.turns, returned := s.returned
      freeTick := s.freeTick } = f s :=
  congrArg f h

theorem sameDecoder.trans (h : sameDecoder s t) (h' : sameDecoder t u) : sameDecoder s u := by
  unfold sameDecoder at *
  rw [← h, ← h']

/-- A CSR write that is no command reaches the configuration only (R44, R45). -/
theorem csrWrite_sameDecoder {off v : CsrWord} (hkeep : leavesFault (.host (.csrWrite off v)) = false)
    (h : csrWrite off v s = .next t) : sameDecoder s t := by
  by_cases hoff : off = 0
  · subst hoff
    obtain ⟨h0, h1⟩ : v.getLsbD 0 = false ∧ v.getLsbD 1 = false := by simpa [leavesFault] using hkeep
    cases (csrWrite_noCommand h1 h0 s).symm.trans h
    rfl
  · rw [csrWrite, if_neg hoff] at h
    cases h
    exact csrWriteConfig_sameDecoder off v s

/-- Only START, ABORT and reset touch the decoder from outside the engine. -/
theorem takeTurn_sameDecoder {turn : Turn} (hne : turn ≠ .engine) (hkeep : leavesFault turn = false)
    (h : takeTurn turn s = .next t) : sameDecoder s t := by
  cases takeTurn_cases hne h with
  | outside same => exact same.sameDecoder
  | configured | started | badGeometry | aborted => exact csrWrite_sameDecoder hkeep h
  | cellWritten => rfl
  | hardwareReset => cases hkeep

theorem step_engine_in_fault (hp : s.phase = .fault) (he : engineMoves s = true) : step s = .next (afterTurn s) :=
  (step_engine he).trans (engineStep_inactive (s := afterTurn s) (.inr (.inr hp)))

theorem step_sameDecoder_in_fault (hp : s.phase = .fault)
    (hkeep : ∀ u rest, s.turns = u :: rest → leavesFault u = false) (hs : step s = .next t) : sameDecoder s t := by
  cases he : engineMoves s with
  | true =>
    cases (step_engine_in_fault hp he).symm.trans hs
    rfl
  | false =>
    obtain ⟨turn, rest, hturns, hne, hstep⟩ := step_other he
    have hturn : sameDecoder s { s with turns := rest } := rfl
    exact hturn.trans (takeTurn_sameDecoder hne (hkeep turn rest hturns) (hstep.symm.trans hs))

/-- Settles O48: the engine has no step in FAULT, and a move that is no command or reset keeps the decoder. -/
theorem faultStaysUntilCommandOrReset : Obligations.FaultStaysUntilCommandOrReset := by
  intro s t hp hs
  refine ⟨fun he => ?_, fun hkeep => ?_⟩
  · cases (step_engine_in_fault hp he).symm.trans hs
    rfl
  · have same := step_sameDecoder_in_fault hp hkeep hs
    exact ⟨same.phase.trans hp, decoderField same State.cause, decoderField same State.errinfo,
      decoderField same State.outoff, decoderField same State.bytecnt, decoderField same State.nent,
      decoderField same State.table⟩

/-! #### Raising (R234, R240) -/

theorem exec_codesize_of_illegal {b : Byte} (hp : s.phase = .hdr) (hb : b.toNat < 2 ∨ 8 < b.toNat) :
    exec (.codesize b) s = .next (raise .badCodeSize (b.setWidth 12) s) :=
  (if_pos hp).trans (if_pos hb)

/-- Settles O24: the byte is no legal code size. -/
theorem otherCodeSizeByteFaults : Obligations.OtherCodeSizeByteFaults := fun _ b hp hb =>
  ⟨b.setWidth 12, BitVec.toNat_setWidth_of_le (by decide), exec_codesize_of_illegal hp hb⟩

/-- Settles O46: `raise` is an update of these three fields. -/
theorem raiseWritesOnlyTheControlState : Obligations.RaiseWritesOnlyTheControlState := fun s c info =>
  ⟨raise_phase s c info, raise_cause s c info, raise_errinfo s c info, rfl⟩

end Sys2Proof.Machine

/-! ### Reset and the end of a run (70_reset_and_hazards.md) -/

namespace Sys2Proof.Machine

open Sys2Proof.Claims

variable {s t u : State}

/-! #### Reset (R260, R261) -/

theorem step_hardReset {rest : List Turn} (h : s.turns = .host .reset :: rest) :
    step s = .next (hardReset { s with turns := rest }) :=
  step_of_turns h

/-- Settles O38: what `hardReset` keeps is none of the engine's. -/
theorem hardwareResetClearsTheEngine : Obligations.HardwareResetClearsTheEngine := fun _ _ hturns =>
  ⟨_, step_hardReset hturns, rfl⟩

theorem tableRead_reset (k : Nat) : tableRead State.reset k = none := ite_self none

theorem csrRead_reset (off : CsrWord) : csrRead off State.reset = 0 := by
  unfold csrRead
  split_ifs <;> rfl

/-- Settles O50: the table has no slot to read, and each register's CSR shows its 0. -/
theorem resetStateIsAllZero : Obligations.ResetStateIsAllZero :=
  ⟨rfl, rfl, rfl, rfl, rfl, rfl, rfl, rfl, rfl, rfl, rfl, rfl, rfl, rfl, rfl, rfl, rfl, rfl, rfl, rfl, rfl,
    tableRead_reset, csrRead_reset⟩

theorem fresh_reset : Fresh State.reset where
  frameBuffer := Memory.wf_reset
  parameter := by decide
  noCause := ⟨rfl, rfl⟩
  unbuilt := ⟨⟨rfl, rfl, rfl⟩, ⟨rfl, rfl⟩, rfl, rfl⟩
  rewound := ⟨⟨rfl, rfl, rfl⟩, rfl, rfl⟩
  notPartway := rfl

/-- Settles O51: nothing has been read and no table begun. -/
theorem resetMeetsTheInvariant : Obligations.ResetMeetsTheInvariant := fresh_reset.inv (.inl rfl)

/-! #### Every run on a finite source ends (R279, R175)

A code takes at least three bits, a drain step takes a byte, and where neither can the step ends the run. -/

/-- How many engine steps can still come before DONE or FAULT: in RUN one for every three bits that are held or still to
come, one for every byte a drain could take, and the step that ends the run. -/
def stepsLeft (s : State) : Nat :=
  match s.phase with
  | .hdr => 8 * s.source.length / 3 + s.source.length + 2
  | .run => (8 * (resume s).source.length + s.bitcnt.toNat) / 3 + (resume s).source.length + 1
  | .drain => s.source.length + 1
  | .idle | .done | .fault => 0

theorem stepsLeft_hdr (h : s.phase = .hdr) : stepsLeft s = 8 * s.source.length / 3 + s.source.length + 2 := by
  rw [stepsLeft, h]

theorem stepsLeft_run (h : s.phase = .run) :
    stepsLeft s = (8 * (resume s).source.length + s.bitcnt.toNat) / 3 + (resume s).source.length + 1 := by
  rw [stepsLeft, h]

theorem stepsLeft_drain (h : s.phase = .drain) : stepsLeft s = s.source.length + 1 := by
  rw [stepsLeft, h]

theorem stepsLeft_done (h : s.phase = .done) : stepsLeft s = 0 := by
  rw [stepsLeft, h]

theorem stepsLeft_fault (h : s.phase = .fault) : stepsLeft s = 0 := by
  rw [stepsLeft, h]

theorem stepsLeft_pos (h : s.phase.busy = true) : 0 < stepsLeft s := by
  rcases Phase.busy_iff.1 h with h | h | h
  · rw [stepsLeft_hdr h]; omega
  · rw [stepsLeft_run h]; omega
  · rw [stepsLeft_drain h]; omega

/-- What a step is measured by: the bytes before the cursor, the number of bits held, and the moves of the other
agents. -/
def streamOf (s : State) : List Byte × List Byte × BitVec 5 × Bool × List Turn :=
  (s.partway, s.source, s.bitcnt, s.sourceEnded, s.turns)

theorem streamOf_eq_iff :
    streamOf t = streamOf s ↔ t.partway = s.partway ∧ t.source = s.source ∧ t.bitcnt = s.bitcnt ∧
      t.sourceEnded = s.sourceEnded ∧ t.turns = s.turns := by
  simp [streamOf]

/-- The step from `s` to `t` brought the run nearer to its end, and the other agents are as before. -/
structure Advances (s t : State) : Prop where
  turns : t.turns = s.turns
  sourceEnded : t.sourceEnded = s.sourceEnded
  fewer : stepsLeft t < stepsLeft s

theorem Advances.of_fault (hbusy : s.phase.busy = true) (hfault : t.phase = .fault) (hturns : t.turns = s.turns)
    (hended : t.sourceEnded = s.sourceEnded) : Advances s t :=
  ⟨hturns, hended, stepsLeft_fault hfault ▸ stepsLeft_pos hbusy⟩

/-! ##### The header step -/

theorem Inv.headerStep_advances (h : Inv s) (hp : s.phase = .hdr) (hended : s.sourceEnded = true)
    (hs : Machine.headerStep s = .next t) : Advances s t := by
  have hbusy : s.phase.busy = true := by rw [hp]; rfl
  rcases headerStep_cases hp with ⟨-, hopen, -⟩ | ⟨-, -, he⟩ | ⟨b, rest, hsource, ⟨-, he⟩ | ⟨-, he⟩⟩
  · cases hopen.symm.trans hended
  all_goals cases he.symm.trans hs
  · exact .of_fault hbusy rfl rfl rfl
  · exact .of_fault hbusy rfl rfl rfl
  · refine ⟨rfl, rfl, ?_⟩
    have hway : s.partway = [] := h.notPartway (by rw [hp]; decide)
    have hcnt : s.bitcnt.toNat = 0 := by rw [(h.beforeHeader (.inr hp)).2.cursor.2.2]; rfl
    rw [stepsLeft_hdr hp, stepsLeft_run rfl]
    change (8 * (s.partway ++ rest).length + s.bitcnt.toNat) / 3 + (s.partway ++ rest).length + 1 < _
    rw [hway, hcnt, hsource, List.nil_append, List.length_cons]
    omega

/-! ##### The drain step -/

theorem drainStep_advances (hp : s.phase = .drain) (hended : s.sourceEnded = true) (hs : drainStep s = .next t) :
    Advances s t := by
  rcases drainStep_cases hp with ⟨-, hopen, -⟩ | ⟨-, -, he⟩ |
    ⟨b, rest, hsource, ⟨-, he⟩ | ⟨-, -, he⟩ | ⟨-, -, he⟩⟩
  · cases hopen.symm.trans hended
  all_goals cases he.symm.trans hs
  · exact .of_fault (by rw [hp]; rfl) rfl rfl rfl
  · exact ⟨rfl, rfl, by simp [stepsLeft_drain, hp, hsource]⟩
  · exact ⟨rfl, rfl, by simp [stepsLeft_drain, hp, hsource]⟩
  · exact ⟨rfl, rfl, by simp [stepsLeft_drain, stepsLeft_done, hp]⟩

/-! ##### The code step -/

theorem CodeEffect.stream (h : CodeEffect s t) : streamOf t = streamOf s := by
  cases h with
  | cleared | stopped | raised => rfl
  | data same => exact dataField same streamOf

/-- Carrying out a code takes nothing of the stream, and only STOP and the faults leave RUN, for a phase with fewer
steps to come. -/
theorem CodeEffect.stepsLeft_le (h : CodeEffect s t) (hp : s.phase = .run) : stepsLeft t ≤ stepsLeft s := by
  obtain ⟨hway, hsource, hcnt, -, -⟩ := streamOf_eq_iff.1 h.stream
  rw [stepsLeft_run hp, resume_source]
  rcases h.phase with ht | ht | ht
  · rw [stepsLeft_run (ht.trans hp), resume_source, hway, hsource, hcnt]
  · rw [stepsLeft_drain ht, hsource, List.length_append]; omega
  · rw [stepsLeft_fault ht]; exact Nat.zero_le _

/-- Reading a code takes at least the three bits of the least width (R22, R91). -/
theorem Decoding.getCode_advances (h : Decoding s) (hp : s.phase = .run) {c : Code}
    (hg : getCode (resume s) = .got c u) : Advances s u := by
  have hread := getCode_cases (resume s) h.built.width.2 h.bitCount h.bitsHeld
  rw [hg] at hread
  cases hread with
  | code _ _ same _ _ _ _ _ _ measure =>
    refine ⟨same.turns, same.sourceEnded, ?_⟩
    have hway : u.partway = [] := same.partway
    have hwidth : 3 ≤ s.kw.toNat := by have := h.built.width.1; have := h.built.codeSize.1; omega
    have hheld : s.bitcnt.toNat ≤ 7 := h.bitCount
    rw [resume_kw, resume_bitcnt] at measure
    rw [stepsLeft_run (same.phase.trans hp), stepsLeft_run hp, resume_source u, hway, List.nil_append]
    omega

theorem codeStep_effect {c : Code} (hg : getCode (resume s) = .got c u) (hs : codeStep s = .next t) :
    CodeEffect u t := by
  rw [codeStep, finish_got hg] at hs
  split at hs
  · next hi => exact exec_of_decodeCode hi hs
  · cases hs

theorem Inv.codeStep_advances (h : Inv s) (hp : s.phase = .run) (hended : s.sourceEnded = true)
    (hs : Machine.codeStep s = .next t) : Advances s t := by
  have hbusy : s.phase.busy = true := by rw [hp]; rfl
  have hd := h.decoding (.inl hp)
  have hread := getCode_cases (resume s) hd.built.width.2 hd.bitCount hd.bitsHeld
  generalize hg : getCode (resume s) = g at hread
  cases hread with
  | code c u same =>
    have hadv := hd.getCode_advances hp hg
    have heffect := codeStep_effect hg hs
    obtain ⟨-, -, -, hend, hturns⟩ := streamOf_eq_iff.1 heffect.stream
    exact ⟨hturns.trans hadv.turns, hend.trans hadv.sourceEnded,
      Nat.lt_of_le_of_lt (heffect.stepsLeft_le (same.phase.trans hp)) hadv.fewer⟩
  | ended u same =>
    rw [Machine.codeStep, finish_raised hg] at hs
    cases hs
    exact .of_fault hbusy rfl same.turns same.sourceEnded
  | terminated u same _ _ _ _ _ _ due =>
    rw [Machine.codeStep, finish_terminated hg, exec_term_run (same.phase.trans hp) due] at hs
    cases hs
    exact .of_fault hbusy rfl same.turns same.sourceEnded
  | waiting _ _ hopen => cases hopen.symm.trans hended

/-! ##### The run -/

theorem Inv.engineStep_advances (h : Inv s) (hbusy : s.phase.busy = true) (hended : s.sourceEnded = true)
    (hs : Machine.engineStep s = .next t) : Advances s t := by
  rcases Phase.busy_iff.1 hbusy with hp | hp | hp
  · exact h.headerStep_advances hp hended ((engineStep_hdr hp).symm.trans hs)
  · exact h.codeStep_advances hp hended ((engineStep_run hp).symm.trans hs)
  · exact drainStep_advances hp hended ((engineStep_drain hp).symm.trans hs)

/-- A run in progress stays in its phases or ends in DONE or FAULT (R39). -/
theorem busy_or_ended_of_engineEdge {p q : Phase} (hp : p.busy = true) (h : engineEdge p q = true) :
    q.busy = true ∨ q = .done ∨ q = .fault := by
  revert hp h
  cases p <;> cases q <;> decide

theorem core_run_succ {k : Nat} (h : step s = .next t) :
    Host.Core.run Sys2Proof.core (k + 1) s = Host.Core.run Sys2Proof.core k t := by
  have hcore : Sys2Proof.core.step s = .next t := h
  simp only [Host.Core.run, hcore]

/-- The run ends at `t`, within `n` steps of `s`. -/
def endsWithin (n : Nat) (s : State) : Prop :=
  ∃ k t, k ≤ n ∧ Host.Core.run Sys2Proof.core k s = .next t ∧ (t.phase = .done ∨ t.phase = .fault)

theorem endsWithin_of_step {m n : Nat} (hs : step s = .next t) (hlt : m < n) (h : endsWithin m t) : endsWithin n s := by
  obtain ⟨k, v, hk, hrun, hv⟩ := h
  exact ⟨k + 1, v, Nat.le_trans (Nat.succ_le_succ hk) hlt, (core_run_succ hs).trans hrun, hv⟩

/-- By induction on the steps left: each step keeps the invariant and leaves fewer. -/
theorem Inv.ends (h : Inv s) (hphase : s.phase.busy = true ∨ s.phase = .done ∨ s.phase = .fault)
    (hturns : s.turns = []) (hended : s.sourceEnded = true) : endsWithin (stepsLeft s) s := by
  induction hn : stepsLeft s using Nat.strong_induction_on generalizing s with
  | _ n ih =>
    rcases hphase with hbusy | hover
    · obtain ⟨t, ht⟩ := h.engineStep_next
      have hs : step s = .next t := by rw [step, nextMove, hturns]; exact ht
      have hadv := h.engineStep_advances hbusy hended ht
      have hlt : stepsLeft t < n := hn ▸ hadv.fewer
      exact endsWithin_of_step hs hlt <| ih _ hlt (h.engineStep ht)
        (busy_or_ended_of_engineEdge hbusy (engineStep_phase ht)) (hadv.turns.trans hturns)
        (hadv.sourceEnded.trans hended) rfl
    · exact ⟨0, s, Nat.zero_le _, rfl, hover⟩

/-- Settles O54: in HDR the bound is `stepsLeft`. -/
theorem everyRunEndsInTime : Obligations.EveryRunEndsInTime := fun s h hp hturns hended => by
  have hends := h.ends (.inl (by rw [hp]; rfl)) hturns hended
  rwa [stepsLeft_hdr hp] at hends

end Sys2Proof.Machine
